-- ==== Sys2Proof/Word.lean ====
section
/-! DEFINITION. The units of the BMP core: bytes, 16-bit and 32-bit words, and the Pixel record of 00_scope.md R14. -/

namespace Sys2Proof

/-- One byte of a stream, or one channel value (`u8`, 00_scope.md R14). -/
abbrev Byte := BitVec 8

/-- A 16-bit register or header field (`u16`). -/
abbrev Half := BitVec 16

/-- A 32-bit register, header field or command word (`u32`, `i32`). -/
abbrev Word := BitVec 32

/-- A Pixel, "three 8-bit unsigned channel values, ordered (Blue, Green, Red); no alpha" (00_scope.md R14). -/
structure Pixel where
  b : Byte
  g : Byte
  r : Byte
  deriving DecidableEq, Repr, Inhabited

end Sys2Proof
end

