-- ==== Sys2Proof/Syntax.lean ====
section
/-! DEFINITION. The seventeen commands of 30_encoding.md R105, one constructor per row of spec/opcode_table.json. An operand is the integer `sext_32` of its word (R106); that it fits an `i32` is checked in WellFormed. -/

namespace Sys2Proof

/-- The commands (30_encoding.md R104, R105): "the operation set is closed". -/
inductive Instr where
  | keepb
  | keepr
  | keepg
  | gray
  | neg
  | pixelate (blockSize : Int)
  | blur (kernelSize : Int)
  | rot90
  | rot180
  | rot270
  | rotm90
  | rotm180
  | rotm270
  | mirh
  | mirv
  | crop2 (offsetX offsetY : Int)
  | crop4 (offsetX offsetY width height : Int)
  deriving DecidableEq, Repr

/-- The class of a command, the `CLASS` field of its word (30_encoding.md R101, R113). -/
inductive CmdClass where
  | filter
  | rotate
  | mirror
  | crop
  deriving DecidableEq, Repr

end Sys2Proof
end

