-- ==== Sys2Proof/WellFormed.lean ====
section
/-! DEFINITION. Well-formed commands: every operand is an `i32` (30_encoding.md R106, R111). There is no other check: "Operand values are never illegal at decode time". -/

namespace Sys2Proof

/-- The range of an operand, −2^31 to 2^31 − 1 (30_encoding.md R106). -/
def fitsI32 (v : Int) : Bool := -2147483648 ≤ v && v ≤ 2147483647

/-- A command the encoding can carry. -/
def Instr.wellFormed : Instr → Bool
  | .keepb => true
  | .keepr => true
  | .keepg => true
  | .gray => true
  | .neg => true
  | .pixelate a => fitsI32 a
  | .blur a => fitsI32 a
  | .rot90 => true
  | .rot180 => true
  | .rot270 => true
  | .rotm90 => true
  | .rotm180 => true
  | .rotm270 => true
  | .mirh => true
  | .mirv => true
  | .crop2 a b => fitsI32 a && fitsI32 b
  | .crop4 a b c d => fitsI32 a && fitsI32 b && fitsI32 c && fitsI32 d

end Sys2Proof
end

