-- ==== Sys2Proof/Decode.lean ====
section
/-! DEFINITION. The command decoder, total on any sequence of words (30_encoding.md R112), the encoder written from the same tables (R101 to R105), and the string tokens of R121 to R123. -/

namespace Sys2Proof

/-- The class of a command (30_encoding.md R113). -/
def Instr.cls : Instr → CmdClass
  | .keepb => .filter
  | .keepr => .filter
  | .keepg => .filter
  | .gray => .filter
  | .neg => .filter
  | .pixelate _ => .filter
  | .blur _ => .filter
  | .rot90 => .rotate
  | .rot180 => .rotate
  | .rot270 => .rotate
  | .rotm90 => .rotate
  | .rotm180 => .rotate
  | .rotm270 => .rotate
  | .mirh => .mirror
  | .mirv => .mirror
  | .crop2 _ _ => .crop
  | .crop4 _ _ _ _ => .crop

/-- The command word of a command (30_encoding.md R105): `CLASS` in bits 31..28, `SEL` in 27..24, zeros below. -/
def Instr.commandWord : Instr → Word
  | .keepb => 0x10000000
  | .keepr => 0x11000000
  | .keepg => 0x12000000
  | .gray => 0x13000000
  | .neg => 0x14000000
  | .pixelate _ => 0x15000000
  | .blur _ => 0x16000000
  | .rot90 => 0x20000000
  | .rot180 => 0x21000000
  | .rot270 => 0x22000000
  | .rotm90 => 0x23000000
  | .rotm180 => 0x24000000
  | .rotm270 => 0x25000000
  | .mirh => 0x30000000
  | .mirv => 0x31000000
  | .crop2 _ _ => 0x40000000
  | .crop4 _ _ _ _ => 0x41000000

/-- The operands in word order (30_encoding.md R102, R105). -/
def Instr.operands : Instr → List Int
  | .keepb => []
  | .keepr => []
  | .keepg => []
  | .gray => []
  | .neg => []
  | .pixelate a => [a]
  | .blur a => [a]
  | .rot90 => []
  | .rot180 => []
  | .rot270 => []
  | .rotm90 => []
  | .rotm180 => []
  | .rotm270 => []
  | .mirh => []
  | .mirv => []
  | .crop2 a b => [a, b]
  | .crop4 a b c d => [a, b, c, d]

/-- The length of a command in words: the command word and its operand words (30_encoding.md R102, R103). -/
def Instr.words (i : Instr) : Nat := 1 + i.operands.length

/-- An operand word, `v mod 2^32` in two's complement (30_encoding.md R106). -/
def encodeOperand (v : Int) : Word := BitVec.ofInt 32 v

/-- An operand's value, `sext_32(word)` (30_encoding.md R106). -/
def operandValue (w : Word) : Int := w.toInt

/-- What the decoder finds at the front of a word sequence (30_encoding.md R112). -/
inductive Decoded where
  /-- One of the seventeen commands, and the words after it. -/
  | command (i : Instr) (rest : List Word)
  /-- The first word is none of the seventeen (30_encoding.md R108). -/
  | illegal
  /-- The operand words run past the end (30_encoding.md R109). -/
  | truncated
  deriving DecidableEq, Repr

/-- Format C0: the command word alone (30_encoding.md R102). -/
def takeC0 (i : Instr) (rest : List Word) : Decoded := .command i rest

/-- Format C1: one operand word follows. -/
def takeC1 (mk : Int → Instr) : List Word → Decoded
  | a :: rest => .command (mk (operandValue a)) rest
  | _ => .truncated

/-- Format C2: two operand words follow. -/
def takeC2 (mk : Int → Int → Instr) : List Word → Decoded
  | a :: b :: rest => .command (mk (operandValue a) (operandValue b)) rest
  | _ => .truncated

/-- Format C4: four operand words follow. -/
def takeC4 (mk : Int → Int → Int → Int → Instr) : List Word → Decoded
  | a :: b :: c :: d :: rest =>
    .command (mk (operandValue a) (operandValue b) (operandValue c) (operandValue d)) rest
  | _ => .truncated

/-- The opcode map over `OPC = word[31:24]` (30_encoding.md R105, R112), applied to the words after the command word.
Every opcode the map does not list is illegal (R108). -/
def decodeOpcode (opc : Byte) (rest : List Word) : Decoded :=
  match opc.toNat with
  | 0x10 => takeC0 .keepb rest
  | 0x11 => takeC0 .keepr rest
  | 0x12 => takeC0 .keepg rest
  | 0x13 => takeC0 .gray rest
  | 0x14 => takeC0 .neg rest
  | 0x15 => takeC1 .pixelate rest
  | 0x16 => takeC1 .blur rest
  | 0x20 => takeC0 .rot90 rest
  | 0x21 => takeC0 .rot180 rest
  | 0x22 => takeC0 .rot270 rest
  | 0x23 => takeC0 .rotm90 rest
  | 0x24 => takeC0 .rotm180 rest
  | 0x25 => takeC0 .rotm270 rest
  | 0x30 => takeC0 .mirh rest
  | 0x31 => takeC0 .mirv rest
  | 0x40 => takeC2 .crop2 rest
  | 0x41 => takeC4 .crop4 rest
  | _ => .illegal

/-- `Decode` of 30_encoding.md R112 on the words from the command word to the end of the program. The reserved bits
`word[23:0]` are checked first (R107). No word at all never arises (`i < CMDLEN`); it answers truncated (log 19). -/
def decode : List Word → Decoded
  | [] => .truncated
  | w :: rest =>
    if w.extractLsb' 0 24 ≠ 0#24 then .illegal
    else decodeOpcode (w.extractLsb' 24 8) rest

/-- The words of a command (30_encoding.md R101, R102). -/
def encode (i : Instr) : List Word := i.commandWord :: i.operands.map encodeOperand

/-- The longest command, `CROP4`, in words (30_encoding.md R102, format C4). -/
def maxWords : Nat := 5

/-- The words of a row of spec/opcode_table.json: word `k` is bits `32k+31 .. 32k` of the low `nbits` bits of `w`, and
every bit above is 0 (operand words of zeros). -/
def tableWords (nbits w : Nat) : List Word :=
  (List.range maxWords).map fun k => BitVec.ofNat 32 ((w % 2 ^ nbits) >>> (32 * k))

/-- The command the decoder reads from an opcode-table word. -/
def decodeTableWord (nbits w : Nat) : Option Instr :=
  match decode (tableWords nbits w) with
  | .command i _ => some i
  | .illegal => none
  | .truncated => none

/-- Rotate tokens (30_encoding.md R122), compared exactly as spelled (R120). -/
def rotateToken : String → Option Instr
  | "90" => some .rot90
  | "180" => some .rot180
  | "270" => some .rot270
  | "right" => some .rot90
  | "left" => some .rotm90
  | "-90" => some .rotm90
  | "-180" => some .rotm180
  | "-270" => some .rotm270
  | _ => none

/-- Mirror tokens (30_encoding.md R123): the four tokens, no synonym. -/
def mirrorToken : String → Option Instr
  | "horizontal" => some .mirh
  | "h" => some .mirh
  | "vertical" => some .mirv
  | "v" => some .mirv
  | _ => none

/-- Filter names with their parsed arguments (30_encoding.md R121): `pixelate n` and `blur n` take one integer, the other
five none; any other name, or a wrong argument count, is no command. -/
def filterToken : String → List Int → Option Instr
  | "keep-blue", [] => some .keepb
  | "keep-red", [] => some .keepr
  | "keep-green", [] => some .keepg
  | "grayscale", [] => some .gray
  | "negative", [] => some .neg
  | "pixelate", [n] => some (.pixelate n)
  | "blur", [n] => some (.blur n)
  | _, _ => none

/-- Crop specs with their parsed numbers (30_encoding.md R124): `X-Y` or `X-Y-W-H`, no three-number form; the string form
cannot spell a negative number. -/
def cropSpec : List Nat → Option Instr
  | [x, y] => some (.crop2 x y)
  | [x, y, w, h] => some (.crop4 x y w h)
  | _ => none

end Sys2Proof
end

