-- ==== Sys2Proof/Config.lean ====
section
/-! DEFINITION. The configuration record of 00_scope.md R11, as plain data, and the free values: what the spec leaves unspecified, as constants without a body. -/

namespace Sys2Proof

/-- Which collaborator call: `InRead`, `InSeek` or `OutWrite` (20_memory.md R68 to R70). -/
inductive IoKind where
  | read
  | seek
  | write
  deriving DecidableEq, Repr

/-- One collaborator call as the oracle sees it, `io_fault(kind, position, n)` (20_memory.md R72). -/
structure IoCall where
  kind : IoKind
  pos  : Nat
  len  : Nat
  deriving DecidableEq, Repr

/-- One input on which the grayscale function of a configuration differs from the exact formula (43_filters.md R226). -/
structure LumaEntry where
  pixel : Pixel
  value : Byte
  deriving DecidableEq, Repr

/-- The parameters of 00_scope.md R11 ("a configuration record"). `IN` is a field of State beside this record.
`luma` and `io_fault` are functions in the spec; here each is the finite list of the points at which it departs from its
default (DEDUCED: log 3, log 4). `ioHang` lists the calls that never return (93_implementation_defined.md U33, log 5). -/
structure Config where
  /-- `MAX_DIM`: largest width and largest height the decoder accepts. -/
  maxDim    : Nat := 32767
  /-- `MAX_PIXELS`: capacity of the pixel buffer in pixels; `MAX_DIM²`, no further limit, where none is given. -/
  maxPixels : Nat := maxDim * maxDim
  /-- `CMD_CAP`: capacity of the command memory in words. -/
  cmdCap    : Nat := 1024
  /-- `OUT_CAP`: bytes the sink accepts before a short write; `none` is the spec's infinity. -/
  outCap    : Option Nat := none
  luma      : List LumaEntry := []
  ioFault   : List IoCall := []
  ioHang    : List IoCall := []
  deriving DecidableEq, Repr

/-- The constraints of 00_scope.md R11: `1 ≤ MAX_DIM ≤ 32767`, `1 ≤ MAX_PIXELS ≤ MAX_DIM²`, `CMD_CAP ≥ 1`. -/
abbrev Config.legal (c : Config) : Prop :=
  1 ≤ c.maxDim ∧ c.maxDim ≤ 32767 ∧ 1 ≤ c.maxPixels ∧ c.maxPixels ≤ c.maxDim * c.maxDim ∧ 1 ≤ c.cmdCap

/-- FREE VALUE (log 6): the word of `CMD` that nothing has written since a reset, "unspecified" (10_state.md R40, R44;
93 U21 `any value`), by the number of resets so far and the word index. No body: nothing is known of it. -/
opaque Config.unspecifiedCmd : Nat → Nat → Word

/-- FREE VALUE (log 7): what a host read of a Header or Image register, `IPOS`, `OLEN` or `OPIDX` returns while
`BUSY = 1`, or of a word of `CMD` not below `CMDLEN`, returns: "a value the spec does not fix" (10_state.md R37; 93 U21,
U23 `any value`), by a running count of such reads. -/
opaque Config.freeRead : Nat → Word

end Sys2Proof
end

