-- ==== Sys2Proof/Machine/State.lean ====
section
/-! DEFINITION. The state of the core as plain data (10_state.md R20), the parameters it carries (R42), the reasons a step can stop, and the state after reset (R44). -/

namespace Sys2Proof.Machine

/-- `PHASE`, the sequencer's register (10_state.md R33). -/
inductive Phase where
  | idle
  | validate
  | decHdr
  | decPix
  | crop
  | mirror
  | rotate
  | resync
  | filter
  | encHdr
  | encPix
  | done
  | error
  deriving DecidableEq, Repr

/-- The four error kinds (60_exceptions.md R280, R282). -/
inductive ErrKind where
  | formatError
  | rangeError
  | ioError
  | validationError
  deriving DecidableEq, Repr

/-- The causes, what was violated (60_exceptions.md R283). -/
inductive Cause where
  | badSignature
  | badDibSize
  | badBitDepth
  | compressed
  | badDimensions
  | cropOffsetX
  | cropOffsetY
  | cropWidthNonpos
  | cropHeightNonpos
  | cropXExtent
  | cropYExtent
  | pixelateNeg
  | blurNeg
  | shortRead
  | seekFail
  | shortWrite
  | streamClosed
  | unknownToken
  | emptyList
  | truncatedCommand
  deriving DecidableEq, Repr

/-- The Header registers (10_state.md R21 to R28). `HDR.FHSIZE` is hardwired (R23) and has no storage. `width` and
`height` are `i32`, read with `toInt`. -/
structure Header where
  sig      : Half := 0
  fileSize : Word := 0
  dibSize  : Word := 0
  width    : Word := 0
  height   : Word := 0
  bpp      : Half := 0
  imgSize  : Word := 0
  deriving DecidableEq, Repr

/-- The Image (10_state.md R30, R31): pixel `(x, y)` is `pix[y·w + x]`, `y = 0` the top row. -/
structure Image where
  w   : Nat := 0
  h   : Nat := 0
  pix : List Pixel := []
  deriving DecidableEq, Repr

/-- The command memory `CMD` (10_state.md R40): word index and word, indexes strictly rising. An index that is not listed
holds no value (70 R322, "A model should give these no value rather than zero"), so no entry equals what an unlisted
index reads as. -/
abbrev Memory := List (Nat × Word)

/-- The canonical form of the command memory: indexes strictly rising. -/
abbrev Memory.wf (m : Memory) : Prop := m.Pairwise (fun a b => a.1 < b.1)

/-- One move of the schedule (log 8): what the host does next, or that it lets the core take a step
(44_pipeline.md R268; 70_reset_and_hazards.md R320, R327). -/
inductive HostMove where
  /-- The core takes one step. -/
  | tick
  /-- The host writes a word at a byte offset of the register block (10_state.md R36). -/
  | write (offset : Nat) (value : Word)
  /-- The host reads the word at a byte offset of the register block. -/
  | read (offset : Nat)
  /-- The external reset input (70 R320). -/
  | resetPin
  deriving DecidableEq, Repr

/-- Everything a step reads or writes. -/
structure State where
  /-- The Header registers. -/
  hdr      : Header
  /-- `IMG.W`, `IMG.H`, `PIX`. -/
  img      : Image
  /-- `PHASE`; `BUSY`, `DONE`, `ERR` are derived from it (10_state.md R35). -/
  phase    : Phase
  /-- `OPIDX` (10_state.md R33, R34). -/
  opIdx    : Nat
  /-- `ERRKIND` (60_exceptions.md R282). -/
  errKind  : BitVec 3
  /-- `ERRCAUSE` (60_exceptions.md R283). -/
  errCause : BitVec 8
  /-- `ERRINFO` (60_exceptions.md R284). -/
  errInfo  : Word
  /-- `IPOS` (10_state.md R38). -/
  ipos     : Nat
  /-- `OUT`; `OLEN` is its length (10_state.md R39). -/
  out      : List Byte
  /-- `CMD` (10_state.md R40). -/
  cmd      : Memory
  /-- `CMDLEN` (10_state.md R36, R40). -/
  cmdLen   : Word
  /-- `PIXADDR` (10_state.md R36). -/
  pixAddr  : Word
  /-- Parameter: the configuration (00_scope.md R11; 10_state.md R42; log 1). -/
  cfg      : Config
  /-- Parameter: the input bytes `IN`, `IN_LEN` of them (20_memory.md R62; log 1, log 2). -/
  inp      : List Byte
  /-- Model's own: the schedule, next move first (log 8). -/
  host     : List HostMove
  /-- Model's own: what the host's last register read returned (log 9). -/
  rdata    : Word
  /-- Model's own: how many reads have been answered with a free value (log 7). -/
  fresh    : Nat
  /-- Model's own: how many resets there have been since power-on (log 6). -/
  epoch    : Nat
  /-- Model's own: a collaborator call of this run has not returned (93 U33; log 5). -/
  stalled  : Bool
  deriving DecidableEq, Repr

/-- Faults: defects the spec says no rule produces. No state that meets `State.Inv` (Safety.lean) raises one. Each is
safe: the model stops where the hardware is never found (log 12). -/
inductive Fault where
  /-- A `PIX` access outside the buffer: raised by a command or by encodePixels when the buffer does not hold `W·H`
  pixels (20_memory.md R64, 93 U30: "`fault` of the model (a defect), never a hardware behaviour"). Safe. -/
  | pixOutOfRange
  /-- A negative `HDR.WIDTH` or `HDR.HEIGHT` used as a size, in decodePixels or the encoder (45_arithmetic.md R272: "No
  rule ever indexes, divides by or multiplies a negative number"). Safe. -/
  | negativeSize
  /-- A row of fewer than `3·width` bytes in decodePixels, possible only when `HDR.BPP ≠ 24` (10_state.md R29). Safe. -/
  | rowTooShort
  /-- A word that does not decode in an executing phase; "after `VALIDATE` has passed it cannot fail"
  (30_encoding.md R112). Safe. -/
  | undecodable
  deriving DecidableEq, Repr

/-- Refusals. -/
inductive Refusal where
  /-- An instruction without a meaning yet; no arm of exec uses it. Safe. -/
  | notModelled (mnemonic : String)
  /-- `Rotate` at an angle that is no quarter turn: "must refuse such an angle; it must not round it" (42_geometric.md
  R202, 93 U29). Raised by the shared rotate operation; no command carries such an angle (log 13). Safe. -/
  | angleNotQuarterTurn (angle : Int)
  deriving DecidableEq, Repr

/-- What a sequence of collaborator calls and checks comes to: it goes on with a value, or the step ends in the given
state (an error was raised, or the call never returned). -/
inductive Io (α : Type) where
  | ok (a : α) (s : State)
  | stop (s : State)
  deriving DecidableEq, Repr

/-- The state after power-on (10_state.md R44): every register at the listed value, no pixel, no output, no word of `CMD`
given a value. The parameters are the defaults of 00_scope.md R11 with no input attached (log 2); the model's own fields
are empty (log 5 to log 9). -/
def State.reset : State where
  hdr      := { sig := 0, fileSize := 0, dibSize := 0, width := 0, height := 0, bpp := 0, imgSize := 0 }
  img      := { w := 0, h := 0, pix := [] }
  phase    := .idle
  opIdx    := 0
  errKind  := 0
  errCause := 0
  errInfo  := 0
  ipos     := 0
  out      := []
  cmd      := []
  cmdLen   := 0
  pixAddr  := 0
  cfg      := {}
  inp      := []
  host     := []
  rdata    := 0
  fresh    := 0
  epoch    := 0
  stalled  := false

end Sys2Proof.Machine
end

