-- ==== Sys2Proof/Machine/Operands.lean ====
section
/-! DEFINITION. Operand and field values: little-endian assembly and its inverse (00_scope.md R15, 20_memory.md R74), the error information of an operand (60_exceptions.md R284), the kernel size of blur (43_filters.md R239). -/

namespace Sys2Proof.Machine

/-- Bytes read least significant first, as an unsigned number (20_memory.md R74). -/
def leNat : List Byte → Nat
  | [] => 0
  | b :: bs => b.toNat + 256 * leNat bs

/-- `le16` (00_scope.md R15). -/
def le16 (bs : List Byte) : Half := BitVec.ofNat 16 (leNat bs)

/-- `le32`; `sle32` is the same 32 bits read as an `i32` (00_scope.md R15). -/
def le32 (bs : List Byte) : Word := BitVec.ofNat 32 (leNat bs)

/-- The `k` low bytes of `v`, least significant first: `to_le16` for `k = 2`, `to_le32` for `k = 4` (00_scope.md R15). -/
def toLe : Nat → Nat → List Byte
  | 0, _ => []
  | k + 1, v => BitVec.ofNat 8 v :: toLe k (v / 256)

/-- `ERRINFO` of a signed operand: its low 32 bits, two's complement (60_exceptions.md R284, 42_geometric.md R206). -/
def infoOfOperand (v : Int) : Word := BitVec.ofInt 32 v

/-- `ERRINFO` of a position or an index, modulo 2^32 (60_exceptions.md R284). -/
def infoOfNat (n : Nat) : Word := BitVec.ofNat 32 n

/-- The kernel size blur works with: an even size is incremented to force it odd (43_filters.md R235, R239). -/
def oddKernel (a : Nat) : Nat := if a % 2 = 0 then a + 1 else a

/-- `halfKernel = kernelSize/2` (43_filters.md R235). -/
def halfKernel (a : Nat) : Nat := oddKernel a / 2

end Sys2Proof.Machine
end

