-- ==== Sys2Proof/Machine/Flags.lean ====
section
/-! DEFINITION. The codes of the sequencer's phases (10_state.md R33), the status flags (R35), and the codes of the error kinds and causes (60_exceptions.md R282, R283). No command writes a flag (10_state.md R35). -/

namespace Sys2Proof.Machine

/-- The 4-bit code of a phase (10_state.md R33). -/
def Phase.code : Phase → BitVec 4
  | .idle => 0
  | .validate => 1
  | .decHdr => 2
  | .decPix => 3
  | .crop => 4
  | .mirror => 5
  | .rotate => 6
  | .resync => 7
  | .filter => 8
  | .encHdr => 9
  | .encPix => 10
  | .done => 11
  | .error => 12

/-- `BUSY = (PHASE ∉ {IDLE, DONE, ERROR})` (10_state.md R35). -/
def State.busy (s : State) : Bool := s.phase ≠ .idle && s.phase ≠ .done && s.phase ≠ .error

/-- `DONE = (PHASE = DONE)` (10_state.md R35). -/
def State.doneFlag (s : State) : Bool := s.phase = .done

/-- `ERR = (PHASE = ERROR)` (10_state.md R35). -/
def State.errFlag (s : State) : Bool := s.phase = .error

/-- The `STATUS` register: `[0] BUSY`, `[1] DONE`, `[2] ERR`, `[11:8] PHASE`, the other bits 0 (10_state.md R36). -/
def State.status (s : State) : Word :=
  0#20 ++ s.phase.code ++ 0#5 ++ BitVec.ofBool s.errFlag ++ BitVec.ofBool s.doneFlag ++ BitVec.ofBool s.busy

/-- `ERRKIND` codes; 0 is no error and 5 to 7 are never produced (60_exceptions.md R282). -/
def ErrKind.code : ErrKind → BitVec 3
  | .formatError => 1
  | .rangeError => 2
  | .ioError => 3
  | .validationError => 4

/-- The kind a cause refines (60_exceptions.md R283). -/
def Cause.kind : Cause → ErrKind
  | .badSignature => .formatError
  | .badDibSize => .formatError
  | .badBitDepth => .formatError
  | .compressed => .formatError
  | .badDimensions => .formatError
  | .cropOffsetX => .rangeError
  | .cropOffsetY => .rangeError
  | .cropWidthNonpos => .rangeError
  | .cropHeightNonpos => .rangeError
  | .cropXExtent => .rangeError
  | .cropYExtent => .rangeError
  | .pixelateNeg => .rangeError
  | .blurNeg => .rangeError
  | .shortRead => .ioError
  | .seekFail => .ioError
  | .shortWrite => .ioError
  | .streamClosed => .ioError
  | .unknownToken => .validationError
  | .emptyList => .validationError
  | .truncatedCommand => .validationError

/-- `ERRCAUSE` codes (60_exceptions.md R283): "The high nibble of the code repeats the kind". -/
def Cause.code : Cause → BitVec 8
  | .badSignature => 0x11
  | .badDibSize => 0x12
  | .badBitDepth => 0x13
  | .compressed => 0x14
  | .badDimensions => 0x15
  | .cropOffsetX => 0x21
  | .cropOffsetY => 0x22
  | .cropWidthNonpos => 0x23
  | .cropHeightNonpos => 0x24
  | .cropXExtent => 0x25
  | .cropYExtent => 0x26
  | .pixelateNeg => 0x27
  | .blurNeg => 0x28
  | .shortRead => 0x31
  | .seekFail => 0x32
  | .shortWrite => 0x33
  | .streamClosed => 0x34
  | .unknownToken => 0x41
  | .emptyList => 0x42
  | .truncatedCommand => 0x43

end Sys2Proof.Machine
end

