-- ==== Sys2Proof/Machine/Image.lean ====
section
/-! DEFINITION. Pure functions on the Image: addressing (20_memory.md R64), a freshly sized buffer (10_state.md R32), a sub-rectangle (42_geometric.md R209), a pointwise map (43_filters.md R221). -/

namespace Sys2Proof.Machine

/-- The image invariant: "buffer length always equals width×height" (10_state.md R32). -/
abbrev Image.wf (m : Image) : Prop := m.pix.length = m.w * m.h

/-- The pixel at column `x`, row `y`, `PIX[y·IMG.W + x]` (20_memory.md R64). Every use is guarded: the commands and the
encoder fault on a buffer that does not hold the pixel, so the default is never read (log 12). -/
def Image.get (m : Image) (x y : Nat) : Pixel := m.pix.getD (y * m.w + x) default

/-- A fresh `w×h` image whose pixel `(x, y)` is `f x y`, row-major from the top row (10_state.md R31, R32). -/
def Image.build (w h : Nat) (f : Nat → Nat → Pixel) : Image where
  w   := w
  h   := h
  pix := (List.range h).flatMap fun y => (List.range w).map fun x => f x y

/-- The sub-rectangle of size `cw×ch` whose top-left corner is `(ox, oy)` (42_geometric.md R209). -/
def Image.rect (m : Image) (ox oy cw ch : Nat) : Image :=
  Image.build cw ch fun x y => m.get (ox + x) (oy + y)

/-- Every pixel replaced by a function of itself alone (43_filters.md R221). -/
def Image.mapPix (f : Pixel → Pixel) (m : Image) : Image := { m with pix := m.pix.map f }

end Sys2Proof.Machine
end

