-- ==== Sys2Proof/Machine/Ops.lean ====
section
/-! DEFINITION. The shared operations: the command memory, raising an error (60_exceptions.md R290) and reset, which alone leaves the error state (R293), the stream primitives (20_memory.md R68 to R70), fetching a command, executing one on the Image. -/

namespace Sys2Proof.Machine

/-! ### The command memory -/

/-- The word listed at an index, or none (10_state.md R40). -/
def Memory.read : Memory → Nat → Option Word
  | [], _ => none
  | (j, v) :: m, i => if i = j then some v else Memory.read m i

/-- Write a word, keeping the indexes strictly rising. -/
def Memory.write : Memory → Nat → Word → Memory
  | [], i, w => [(i, w)]
  | (j, v) :: m, i, w =>
    if i < j then (i, w) :: (j, v) :: m
    else if i = j then (i, w) :: m
    else (j, v) :: Memory.write m i w

/-- Write consecutive words from an index on. -/
def Memory.writeAll (m : Memory) (i : Nat) : List Word → Memory
  | [] => m
  | w :: ws => Memory.writeAll (m.write i w) (i + 1) ws

/-- `CMD[i]`: the word written there, or the free value of an unspecified word (10_state.md R40, 93 U21; log 6). -/
def State.cmdWord (s : State) (i : Nat) : Word := (s.cmd.read i).getD (Config.unspecifiedCmd s.epoch i)

/-! ### Control transfer (44_pipeline.md R259): next command, next phase, abort -/

/-- `OPIDX` moves on by a command's length (10_state.md R34). -/
def skip (n : Nat) (s : State) : State := { s with opIdx := s.opIdx + n }

/-- `pc <- p` with `OPIDX <- 0` (44_pipeline.md R253, R257, R262). -/
def enter (p : Phase) (s : State) : State := { s with phase := p, opIdx := 0 }

/-- `raise K(cause, info)` (60_exceptions.md R290): the three error registers and `PHASE`; "Nothing else is written". -/
def raise (c : Cause) (info : Word) (s : State) : State :=
  { s with errKind := c.kind.code, errCause := c.code, errInfo := info, phase := .error }

/-- A collaborator call that never returns: the run stays in its phase (93 U33; log 5). -/
def stall (s : State) : State := { s with stalled := true }

/-- What reset does, power-on, external input or `CTRL.RESET` alike (70_reset_and_hazards.md R320, 10_state.md R44). The
parameters, the host's schedule and its last read stay; the words of `CMD` become unspecified again (log 6, log 20). -/
def resetCore (s : State) : State :=
  { State.reset with
    cfg := s.cfg, inp := s.inp, host := s.host, rdata := s.rdata, fresh := s.fresh, epoch := s.epoch + 1 }

/-- What START does, as one step (44_pipeline.md R251). `CMD`, `CMDLEN` and `PIXADDR` are kept. -/
def startRun (s : State) : State :=
  { s with
    hdr := {}, img := {}, ipos := 0, out := [], errKind := 0, errCause := 0, errInfo := 0, opIdx := 0,
    phase := .validate, stalled := false }

/-! ### The stream primitives -/

/-- Sequencing: go on with the value and the state, or end where the first part ended. -/
def Io.bind {α β : Type} (x : Io α) (f : α → State → Io β) : Io β :=
  match x with
  | .ok a s => f a s
  | .stop s => .stop s

/-- The state a sequence of calls ends in, `after` applied when it went through. -/
def Io.finish (after : State → State) : Io Unit → State
  | .ok _ s => after s
  | .stop s => s

/-- One collaborator call: it may never return (93 U33), the oracle may fail it with the given cause (20_memory.md R72),
else `body` runs. -/
def ioCall {α : Type} (kind : IoKind) (pos n : Nat) (failure : Cause) (body : State → Io α) (s : State) : Io α :=
  if (⟨kind, pos, n⟩ : IoCall) ∈ s.cfg.ioHang then .stop (stall s)
  else if (⟨kind, pos, n⟩ : IoCall) ∈ s.cfg.ioFault then .stop (raise failure (infoOfNat pos) s)
  else body s

/-- `InRead(n)` (20_memory.md R68): all `n` bytes, or an error that delivers nothing and leaves `IPOS`. -/
def inRead (n : Nat) (s : State) : Io (List Byte) :=
  ioCall .read s.ipos n .streamClosed (fun s =>
    if s.ipos + n > s.inp.length then .stop (raise .shortRead (infoOfNat s.ipos) s)
    else .ok ((s.inp.drop s.ipos).take n) { s with ipos := s.ipos + n }) s

/-- `InSeek(o)` (20_memory.md R69). -/
def inSeek (o : Nat) (s : State) : Io Unit :=
  ioCall .seek o 0 .seekFail (fun s =>
    if o > s.inp.length then .stop (raise .seekFail (infoOfNat o) s)
    else .ok () { s with ipos := o }) s

/-- `OLEN` (10_state.md R39). -/
def State.olen (s : State) : Nat := s.out.length

/-- Does the sink take `n` more bytes after `len`? (20_memory.md R70; `none` is an unbounded sink.) -/
def fitsCap (cap : Option Nat) (len n : Nat) : Bool :=
  match cap with
  | none => true
  | some c => len + n ≤ c

/-- How many bytes a sink of capacity `cap` still takes after `len`: `OUT_CAP − OLEN` (20_memory.md R70). -/
def roomLeft (cap : Option Nat) (len : Nat) : Nat :=
  match cap with
  | none => 0
  | some c => c - len

/-- Bytes the sink accepts (20_memory.md R70): appended to `OUT`. -/
def acceptBytes (bs : List Byte) (s : State) : State := { s with out := s.out ++ bs }

/-- `OutWrite(bs)` (20_memory.md R70): all of it, or the bytes the sink still takes and an error. -/
def outWrite (bs : List Byte) (s : State) : Io Unit :=
  ioCall .write s.olen bs.length .streamClosed (fun s =>
    if fitsCap s.cfg.outCap s.olen bs.length then .ok () (acceptBytes bs s)
    else
      let t := acceptBytes (bs.take (roomLeft s.cfg.outCap s.olen)) s
      .stop (raise .shortWrite (infoOfNat t.olen) t)) s

/-- Offer the sink bytes, if there are any: no bytes need no `OutWrite`, so none can fail ("How the core chops its output
into `OutWrite` calls ... is not observable", 20_memory.md R70; 60_exceptions.md R295; log 25). -/
def writeSome (bs : List Byte) (s : State) : Io Unit := if bs = [] then .ok () s else outWrite bs s

/-! ### Fetching and executing a command -/

/-- The words from index `i` to `CMDLEN`, as many as the longest command has (30_encoding.md R112). -/
def cmdWindow (s : State) (i : Nat) : List Word :=
  (List.range (min maxWords (s.cmdLen.toNat - i))).map fun k => s.cmdWord (i + k)

/-- `Decode(i)` (30_encoding.md R112). -/
def fetch (s : State) (i : Nat) : Decoded := decode (cmdWindow s i)

/-- The new Image replaces the old one whole (10_state.md R32, 42_geometric.md R191), and `OPIDX` moves on. -/
def install (m : Image) (n : Nat) (s : State) : State := { s with img := m, opIdx := s.opIdx + n }

/-- Execute a command whose effect is a function of the Image (42_geometric.md R190, R191; 43_filters.md R220): on success
the result is installed and `OPIDX` advances by the command's length; on an error nothing is installed and the error is
raised with `OPIDX` at the command (60_exceptions.md R290, R291). A buffer that breaks R32 is a defect (log 12). -/
def runCommand (i : Instr) (f : Image → Except (Cause × Word) Image) (s : State) :
    Host.Outcome State Fault Refusal :=
  if s.img.wf then
    match f s.img with
    | .ok m => .next (install m i.words s)
    | .error (c, info) => .next (raise c info s)
  else .fault .pixOutOfRange

end Sys2Proof.Machine
end

