-- ==== Sys2Proof/Machine/Filters.lean ====
section
/-! DEFINITION. The Filter Engine (43_filters.md): channel isolation, grayscale, negative, pixelate, blur. Every new pixel is computed from the old Image, which is the snapshot of R236 (log 18). -/

namespace Sys2Proof.Machine

/-- `KEEPB`'s pixel (43_filters.md R222). -/
def keepBlue (p : Pixel) : Pixel := { b := p.b, g := 0, r := 0 }

/-- `KEEPR`'s pixel (43_filters.md R223). -/
def keepRed (p : Pixel) : Pixel := { b := 0, g := 0, r := p.r }

/-- `KEEPG`'s pixel (43_filters.md R224). -/
def keepGreen (p : Pixel) : Pixel := { b := 0, g := p.g, r := 0 }

/-- The default grayscale value, `(299·R + 587·G + 114·B) div 1000` (43_filters.md R226). -/
def exactLuma (p : Pixel) : Byte := BitVec.ofNat 8 ((299 * p.r.toNat + 587 * p.g.toNat + 114 * p.b.toNat) / 1000)

/-- The configuration's grayscale function: the listed value where the configuration lists one, else the exact one
(00_scope.md R11, 43_filters.md R226; log 3). -/
def luma (c : Config) (p : Pixel) : Byte :=
  match c.luma.find? (fun e => e.pixel = p) with
  | some e => e.value
  | none => exactLuma p

/-- `GRAY`'s pixel (43_filters.md R225). -/
def grayPixel (c : Config) (p : Pixel) : Pixel := { b := luma c p, g := luma c p, r := luma c p }

/-- `NEG`'s pixel (43_filters.md R227). -/
def negPixel (p : Pixel) : Pixel := { b := 255 - p.b, g := 255 - p.g, r := 255 - p.r }

/-- The truncated mean of a tile's channel (43_filters.md R228, R230). -/
def truncMean (sum count : Nat) : Nat := sum / count

/-- `rnd(sum, count)`: nearest integer, ties up (43_filters.md R238). -/
def rnd (sum count : Nat) : Nat := (2 * sum + count) / (2 * count)

/-- Each channel averaged on its own over a list of pixels (43_filters.md R228, R235; 45_arithmetic.md R278). The result is
at most 255 by construction (45_arithmetic.md R275). -/
def averagePixel (avg : Nat → Nat → Nat) (count : Nat) (ps : List Pixel) : Pixel where
  b := BitVec.ofNat 8 (avg (ps.map fun p => p.b.toNat).sum count)
  g := BitVec.ofNat 8 (avg (ps.map fun p => p.g.toNat).sum count)
  r := BitVec.ofNat 8 (avg (ps.map fun p => p.r.toNat).sum count)

/-- The mean of the tile whose top-left corner is `(tx, ty)`, clipped to the image (43_filters.md R228). -/
def tileMean (a : Nat) (m : Image) (tx ty : Nat) : Pixel :=
  averagePixel truncMean ((min (tx + a) m.w - tx) * (min (ty + a) m.h - ty))
    (m.rect tx ty (min (tx + a) m.w - tx) (min (ty + a) m.h - ty)).pix

/-- Every pixel takes the mean of its tile; the tile of `(x, y)` starts at the multiples of `a` (43_filters.md R228, R229). -/
def pixelateBy (a : Nat) (m : Image) : Image :=
  Image.build m.w m.h fun x y => tileMean a m (x / a * a) (y / a * a)

/-- `PIXELATE a` on an Image (43_filters.md R228): negative is an error, 0 a no-op. -/
def pixelate (a : Int) (m : Image) : Except (Cause × Word) Image :=
  if a < 0 then .error (.pixelateNeg, infoOfOperand a)
  else if a = 0 then .ok m
  else .ok (pixelateBy a.toNat m)

/-- The rounded mean over the window of half-width `half` around `(x, y)`, clipped to the image (43_filters.md R235,
R237). -/
def windowMean (half : Nat) (m : Image) (x y : Nat) : Pixel :=
  let x0 := x - half
  let x1 := min (m.w - 1) (x + half)
  let y0 := y - half
  let y1 := min (m.h - 1) (y + half)
  averagePixel rnd ((x1 - x0 + 1) * (y1 - y0 + 1)) (m.rect x0 y0 (x1 - x0 + 1) (y1 - y0 + 1)).pix

/-- The blur of the snapshot `m` with half-width `half` (43_filters.md R235, R236). -/
def blurBy (half : Nat) (m : Image) : Image := Image.build m.w m.h fun x y => windowMean half m x y

/-- `BLUR a` on an Image (43_filters.md R235). -/
def blur (a : Int) (m : Image) : Except (Cause × Word) Image :=
  if a < 0 then .error (.blurNeg, infoOfOperand a)
  else .ok (blurBy (halfKernel a.toNat) m)

/-- `KEEPB` (43_filters.md R222). -/
def execKeepb (s : State) : Host.Outcome State Fault Refusal := runCommand .keepb (fun m => .ok (m.mapPix keepBlue)) s

/-- `KEEPR` (43_filters.md R223). -/
def execKeepr (s : State) : Host.Outcome State Fault Refusal := runCommand .keepr (fun m => .ok (m.mapPix keepRed)) s

/-- `KEEPG` (43_filters.md R224). -/
def execKeepg (s : State) : Host.Outcome State Fault Refusal := runCommand .keepg (fun m => .ok (m.mapPix keepGreen)) s

/-- `GRAY` (43_filters.md R225). -/
def execGray (s : State) : Host.Outcome State Fault Refusal :=
  runCommand .gray (fun m => .ok (m.mapPix (grayPixel s.cfg))) s

/-- `NEG` (43_filters.md R227). -/
def execNeg (s : State) : Host.Outcome State Fault Refusal := runCommand .neg (fun m => .ok (m.mapPix negPixel)) s

/-- `PIXELATE a` (43_filters.md R228). -/
def execPixelate (a : Int) (s : State) : Host.Outcome State Fault Refusal := runCommand (.pixelate a) (pixelate a) s

/-- `BLUR a` (43_filters.md R235). -/
def execBlur (a : Int) (s : State) : Host.Outcome State Fault Refusal := runCommand (.blur a) (blur a) s

end Sys2Proof.Machine
end

