-- ==== Sys2Proof/Machine/Geometric.lean ====
section
/-! DEFINITION. The Geometric Transform Engine (42_geometric.md): rotations, mirrors, crops. Each output is built pixel by pixel from the old Image (the gather form of R212), so no pixel is read after it was overwritten (log 18). -/

namespace Sys2Proof.Machine

/-- `((angle mod 360) + 360) mod 360` with the truncated remainder (42_geometric.md R192, 45_arithmetic.md R274). -/
def normalAngle (angle : Int) : Int := Int.tmod (Int.tmod angle 360 + 360) 360

/-- A clockwise quarter turn: `P'[Y·W' + X] = P[(H−1−X)·W + Y]` (42_geometric.md R212). -/
def quarterTurn (m : Image) : Image := Image.build m.h m.w fun x y => m.get y (m.h - 1 - x)

/-- A half turn: `P'[Y·W' + X] = P[(H−1−Y)·W + (W−1−X)]` (42_geometric.md R212). -/
def halfTurn (m : Image) : Image := Image.build m.w m.h fun x y => m.get (m.w - 1 - x) (m.h - 1 - y)

/-- Three clockwise quarter turns: `P'[Y·W' + X] = P[X·W + (W−1−Y)]` (42_geometric.md R212). -/
def threeQuarterTurn (m : Image) : Image := Image.build m.h m.w fun x y => m.get (m.w - 1 - y) x

/-- `Rotate(angle, ·)` (42_geometric.md R193, R200): no result for an angle that is no multiple of 90 (R202). -/
def rotate (angle : Int) (m : Image) : Option Image :=
  if normalAngle angle = 0 then some (Image.build m.w m.h fun x y => m.get x y)
  else if normalAngle angle = 90 then some (quarterTurn m)
  else if normalAngle angle = 180 then some (halfTurn m)
  else if normalAngle angle = 270 then some (threeQuarterTurn m)
  else none

/-- Execute a rotate command of the given angle; an angle without a mapping is refused (42_geometric.md R202). -/
def runRotate (i : Instr) (angle : Int) (s : State) : Host.Outcome State Fault Refusal :=
  match rotate angle s.img with
  | some m => runCommand i (fun _ => .ok m) s
  | none => .refused (.angleNotQuarterTurn angle)

/-- `ROT90` (42_geometric.md R194). -/
def execRot90 (s : State) : Host.Outcome State Fault Refusal := runRotate .rot90 90 s

/-- `ROT180` (42_geometric.md R195). -/
def execRot180 (s : State) : Host.Outcome State Fault Refusal := runRotate .rot180 180 s

/-- `ROT270` (42_geometric.md R196). -/
def execRot270 (s : State) : Host.Outcome State Fault Refusal := runRotate .rot270 270 s

/-- `ROTM90`: `Rotate(−90, ·)` (42_geometric.md R197). -/
def execRotm90 (s : State) : Host.Outcome State Fault Refusal := runRotate .rotm90 (-90) s

/-- `ROTM180`: `Rotate(−180, ·)` (42_geometric.md R198). -/
def execRotm180 (s : State) : Host.Outcome State Fault Refusal := runRotate .rotm180 (-180) s

/-- `ROTM270`: `Rotate(−270, ·)` (42_geometric.md R199). -/
def execRotm270 (s : State) : Host.Outcome State Fault Refusal := runRotate .rotm270 (-270) s

/-- Each row reversed: `P'[y·W + x] = P[y·W + (W−1−x)]` (42_geometric.md R203). -/
def mirrorColumns (m : Image) : Image := Image.build m.w m.h fun x y => m.get (m.w - 1 - x) y

/-- The rows in reverse order: `P'[y·W + x] = P[(H−1−y)·W + x]` (42_geometric.md R204). -/
def mirrorRows (m : Image) : Image := Image.build m.w m.h fun x y => m.get x (m.h - 1 - y)

/-- `MIRH` (42_geometric.md R203). -/
def execMirh (s : State) : Host.Outcome State Fault Refusal := runCommand .mirh (fun m => .ok (mirrorColumns m)) s

/-- `MIRV` (42_geometric.md R204). -/
def execMirv (s : State) : Host.Outcome State Fault Refusal := runCommand .mirv (fun m => .ok (mirrorRows m)) s

/-- The size checks of an explicit crop size, in the order of 42_geometric.md R206, then the copy of R209. The offsets
have passed their checks. -/
def cropSized (ox oy cw ch : Int) (m : Image) : Except (Cause × Word) Image :=
  if cw ≤ 0 then .error (.cropWidthNonpos, infoOfOperand cw)
  else if ch ≤ 0 then .error (.cropHeightNonpos, infoOfOperand ch)
  else if ox + cw > m.w then .error (.cropXExtent, infoOfOperand cw)
  else if oy + ch > m.h then .error (.cropYExtent, infoOfOperand ch)
  else .ok (m.rect ox.toNat oy.toNat cw.toNat ch.toNat)

/-- `Crop(ox, oy, cw?, ch?, ·)` (42_geometric.md R206): the offset checks, then the given size or the rest of the image. -/
def crop (ox oy : Int) (size : Option (Int × Int)) (m : Image) : Except (Cause × Word) Image :=
  if ox < 0 ∨ ox ≥ m.w then .error (.cropOffsetX, infoOfOperand ox)
  else if oy < 0 ∨ oy ≥ m.h then .error (.cropOffsetY, infoOfOperand oy)
  else
    match size with
    | none => .ok (m.rect ox.toNat oy.toNat (m.w - ox.toNat) (m.h - oy.toNat))
    | some (cw, ch) => cropSized ox oy cw ch m

/-- `CROP2 a b` (42_geometric.md R207). -/
def execCrop2 (a b : Int) (s : State) : Host.Outcome State Fault Refusal :=
  runCommand (.crop2 a b) (crop a b none) s

/-- `CROP4 a b c d` (42_geometric.md R208). -/
def execCrop4 (a b c d : Int) (s : State) : Host.Outcome State Fault Refusal :=
  runCommand (.crop4 a b c d) (crop a b (some (c, d))) s

end Sys2Proof.Machine
end

