-- ==== Sys2Proof/Machine/Dispatch.lean ====
section
/-! DEFINITION. One arm per command: each command's own meaning (30_encoding.md R105). -/

namespace Sys2Proof.Machine

def exec (i : Instr) (s : State) : Host.Outcome State Fault Refusal :=
  match i with
  | .keepb => Sys2Proof.Machine.execKeepb s
  | .keepr => Sys2Proof.Machine.execKeepr s
  | .keepg => Sys2Proof.Machine.execKeepg s
  | .gray => Sys2Proof.Machine.execGray s
  | .neg => Sys2Proof.Machine.execNeg s
  | .pixelate a => Sys2Proof.Machine.execPixelate a s
  | .blur a => Sys2Proof.Machine.execBlur a s
  | .rot90 => Sys2Proof.Machine.execRot90 s
  | .rot180 => Sys2Proof.Machine.execRot180 s
  | .rot270 => Sys2Proof.Machine.execRot270 s
  | .rotm90 => Sys2Proof.Machine.execRotm90 s
  | .rotm180 => Sys2Proof.Machine.execRotm180 s
  | .rotm270 => Sys2Proof.Machine.execRotm270 s
  | .mirh => Sys2Proof.Machine.execMirh s
  | .mirv => Sys2Proof.Machine.execMirv s
  | .crop2 a b => Sys2Proof.Machine.execCrop2 a b s
  | .crop4 a b c d => Sys2Proof.Machine.execCrop4 a b c d s

end Sys2Proof.Machine
end

