-- ==== Sys2Proof/Machine/HeaderCodec.lean ====
section
/-! DEFINITION. The Header Codec: decodeHeader (40_header_codec.md R143) and encodeHeader (R155). -/

namespace Sys2Proof.Machine

/-- `HDR.FHSIZE`, hardwired (10_state.md R23). -/
def fhSize : Nat := 14

/-- `pixelDataOffset = 14 + 40 = 54`, computed and never taken from the file (41_pixel_codec.md R172, 40 R160). -/
def pixelDataOffset : Nat := fhSize + 40

/-- A check of the decoder: go on, or raise a FormatError (40_header_codec.md R143). -/
def check (bad : Prop) [Decidable bad] (c : Cause) (info : Word) (s : State) : Io Unit :=
  if bad then .stop (raise c info s) else .ok () s

/-- The signature: two bytes compared in stream order (40_header_codec.md R144). -/
def readSignature (s : State) : Io Unit :=
  (inRead 2 s).bind fun bs s =>
    let s := { s with hdr := { s.hdr with sig := le16 bs } }
    check (bs ≠ [0x42, 0x4D]) .badSignature (s.hdr.sig.setWidth 32) s

/-- `fileSize` stored unchecked, the reserved bytes and `pixelDataOffset` discarded (40_header_codec.md R145). -/
def readFileFields (s : State) : Io Unit :=
  (inRead 4 s).bind fun bs s =>
    let s := { s with hdr := { s.hdr with fileSize := le32 bs } }
    (inRead 4 s).bind fun _ s => (inRead 4 s).bind fun _ s => .ok () s

/-- `dibHeaderSize`, checked as soon as it is read (40_header_codec.md R146). -/
def readDibSize (s : State) : Io Unit :=
  (inRead 4 s).bind fun bs s =>
    let s := { s with hdr := { s.hdr with dibSize := le32 bs } }
    check (s.hdr.dibSize ≠ 40) .badDibSize s.hdr.dibSize s

/-- Width and height, no check at this point (40_header_codec.md R147). -/
def readDimensions (s : State) : Io Unit :=
  (inRead 4 s).bind fun bs s =>
    let s := { s with hdr := { s.hdr with width := le32 bs } }
    (inRead 4 s).bind fun bs s => .ok () { s with hdr := { s.hdr with height := le32 bs } }

/-- `planes` discarded, then the bit depth (40_header_codec.md R149). -/
def readBitDepth (s : State) : Io Unit :=
  (inRead 2 s).bind fun _ s => (inRead 2 s).bind fun bs s =>
    let s := { s with hdr := { s.hdr with bpp := le16 bs } }
    check (s.hdr.bpp ≠ 24) .badBitDepth (s.hdr.bpp.setWidth 32) s

/-- The compression field; any value but 0 is refused (40_header_codec.md R150, 90_conflicts.md C1). -/
def readCompression (s : State) : Io Unit :=
  (inRead 4 s).bind fun bs s => check (le32 bs ≠ 0) .compressed (le32 bs) s

/-- `imageSize` stored unchecked, the last 16 bytes consumed and discarded (40_header_codec.md R151). -/
def readImageSize (s : State) : Io Unit :=
  (inRead 4 s).bind fun bs s =>
    let s := { s with hdr := { s.hdr with imgSize := le32 bs } }
    (inRead 16 s).bind fun _ s => .ok () s

/-- Is a dimension pair refused (40_header_codec.md R148)? The product is computed in `int`. -/
abbrev badDimensions (c : Config) (h : Header) : Prop :=
  h.width.toInt < 0 ∨ h.height.toInt < 0 ∨ h.width.toInt > c.maxDim ∨ h.height.toInt > c.maxDim ∨
    h.width.toInt * h.height.toInt > c.maxPixels

/-- The dimension check, made last (40_header_codec.md R148). -/
def checkDimensions (s : State) : Io Unit := check (badDimensions s.cfg s.hdr) .badDimensions 0 s

/-- decodeHeader (40_header_codec.md R143): the fields strictly in order, the first error ends the run. -/
def decodeHeader (s : State) : State :=
  ((readSignature s).bind fun _ s =>
    (readFileFields s).bind fun _ s =>
    (readDibSize s).bind fun _ s =>
    (readDimensions s).bind fun _ s =>
    (readBitDepth s).bind fun _ s =>
    (readCompression s).bind fun _ s =>
    (readImageSize s).bind fun _ s => checkDimensions s).finish (enter .decPix)

/-- `rowStride = ((w·3 + 3) div 4) · 4` (40_header_codec.md R157). -/
def strideOf (w : Nat) : Nat := (w * 3 + 3) / 4 * 4

/-- The Header with the size fields encodeHeader computes (40_header_codec.md R155, R158, R160): `HDR.IMGSIZE` the larger
of the declared and the computed size, `HDR.FILESIZE` that plus 54, modulo 2^32. -/
def sizedHeader (h : Header) : Header :=
  let size := max h.imgSize.toNat (strideOf h.width.toNat * h.height.toNat)
  { h with imgSize := BitVec.ofNat 32 size, fileSize := BitVec.ofNat 32 (54 + size) }

/-- The 54 bytes emitted for a Header (40_header_codec.md R155, R156; 20_memory.md R76). -/
def headerBytes (h : Header) : List Byte :=
  [0x42, 0x4D] ++ toLe 4 h.fileSize.toNat ++ List.replicate 4 0 ++ toLe 4 pixelDataOffset ++ toLe 4 40 ++
    toLe 4 h.width.toNat ++ toLe 4 h.height.toNat ++ toLe 2 1 ++ toLe 2 24 ++ toLe 4 0 ++
    toLe 4 h.imgSize.toNat ++ List.replicate 16 0

/-- Are both dimensions of the Header non-negative, as every rule that uses them as sizes needs (45_arithmetic.md R272)? -/
abbrev Header.sizesNonneg (h : Header) : Prop := 0 ≤ h.width.toInt ∧ 0 ≤ h.height.toInt

/-- encodeHeader (40_header_codec.md R155). A negative dimension never reaches it; it is a defect (log 12). -/
def encodeHeader (s : State) : Host.Outcome State Fault Refusal :=
  if s.hdr.sizesNonneg then
    let s := { s with hdr := sizedHeader s.hdr }
    .next ((outWrite (headerBytes s.hdr) s).finish (enter .encPix))
  else .fault .negativeSize

end Sys2Proof.Machine
end

