-- ==== Sys2Proof/Machine/PixelCodec.lean ====
section
/-! DEFINITION. The Pixel Buffer Codec: decodePixels (41_pixel_codec.md R173) and encodePixels (R178). -/

namespace Sys2Proof.Machine

/-- `rowStride = ((bitsPerPixel·width + 31) div 32) · 4` (41_pixel_codec.md R171). -/
def strideBits (bpp w : Nat) : Nat := (bpp * w + 31) / 32 * 4

/-- Read `n` rows of `stride` bytes, in file order (41_pixel_codec.md R173, R174). -/
def readRows (stride : Nat) : Nat → State → Io (List (List Byte))
  | 0, s => .ok [] s
  | n + 1, s =>
    (inRead stride s).bind fun row s =>
      (readRows stride n s).bind fun rows s => .ok (row :: rows) s

/-- The `w` pixels at the front of a row; the padding after them is ignored (41_pixel_codec.md R174, R175). -/
def rowPixels (w : Nat) (row : List Byte) : List Pixel :=
  (List.range w).map fun x =>
    { b := row.getD (3 * x) 0, g := row.getD (3 * x + 1) 0, r := row.getD (3 * x + 2) 0 }

/-- The image of rows given in file order: file row `r` is memory row `h − 1 − r` (41_pixel_codec.md R174). -/
def imageOfRows (w h : Nat) (rows : List (List Byte)) : Image where
  w   := w
  h   := h
  pix := (rows.reverse.map (rowPixels w)).flatten

/-- The seek and the rows of decodePixels; the Image is installed only when all rows have been read (41_pixel_codec.md
R173, R176). -/
def readImage (w h stride : Nat) (s : State) : Io Unit :=
  (inSeek pixelDataOffset s).bind fun _ s =>
    (readRows stride h s).bind fun rows s => .ok () { s with img := imageOfRows w h rows }

/-- decodePixels (41_pixel_codec.md R173). A negative dimension, or a row too short for its pixels, is a defect (log 12). -/
def decodePixels (s : State) : Host.Outcome State Fault Refusal :=
  if s.hdr.sizesNonneg then
    let w := s.hdr.width.toNat
    let h := s.hdr.height.toNat
    let stride := strideBits s.hdr.bpp.toNat w
    if stride < 3 * w then .fault .rowTooShort
    else .next ((readImage w h stride s).finish (enter .crop))
  else .fault .negativeSize

/-- The bytes of memory row `y`: B, G, R of each pixel, then zero padding up to the stride (41_pixel_codec.md R178,
R180). -/
def rowBytes (m : Image) (w stride y : Nat) : List Byte :=
  ((List.range w).flatMap fun x =>
    let p := m.pix.getD (y * w + x) default
    [p.b, p.g, p.r]) ++ List.replicate (stride - 3 * w) 0

/-- Write rows `n−1` down to 0 (41_pixel_codec.md R178, R180). Rows of width 0 are no bytes and no write (R184 (a), log
25). -/
def writeRows (m : Image) (w stride : Nat) : Nat → State → Io Unit
  | 0, s => .ok () s
  | n + 1, s => (writeSome (rowBytes m w stride n) s).bind fun _ s => writeRows m w stride n s

/-- The trailing padding, `HDR.IMGSIZE − rowStride·h` zero bytes when that is positive (41_pixel_codec.md R178, R181). -/
def writeTrailer (extra : Nat) (s : State) : Io Unit :=
  writeSome (List.replicate extra 0) s

/-- encodePixels (41_pixel_codec.md R178). A negative dimension, or a buffer that lacks a pixel of `w·h`, is a defect
(log 12). -/
def encodePixels (s : State) : Host.Outcome State Fault Refusal :=
  if s.hdr.sizesNonneg then
    let w := s.hdr.width.toNat
    let h := s.hdr.height.toNat
    let stride := strideBits 24 w
    if s.img.pix.length < w * h then .fault .pixOutOfRange
    else
      .next (((writeRows s.img w stride h s).bind fun _ s =>
        writeTrailer (s.hdr.imgSize.toNat - stride * h) s).finish (enter .done))
  else .fault .negativeSize

end Sys2Proof.Machine
end

