-- ==== Sys2Proof/Machine/Sequencer.lean ====
section
/-! DEFINITION. The Apply Pipeline's control: VALIDATE (44_pipeline.md R253), the executing phases (R257), RESYNC (R262), one step of the core (R266). -/

namespace Sys2Proof.Machine

/-- The validation walk from word `i` (44_pipeline.md R253): the first offending command and its cause, or none. `fuel` is
at least the number of words left; each command takes at least one (R259). -/
def scan (s : State) : Nat → Nat → Option (Cause × Nat)
  | 0, _ => none
  | fuel + 1, i =>
    if i < s.cmdLen.toNat then
      match fetch s i with
      | .command c _ => scan s fuel (i + c.words)
      | .illegal => some (.unknownToken, i)
      | .truncated => some (.truncatedCommand, i)
    else none

/-- Phase `VALIDATE`, whole (44_pipeline.md R253): `OPIDX` is at the offending command when it raises. -/
def validateList (s : State) : State :=
  if s.cmdLen = 0 then raise .emptyList 0 s
  else
    match scan s s.cmdLen.toNat 0 with
    | some (c, i) => raise c (infoOfNat i) { s with opIdx := i }
    | none => enter .decHdr s

/-- One step of an executing phase (44_pipeline.md R257): at the end of the list the phase is left; a command of the
phase's class is executed; any other is skipped. A word that does not decode is a defect (log 12). -/
def walkStep (c : CmdClass) (nextPhase : Phase) (s : State) : Host.Outcome State Fault Refusal :=
  if s.opIdx < s.cmdLen.toNat then
    match fetch s s.opIdx with
    | .command i _ => if i.cls = c then exec i s else .next (skip i.words s)
    | .illegal => .fault .undecodable
    | .truncated => .fault .undecodable
  else .next (enter nextPhase s)

/-- Phase `RESYNC` (44_pipeline.md R262): the Header's width and height follow the Image; nothing else. -/
def resync (s : State) : State :=
  enter .filter
    { s with hdr := { s.hdr with width := BitVec.ofNat 32 s.img.w, height := BitVec.ofNat 32 s.img.h } }

/-- One step of the core (44_pipeline.md R266, 10_state.md R33). In `IDLE`, `DONE` and `ERROR`, and after a call that never
returns, nothing happens (log 11, log 5). -/
def coreStep (s : State) : Host.Outcome State Fault Refusal :=
  if s.stalled then .next s
  else
    match s.phase with
    | .idle => .next s
    | .validate => .next (validateList s)
    | .decHdr => .next (decodeHeader s)
    | .decPix => decodePixels s
    | .crop => walkStep .crop .mirror s
    | .mirror => walkStep .mirror .rotate s
    | .rotate => walkStep .rotate .resync s
    | .resync => .next (resync s)
    | .filter => walkStep .filter .encHdr s
    | .encHdr => encodeHeader s
    | .encPix => encodePixels s
    | .done => .next s
    | .error => .next s

/-- The executing phase of a class (30_encoding.md R113). -/
def phaseOf : CmdClass → Phase
  | .crop => .crop
  | .mirror => .mirror
  | .rotate => .rotate
  | .filter => .filter

/-- The words of one table row as the whole program, the sequencer at its first word in the phase that executes it, no
host move pending (log 15). Words that decode to no command are left to `VALIDATE`, which reports them. -/
def loadProgram (s : State) (nbits w : Nat) : State :=
  let ws := tableWords nbits w
  let (phase, len) : Phase × Nat :=
    match decode ws with
    | .command i _ => (phaseOf i.cls, i.words)
    | .illegal => (.validate, 1)
    | .truncated => (.validate, 1)
  { s with
    cmd := s.cmd.writeAll 0 (ws.take len), cmdLen := BitVec.ofNat 32 len, opIdx := 0, phase := phase,
    host := [], stalled := false }

end Sys2Proof.Machine
end

