-- ==== Sys2Proof/Machine/HostPort.lean ====
section
/-! DEFINITION. The register block the host sees (10_state.md R36, R37), START and RESET (44_pipeline.md R250, 70_reset_and_hazards.md R320), and one step of the machine: the host's next move, or the core's. -/

namespace Sys2Proof.Machine

/-- The registers of 10_state.md R36. -/
inductive HostReg where
  | ctrl
  | status
  | errKind
  | errCause
  | errInfo
  | cmdLen
  | opIdx
  | hdrSig
  | hdrFileSize
  | hdrFhSize
  | hdrDibSize
  | hdrWidth
  | hdrHeight
  | hdrBpp
  | hdrImgSize
  | imgW
  | imgH
  | ipos
  | olen
  | pixAddr
  | pixData
  | cmd (i : Nat)
  deriving DecidableEq, Repr

/-- The register of the command memory at an offset: `0x1000 + 4·i`, `0 ≤ i < CMD_CAP` (10_state.md R36). -/
def cmdRegAt (cap off : Nat) : Option HostReg :=
  if 0x1000 ≤ off ∧ off % 4 = 0 ∧ (off - 0x1000) / 4 < cap then some (.cmd ((off - 0x1000) / 4)) else none

/-- The register at a byte offset, or none for an unlisted or unaligned one (10_state.md R36, 93 U26; log 14). -/
def regAt (cap off : Nat) : Option HostReg :=
  match off with
  | 0x00 => some .ctrl
  | 0x04 => some .status
  | 0x08 => some .errKind
  | 0x0C => some .errCause
  | 0x10 => some .errInfo
  | 0x14 => some .cmdLen
  | 0x18 => some .opIdx
  | 0x20 => some .hdrSig
  | 0x24 => some .hdrFileSize
  | 0x28 => some .hdrFhSize
  | 0x2C => some .hdrDibSize
  | 0x30 => some .hdrWidth
  | 0x34 => some .hdrHeight
  | 0x38 => some .hdrBpp
  | 0x3C => some .hdrImgSize
  | 0x40 => some .imgW
  | 0x44 => some .imgH
  | 0x48 => some .ipos
  | 0x4C => some .olen
  | 0x50 => some .pixAddr
  | 0x54 => some .pixData
  | _ => cmdRegAt cap off

/-- `PIXDATA` (10_state.md R36): the pixel at `PIXADDR`, B lowest, when it is inside the image and `BUSY = 0`; else 0. -/
def pixDataWord (s : State) : Word :=
  if s.pixAddr.toNat < s.img.w * s.img.h ∧ s.busy = false then
    let p := s.img.pix.getD s.pixAddr.toNat default
    0#8 ++ p.r ++ p.g ++ p.b
  else 0

/-- What a register holds, as the 32-bit word the host reads (10_state.md R36). -/
def regValue (s : State) : HostReg → Word
  | .ctrl => 0
  | .status => s.status
  | .errKind => s.errKind.setWidth 32
  | .errCause => s.errCause.setWidth 32
  | .errInfo => s.errInfo
  | .cmdLen => s.cmdLen
  | .opIdx => BitVec.ofNat 32 s.opIdx
  | .hdrSig => s.hdr.sig.setWidth 32
  | .hdrFileSize => s.hdr.fileSize
  | .hdrFhSize => BitVec.ofNat 32 fhSize
  | .hdrDibSize => s.hdr.dibSize
  | .hdrWidth => s.hdr.width
  | .hdrHeight => s.hdr.height
  | .hdrBpp => s.hdr.bpp.setWidth 32
  | .hdrImgSize => s.hdr.imgSize
  | .imgW => BitVec.ofNat 32 s.img.w
  | .imgH => BitVec.ofNat 32 s.img.h
  | .ipos => BitVec.ofNat 32 s.ipos
  | .olen => BitVec.ofNat 32 s.olen
  | .pixAddr => s.pixAddr
  | .pixData => pixDataWord s
  | .cmd i => s.cmdWord i

/-- The registers whose value the spec does not fix while `BUSY = 1` (10_state.md R37, 93 U23; log 7). `HDR_FHSIZE` is
hardwired and `PIXDATA` is given as 0 then (R36), so they are not among them. -/
def HostReg.inFlight : HostReg → Bool
  | .ctrl => false
  | .status => false
  | .errKind => false
  | .errCause => false
  | .errInfo => false
  | .cmdLen => false
  | .opIdx => true
  | .hdrSig => true
  | .hdrFileSize => true
  | .hdrFhSize => false
  | .hdrDibSize => true
  | .hdrWidth => true
  | .hdrHeight => true
  | .hdrBpp => true
  | .hdrImgSize => true
  | .imgW => true
  | .imgH => true
  | .ipos => true
  | .olen => true
  | .pixAddr => false
  | .pixData => false
  | .cmd _ => false

/-- Does the spec leave open what a read returns? A register in flight while `BUSY = 1` (93 U23), or a word of `CMD` at an
index that is not below `CMDLEN` (93 U21: "A host read returns an unconstrained word"; log 7). -/
def readIsFree (s : State) (r : HostReg) : Bool :=
  match r with
  | .cmd i => s.cmdLen.toNat ≤ i
  | r => r.inFlight && s.busy

/-- A host read (10_state.md R36, R37): always allowed, no side effect on the core. `rdata` takes the register's value, 0
at an unlisted offset, or a free value where the spec leaves it open. -/
def hostRead (off : Nat) (s : State) : State :=
  match regAt s.cfg.cmdCap off with
  | none => { s with rdata := 0 }
  | some r =>
    if readIsFree s r then { s with rdata := Config.freeRead s.fresh, fresh := s.fresh + 1 }
    else { s with rdata := regValue s r }

/-- A write of `CTRL` (10_state.md R36): `RESET` wins over `START`; START is honoured in `IDLE` and `DONE` only
(44_pipeline.md R250). -/
def writeCtrl (v : Word) (s : State) : State :=
  if v.getLsbD 1 then resetCore s
  else if v.getLsbD 0 ∧ (s.phase = .idle ∨ s.phase = .done) then startRun s
  else s

/-- `CMDLEN` takes the value written, at most `CMD_CAP` (10_state.md R36, 93 U25). -/
def clampLen (cap : Nat) (v : Word) : Word := BitVec.ofNat 32 (min v.toNat cap)

/-- A host write (10_state.md R36, R37): `CMDLEN`, `PIXADDR` and `CMD` only while `BUSY = 0`; read-only and unlisted
registers ignore it (93 U24, U26). -/
def hostWrite (off : Nat) (v : Word) (s : State) : State :=
  match regAt s.cfg.cmdCap off with
  | some .ctrl => writeCtrl v s
  | some .cmdLen => if s.busy then s else { s with cmdLen := clampLen s.cfg.cmdCap v }
  | some .pixAddr => if s.busy then s else { s with pixAddr := v }
  | some (.cmd i) => if s.busy then s else { s with cmd := s.cmd.write i v }
  | _ => s

/-- Perform one move of the schedule on a state it has been taken from (log 8). -/
def hostStep (m : HostMove) (s : State) : Host.Outcome State Fault Refusal :=
  match m with
  | .tick => coreStep s
  | .write off v => .next (hostWrite off v s)
  | .read off => .next (hostRead off s)
  | .resetPin => .next (resetCore s)

/-- One step of the machine: the schedule's next move; with an empty schedule the core steps (log 8). -/
def machineStep (s : State) : Host.Outcome State Fault Refusal :=
  match s.host with
  | [] => coreStep s
  | m :: rest => hostStep m { s with host := rest }

end Sys2Proof.Machine
end

