-- ==== Sys2Proof/Machine/Step.lean ====
section
/-! DEFINITION. One step, and the placing of an instruction where the step fetches it. -/

namespace Sys2Proof.Machine

/-- One step of the machine. -/
def step (s : State) : Host.Outcome State Fault Refusal := machineStep s

/-- The state with a table row's instruction placed so that the next step fetches and executes it (log 15). -/
def State.withFetchWord (s : State) (nbits w : Nat) : State := loadProgram s nbits w

end Sys2Proof.Machine
end

