-- ==== Sys2Proof/Machine/RunFunction.lean ====
section
/-! DEFINITION. The run as one function (44_pipeline.md R265), for a collaborator that never fails and an unbounded sink: the reference the phase machine is compared with. The header is read by the offsets of 20_memory.md R76, not by a running position. -/

namespace Sys2Proof.Machine

/-- What each command does to the Image (42_geometric.md, 43_filters.md). -/
def effect (c : Config) : Instr → Image → Except (Cause × Word) Image
  | .keepb, m => .ok (m.mapPix keepBlue)
  | .keepr, m => .ok (m.mapPix keepRed)
  | .keepg, m => .ok (m.mapPix keepGreen)
  | .gray, m => .ok (m.mapPix (grayPixel c))
  | .neg, m => .ok (m.mapPix negPixel)
  | .pixelate a, m => pixelate a m
  | .blur a, m => blur a m
  | .rot90, m => .ok (quarterTurn m)
  | .rot180, m => .ok (halfTurn m)
  | .rot270, m => .ok (threeQuarterTurn m)
  | .rotm90, m => .ok (threeQuarterTurn m)
  | .rotm180, m => .ok (halfTurn m)
  | .rotm270, m => .ok (quarterTurn m)
  | .mirh, m => .ok (mirrorColumns m)
  | .mirv, m => .ok (mirrorRows m)
  | .crop2 a b, m => crop a b none m
  | .crop4 a b c d, m => crop a b (some (c, d)) m

/-- Execute a list of commands in order, each on the output of the one before; the first error ends it. -/
def applyAll (c : Config) : List Instr → Image → Except (Cause × Word) Image
  | [], m => .ok m
  | i :: is, m =>
    match effect c i m with
    | .ok m' => applyAll c is m'
    | .error e => .error e

/-- The commands of one class, in list order (44_pipeline.md R256). -/
def ofClass (k : CmdClass) (is : List Instr) : List Instr := is.filter (fun i => i.cls = k)

/-- The canonical order before RESYNC: crops, mirrors, rotations (44_pipeline.md R256). -/
def geometricPart (is : List Instr) : List Instr := ofClass .crop is ++ ofClass .mirror is ++ ofClass .rotate is

/-- The field of `n` bytes at offset `off` of the file (20_memory.md R76). -/
def field (inp : List Byte) (off n : Nat) : List Byte := (inp.drop off).take n

/-- The Header a complete 54-byte header holds (20_memory.md R76, 40_header_codec.md R143). -/
def headerFields (inp : List Byte) : Header where
  sig      := le16 (field inp 0 2)
  fileSize := le32 (field inp 2 4)
  dibSize  := le32 (field inp 14 4)
  width    := le32 (field inp 18 4)
  height   := le32 (field inp 22 4)
  bpp      := le16 (field inp 28 2)
  imgSize  := le32 (field inp 34 4)

/-- decodeHeader as a function of the file (40_header_codec.md R143, R152). A read that is short reports its position. -/
def headerOf (c : Config) (inp : List Byte) : Except (Cause × Word) Header :=
  let h := headerFields inp
  let n := inp.length
  if n < 2 then .error (.shortRead, 0)
  else if field inp 0 2 ≠ [0x42, 0x4D] then .error (.badSignature, h.sig.setWidth 32)
  else if n < 6 then .error (.shortRead, 2)
  else if n < 10 then .error (.shortRead, 6)
  else if n < 14 then .error (.shortRead, 10)
  else if n < 18 then .error (.shortRead, 14)
  else if h.dibSize ≠ 40 then .error (.badDibSize, h.dibSize)
  else if n < 22 then .error (.shortRead, 18)
  else if n < 26 then .error (.shortRead, 22)
  else if n < 28 then .error (.shortRead, 26)
  else if n < 30 then .error (.shortRead, 28)
  else if h.bpp ≠ 24 then .error (.badBitDepth, h.bpp.setWidth 32)
  else if n < 34 then .error (.shortRead, 30)
  else if le32 (field inp 30 4) ≠ 0 then .error (.compressed, le32 (field inp 30 4))
  else if n < 38 then .error (.shortRead, 34)
  else if n < 54 then .error (.shortRead, 38)
  else if badDimensions c h then .error (.badDimensions, 0)
  else .ok h

/-- The Header after decodeHeader has read the first `k` bytes of the file: a register holds its field where the field's
bytes have been read, and what it held before otherwise (40_header_codec.md R143, R144, R153 (c)). -/
def headerUpTo (old : Header) (inp : List Byte) (k : Nat) : Header where
  sig      := if 2 ≤ k then (headerFields inp).sig else old.sig
  fileSize := if 6 ≤ k then (headerFields inp).fileSize else old.fileSize
  dibSize  := if 18 ≤ k then (headerFields inp).dibSize else old.dibSize
  width    := if 22 ≤ k then (headerFields inp).width else old.width
  height   := if 26 ≤ k then (headerFields inp).height else old.height
  bpp      := if 30 ≤ k then (headerFields inp).bpp else old.bpp
  imgSize  := if 38 ≤ k then (headerFields inp).imgSize else old.imgSize

/-- `IPOS` where decodeHeader stops with an error: a short read leaves it, so it is the position reported (20_memory.md
R68); a check stands after the bytes it looks at (40_header_codec.md R143 to R150). -/
def stopAt (c : Cause) (info : Word) : Nat :=
  match c with
  | .shortRead => info.toNat
  | .badSignature => 2
  | .badDibSize => 18
  | .badBitDepth => 30
  | .compressed => 34
  | _ => 54

/-- The pixel at column `x` of file row `r`, at offset `54 + r·stride + 3·x` (20_memory.md R77). -/
def filePixel (inp : List Byte) (stride r x : Nat) : Pixel where
  b := inp.getD (54 + r * stride + 3 * x) 0
  g := inp.getD (54 + r * stride + 3 * x + 1) 0
  r := inp.getD (54 + r * stride + 3 * x + 2) 0

/-- decodePixels as a function of the file and the Header (41_pixel_codec.md R173, R177 (e)): all rows, or the position of
the first row that is short. -/
def imageOf (inp : List Byte) (h : Header) : Except (Cause × Word) Image :=
  let w := h.width.toNat
  let ht := h.height.toNat
  let stride := strideOf w
  if inp.length < 54 + stride * ht then
    .error (.shortRead, infoOfNat (54 + (inp.length - 54) / stride * stride))
  else .ok (Image.build w ht fun x y => filePixel inp stride (ht - 1 - y) x)

/-- The bytes of the rows and the trailing padding (41_pixel_codec.md R178). -/
def pixelBytes (h : Header) (m : Image) : List Byte :=
  ((List.range m.h).reverse.flatMap fun y => rowBytes m m.w (strideOf m.w) y) ++
    List.replicate (h.imgSize.toNat - strideOf m.w * m.h) 0

/-- The file a run writes for a Header and an Image (44_pipeline.md R264, 41_pixel_codec.md R182). -/
def fileBytes (h : Header) (m : Image) : List Byte := headerBytes h ++ pixelBytes h m

/-- A finished run: the Header and Image it ends with and the bytes it wrote. -/
structure RunResult where
  hdr : Header
  img : Image
  out : List Byte
  deriving DecidableEq, Repr

/-- `Run(IN, commands)` after validation (44_pipeline.md R265). -/
def runFunction (c : Config) (inp : List Byte) (is : List Instr) : Except (Cause × Word) RunResult :=
  match headerOf c inp with
  | .error e => .error e
  | .ok h =>
    match imageOf inp h with
    | .error e => .error e
    | .ok m =>
      match applyAll c (geometricPart is) m with
      | .error e => .error e
      | .ok m1 =>
        match applyAll c (ofClass .filter is) m1 with
        | .error e => .error e
        | .ok m2 =>
          let h2 := sizedHeader { h with width := BitVec.ofNat 32 m1.w, height := BitVec.ofNat 32 m1.h }
          .ok { hdr := h2, img := m2, out := fileBytes h2 m2 }

end Sys2Proof.Machine
end

