-- ==== Sys2Proof/Safety.lean ====
section
/-! DEFINITION. What counts as a safe state and a safe run: the invariant of the machine (10_state.md R29 to R34, R38 to R40; 44_pipeline.md R258, R264), and the terms the statements use. -/

namespace Sys2Proof.Machine

/-- The next state, if a step gives one. -/
def nextOf : Host.Outcome State Fault Refusal → Option State
  | .next s => some s
  | .fault _ => none
  | .refused _ => none

/-- The four executing phases (44_pipeline.md R257). -/
def Phase.walks : Phase → Bool
  | .idle => false
  | .validate => false
  | .decHdr => false
  | .decPix => false
  | .crop => true
  | .mirror => true
  | .rotate => true
  | .resync => false
  | .filter => true
  | .encHdr => false
  | .encPix => false
  | .done => false
  | .error => false

/-- The phases of a run after VALIDATE has passed and before its end. -/
def Phase.validated : Phase → Bool
  | .idle => false
  | .validate => false
  | .decHdr => true
  | .decPix => true
  | .crop => true
  | .mirror => true
  | .rotate => true
  | .resync => true
  | .filter => true
  | .encHdr => true
  | .encPix => true
  | .done => false
  | .error => false

/-- "Every phase after `DEC_HDR` of a run that has not raised an error" (10_state.md R29). -/
def Phase.headerDecoded : Phase → Bool
  | .idle => false
  | .validate => false
  | .decHdr => false
  | .decPix => true
  | .crop => true
  | .mirror => true
  | .rotate => true
  | .resync => true
  | .filter => true
  | .encHdr => true
  | .encPix => true
  | .done => true
  | .error => false

/-- The phases after RESYNC (44_pipeline.md R262). -/
def Phase.resynced : Phase → Bool
  | .idle => false
  | .validate => false
  | .decHdr => false
  | .decPix => false
  | .crop => false
  | .mirror => false
  | .rotate => false
  | .resync => false
  | .filter => true
  | .encHdr => true
  | .encPix => true
  | .done => true
  | .error => false

/-- The phases up to and including `ENC_HDR`, in which nothing has been written (44_pipeline.md R258). -/
def Phase.beforeOutput : Phase → Bool
  | .idle => true
  | .validate => true
  | .decHdr => true
  | .decPix => true
  | .crop => true
  | .mirror => true
  | .rotate => true
  | .resync => true
  | .filter => true
  | .encHdr => true
  | .encPix => false
  | .done => false
  | .error => false

/-- The phases that call a collaborator (20_memory.md R61). -/
def Phase.callsOut : Phase → Bool
  | .idle => false
  | .validate => false
  | .decHdr => true
  | .decPix => true
  | .crop => false
  | .mirror => false
  | .rotate => false
  | .resync => false
  | .filter => false
  | .encHdr => true
  | .encPix => true
  | .done => false
  | .error => false

/-- The Image registers (10_state.md R30 to R32). -/
def State.ImageOk (s : State) : Prop :=
  s.img.wf ∧ s.img.w ≤ s.cfg.maxDim ∧ s.img.h ≤ s.cfg.maxDim ∧ s.img.w * s.img.h ≤ s.cfg.maxPixels

/-- Header validity (10_state.md R29). -/
def State.HeaderOk (s : State) : Prop :=
  s.hdr.sig = 0x4D42 ∧ s.hdr.dibSize = 40 ∧ s.hdr.bpp = 24 ∧ ¬ badDimensions s.cfg s.hdr

/-- The Header's dimensions are the Image's (44_pipeline.md R262). -/
def State.Synced (s : State) : Prop := s.hdr.width.toNat = s.img.w ∧ s.hdr.height.toNat = s.img.h

/-- The program passes VALIDATE (44_pipeline.md R253). -/
def State.ProgramOk (s : State) : Prop := s.cmdLen ≠ 0 ∧ scan s s.cmdLen.toNat 0 = none

/-- The invariant of the machine. Every clause but `config`, `memory` and `stall` is a rule's own. -/
structure State.Inv (s : State) : Prop where
  /-- 00_scope.md R11. -/
  config : s.cfg.legal
  /-- The command memory is in its canonical form. -/
  memory : s.cmd.wf
  /-- `CMD` has `CMD_CAP` words (10_state.md R40). -/
  memoryBound : ∀ e ∈ s.cmd, e.1 < s.cfg.cmdCap
  /-- "legal values `0 .. CMD_CAP`" (10_state.md R36). -/
  lenBound : s.cmdLen.toNat ≤ s.cfg.cmdCap
  /-- 10_state.md R30 to R32. -/
  image : s.ImageOk
  /-- Nothing is decoded before `DEC_PIX` has ended (41_pixel_codec.md R176). -/
  imageEmpty : s.phase = .idle ∨ s.phase = .validate ∨ s.phase = .decHdr ∨ s.phase = .decPix → s.img = {}
  /-- `0 ≤ IPOS ≤ IN_LEN` (10_state.md R38). -/
  position : s.ipos ≤ s.inp.length
  /-- decodeHeader starts at `IPOS = 0` (40_header_codec.md R142). -/
  positionStart : s.phase = .validate ∨ s.phase = .decHdr ∧ s.stalled = false → s.ipos = 0
  /-- `OUT` never exceeds the sink (20_memory.md R60). -/
  sink : ∀ c, s.cfg.outCap = some c → s.out.length ≤ c
  /-- 10_state.md R29. -/
  header : s.phase.headerDecoded → s.HeaderOk
  /-- 40_header_codec.md R161, 41_pixel_codec.md R178. -/
  synced : s.phase.resynced → s.Synced
  /-- "after `VALIDATE` has passed it cannot fail" (30_encoding.md R112). -/
  program : s.phase.validated → s.ProgramOk
  /-- `OPIDX` stands at a command or at the end; it never exceeds `CMDLEN` (10_state.md R34). -/
  walking : s.phase.walks → s.opIdx ≤ s.cmdLen.toNat ∧ scan s s.cmdLen.toNat s.opIdx = none
  /-- "In all other phases `OPIDX` is 0 and unused" (10_state.md R34). -/
  opIdxZero : s.phase.walks = false → s.phase ≠ .error → s.opIdx = 0
  /-- 44_pipeline.md R258. -/
  noOutput : s.phase.beforeOutput → s.out = []
  /-- 41_pixel_codec.md R181: the declared size covers the rows. -/
  sized : s.phase = .encPix ∨ s.phase = .done →
    strideOf s.hdr.width.toNat * s.hdr.height.toNat ≤ s.hdr.imgSize.toNat
  /-- The header's 54 bytes precede the rows (40_header_codec.md R155, R163 (b)). -/
  headerWritten : s.phase = .encPix → s.stalled = false → s.out = headerBytes s.hdr
  /-- "`OUT` holds a complete BMP file of `54 + HDR.IMGSIZE` bytes, the Header and Image registers hold the values that were
  encoded" (44_pipeline.md R264, 41_pixel_codec.md R182). -/
  complete : s.phase = .done → s.out = fileBytes s.hdr s.img ∧ s.out.length = 54 + s.hdr.imgSize.toNat
  /-- 44_pipeline.md R264: the error registers are 0 outside `ERROR`. -/
  noError : s.phase ≠ .error → s.errKind = 0 ∧ s.errCause = 0 ∧ s.errInfo = 0
  /-- 44_pipeline.md R264: in `ERROR` they name a cause, and `OUT` is empty unless it is an IOError. -/
  errorNamed : s.phase = .error →
    ∃ c : Cause, s.errKind = c.kind.code ∧ s.errCause = c.code ∧ (c.kind ≠ .ioError → s.out = [])
  /-- Only a phase that calls a collaborator waits for one (93 U33). -/
  stall : s.stalled → s.phase.callsOut

/-- The collaborators never fail and always return, and the sink is unbounded (44_pipeline.md R265: "With `io_fault` never
true and `OUT_CAP = ∞`"). -/
def State.QuietIo (s : State) : Prop := s.cfg.ioFault = [] ∧ s.cfg.ioHang = [] ∧ s.cfg.outCap = none

/-- The words of the program, `CMD[0 .. CMDLEN)` (30_encoding.md R100). -/
def State.programWords (s : State) : List Word := (List.range s.cmdLen.toNat).map s.cmdWord

/-- The run is over (44_pipeline.md R264). -/
def State.ended (s : State) : Prop := s.phase = .done ∨ s.phase = .error

/-! ### Terms of the statements -/

/-- The frame of a command that succeeds, of length `n` words: nothing but the Image and `OPIDX` changes, every word of
`CMD` reads as before, and the new Image is whole (44_pipeline.md R268, 42_geometric.md R191, 10_state.md R32, R34). -/
def State.Framed (s t : State) (n : Nat) : Prop :=
  t = { s with img := t.img, opIdx := s.opIdx + n } ∧ (∀ i, t.cmdWord i = s.cmdWord i) ∧ t.img.wf

/-- The Image keeps its size (43_filters.md R220). -/
def State.SameSize (s t : State) : Prop := t.img.w = s.img.w ∧ t.img.h = s.img.h

/-- The sum of a channel over columns `x0 ≤ u < x1` and rows `y0 ≤ v < y1` (43_filters.md R228). -/
def channelSum (f : Pixel → Byte) (m : Image) (x0 x1 y0 y1 : Nat) : Nat :=
  ∑ v ∈ Finset.Ico y0 y1, ∑ u ∈ Finset.Ico x0 x1, (f (m.get u v)).toNat

/-- The positions of `0 .. n−1` within `half` of `x` (43_filters.md R237: "the set of positions"). -/
def nearby (half x n : Nat) : Finset Nat :=
  (Finset.range n).filter fun u => (x : Int) - half ≤ u ∧ (u : Int) ≤ x + half

/-- How many pixels the window of `(x, y)` has (43_filters.md R237). -/
def windowCount (half : Nat) (m : Image) (x y : Nat) : Nat := (nearby half x m.w).card * (nearby half y m.h).card

/-- The sum of a channel over the window of `(x, y)` (43_filters.md R237). -/
def windowSum (f : Pixel → Byte) (half : Nat) (m : Image) (x y : Nat) : Nat :=
  ∑ v ∈ nearby half y m.h, ∑ u ∈ nearby half x m.w, (f (m.get u v)).toNat

/-- The seventeen command words (30_encoding.md R105). -/
def commandWords : List Word :=
  [0x10000000, 0x11000000, 0x12000000, 0x13000000, 0x14000000, 0x15000000, 0x16000000, 0x20000000, 0x21000000,
    0x22000000, 0x23000000, 0x24000000, 0x25000000, 0x30000000, 0x31000000, 0x40000000, 0x41000000]

/-- The command words that operand words follow, with how many (30_encoding.md R102, R105). -/
def operandCounts : List (Word × Nat) :=
  [(0x15000000, 1), (0x16000000, 1), (0x40000000, 2), (0x41000000, 4)]

/-- What a host read at a byte offset returns (10_state.md R36), through one step. -/
def State.readBack (s : State) (off : Nat) : Option Word :=
  (nextOf (step { s with host := [.read off] })).map fun t => t.rdata

/-- The host's next move resets the core: the external input, or `CTRL.RESET` (70_reset_and_hazards.md R320). -/
def HostMove.resets : HostMove → Bool
  | .tick => false
  | .write off v => off = 0 && v.getLsbD 1
  | .read _ => false
  | .resetPin => true

/-- The host's next move is a write of `CTRL.START` without `CTRL.RESET` (44_pipeline.md R250). -/
def HostMove.starts : HostMove → Bool
  | .tick => false
  | .write off v => off = 0 && v.getLsbD 0 && !v.getLsbD 1
  | .read _ => false
  | .resetPin => false

end Sys2Proof.Machine
end

