-- ==== Sys2Proof/Certificates/Slice0/Obligations.lean ====
section
/-! DEFINITION. The statements about the machine, one `def Obligations.<Name> : Prop` each. None is proved here. A statement cites the rules of spec/ it formalises; where it rests on a choice of the model, its docstring names the log entry. -/

open Sys2Proof Sys2Proof.Machine

/-! ### Encoding -/

/-- Words written out from 30_encoding.md R105 decode to their commands; a reserved bit, an undefined `SEL` and a missing
operand word do not. -/
def Obligations.DecodesWordsOfTheOpcodeMap : Prop :=
  decode [0x14000000] = .command .neg [] ∧
  decode [0x15000000, 0xFFFFFFFD] = .command (.pixelate (-3)) [] ∧
  decode [0x25000000] = .command .rotm270 [] ∧
  decode [0x31000000, 0x10000000] = .command .mirv [0x10000000] ∧
  decode [0x41000000, 1, 0, 2, 2] = .command (.crop4 1 0 2 2) [] ∧
  decode [0x14000001] = .illegal ∧
  decode [0x17000000] = .illegal ∧
  decode [0x41000000, 0, 0] = .truncated

/-- Decode after encode: every command, every operand an `i32` holds, whatever follows it (30_encoding.md R103, R106,
R112). -/
def Obligations.DecodeOfEncodeGivesTheCommandBack : Prop :=
  ∀ (i : Instr) (rest : List Word), i.wellFormed = true → decode (encode i ++ rest) = .command i rest

/-- Encode after decode: a command is read from its own encoding alone, so no two word sequences are one command, and
what is read is well-formed (30_encoding.md R106, R111). -/
def Obligations.EncodeOfDecodeGivesTheWordsBack : Prop :=
  ∀ (ws : List Word) (i : Instr) (rest : List Word), decode ws = .command i rest →
    ws = encode i ++ rest ∧ i.wellFormed = true

/-- 30_encoding.md R107: a non-zero bit among `[23:0]` makes a word illegal; the legal words are exactly the seventeen. -/
def Obligations.ReservedBitsAndUnknownWordsAreIllegal : Prop :=
  (∀ (w : Word) (rest : List Word), w.extractLsb' 0 24 ≠ 0#24 → decode (w :: rest) = .illegal) ∧
  ∀ (w : Word) (rest : List Word), decode (w :: rest) = .illegal ↔ w ∉ commandWords

/-- 30_encoding.md R109, R112: a command is truncated exactly when fewer operand words follow than its format has. -/
def Obligations.TruncatedExactlyWhenOperandWordsRunOut : Prop :=
  ∀ (w : Word) (rest : List Word),
    decode (w :: rest) = .truncated ↔ ∃ n, (w, n) ∈ operandCounts ∧ rest.length < n

/-! ### Reset, START and the register block -/

/-- 10_state.md R44: what reset leaves, at power-on and by a later reset. -/
def Obligations.ResetLeavesTheListedValues : Prop :=
  ∀ t : State, (t = State.reset ∨ ∃ s, t = resetCore s) →
    t.phase = .idle ∧ t.opIdx = 0 ∧ t.busy = false ∧ t.doneFlag = false ∧ t.errFlag = false ∧
    t.errKind = 0 ∧ t.errCause = 0 ∧ t.errInfo = 0 ∧ t.cmdLen = 0 ∧
    t.hdr.sig = 0 ∧ t.hdr.fileSize = 0 ∧ regValue t .hdrFhSize = 14 ∧ t.hdr.dibSize = 0 ∧ t.hdr.width = 0 ∧
    t.hdr.height = 0 ∧ t.hdr.bpp = 0 ∧ t.hdr.imgSize = 0 ∧
    t.img.w = 0 ∧ t.img.h = 0 ∧ t.img.pix = [] ∧ t.ipos = 0 ∧ t.out = [] ∧ t.olen = 0 ∧ t.pixAddr = 0

/-- The model's choice for "Unspecified after reset: the words of `CMD`" (log 6): free values, other ones after every
reset; one word written is that word, and the others stay free. -/
def Obligations.CommandMemoryIsUnspecifiedAfterReset : Prop :=
  ∀ (s : State) (i : Nat),
    State.reset.cmdWord i = Config.unspecifiedCmd 0 i ∧
    (resetCore s).cmdWord i = Config.unspecifiedCmd (s.epoch + 1) i ∧
    ∀ (w : Word) (j : Nat), ({ resetCore s with cmd := (resetCore s).cmd.write j w } : State).cmdWord i =
      if i = j then w else Config.unspecifiedCmd (s.epoch + 1) i

/-- 70_reset_and_hazards.md R320, 10_state.md R36: the external input and `CTRL.RESET` reset the core in every state,
`RESET` winning over `START`. The parameters and the schedule stay (log 20). -/
def Obligations.ResetIsHonouredInEveryPhase : Prop :=
  ∀ (s : State) (m : HostMove) (rest : List HostMove), s.host = m :: rest → m.resets = true →
    ∃ t, step s = .next t ∧ t = resetCore { s with host := rest } ∧ t.phase = .idle ∧ t.host = rest ∧
      t.cfg = s.cfg ∧ t.inp = s.inp

/-- 44_pipeline.md R251: what START clears and what it keeps, in `IDLE` and in `DONE` (R250). -/
def Obligations.StartClearsTheRunAndKeepsTheProgram : Prop :=
  ∀ (s : State) (m : HostMove) (rest : List HostMove), s.host = m :: rest → m.starts = true →
    (s.phase = .idle ∨ s.phase = .done) →
    ∃ t, step s = .next t ∧
      t.hdr.sig = 0 ∧ t.hdr.fileSize = 0 ∧ t.hdr.dibSize = 0 ∧ t.hdr.width = 0 ∧ t.hdr.height = 0 ∧
      t.hdr.bpp = 0 ∧ t.hdr.imgSize = 0 ∧ t.img.w = 0 ∧ t.img.h = 0 ∧ t.img.pix = [] ∧ t.ipos = 0 ∧
      t.out = [] ∧ t.olen = 0 ∧ t.errKind = 0 ∧ t.errCause = 0 ∧ t.errInfo = 0 ∧ t.opIdx = 0 ∧
      t.phase = .validate ∧ t.cmd = s.cmd ∧ (∀ i, t.cmdWord i = s.cmdWord i) ∧ t.cmdLen = s.cmdLen ∧
      t.pixAddr = s.pixAddr ∧ t.cfg = s.cfg ∧ t.inp = s.inp

/-- 44_pipeline.md R250: in any other phase the write of START changes nothing. -/
def Obligations.StartIsIgnoredOutsideIdleAndDone : Prop :=
  ∀ (s : State) (m : HostMove) (rest : List HostMove), s.host = m :: rest → m.starts = true →
    s.phase ≠ .idle → s.phase ≠ .done → step s = .next { s with host := rest }

/-- 10_state.md R37: while `BUSY = 1` every host write but `CTRL.RESET` is ignored; a host read is always allowed and has
no side effect on the core; what it returns from a Header or Image register then is a free value (log 7). -/
def Obligations.HostAccessRights : Prop :=
  ∀ (s : State) (off : Nat) (rest : List HostMove),
    (∀ v, s.host = .write off v :: rest → s.busy = true → (HostMove.write off v).resets = false →
      step s = .next { s with host := rest }) ∧
    (∀ v, s.host = .write off v :: rest → (HostMove.write off v).resets = true →
      step s = .next (resetCore { s with host := rest })) ∧
    (s.host = .read off :: rest →
      ∃ t, step s = .next t ∧ t = { s with host := rest, rdata := t.rdata, fresh := t.fresh } ∧
        ∀ r, regAt s.cfg.cmdCap off = some r → r.inFlight = true → s.busy = true →
          t.rdata = Config.freeRead s.fresh ∧ t.fresh = s.fresh + 1)

/-- 10_state.md R36: what the host reads at each offset while `BUSY = 0`. A word of `CMD` not below `CMDLEN` reads as a free
value (93 U21, log 7); an offset that is not listed reads 0 (93 U26). That an offset which is no multiple of 4 counts as
unlisted is the model's choice (log 14). -/
def Obligations.RegisterMapReads : Prop :=
  ∀ s : State, s.busy = false →
    s.readBack 0x00 = some 0 ∧
    (∃ st, s.readBack 0x04 = some st ∧ st.getLsbD 0 = s.busy ∧ st.getLsbD 1 = s.doneFlag ∧
      st.getLsbD 2 = s.errFlag ∧ st.extractLsb' 8 4 = s.phase.code ∧ st.extractLsb' 3 5 = 0 ∧
      st.extractLsb' 12 20 = 0) ∧
    s.readBack 0x08 = some (s.errKind.setWidth 32) ∧ s.readBack 0x0C = some (s.errCause.setWidth 32) ∧
    s.readBack 0x10 = some s.errInfo ∧ s.readBack 0x14 = some s.cmdLen ∧
    s.readBack 0x18 = some (BitVec.ofNat 32 s.opIdx) ∧
    s.readBack 0x20 = some (s.hdr.sig.setWidth 32) ∧ s.readBack 0x24 = some s.hdr.fileSize ∧
    s.readBack 0x28 = some 14 ∧ s.readBack 0x2C = some s.hdr.dibSize ∧ s.readBack 0x30 = some s.hdr.width ∧
    s.readBack 0x34 = some s.hdr.height ∧ s.readBack 0x38 = some (s.hdr.bpp.setWidth 32) ∧
    s.readBack 0x3C = some s.hdr.imgSize ∧ s.readBack 0x40 = some (BitVec.ofNat 32 s.img.w) ∧
    s.readBack 0x44 = some (BitVec.ofNat 32 s.img.h) ∧ s.readBack 0x48 = some (BitVec.ofNat 32 s.ipos) ∧
    s.readBack 0x4C = some (BitVec.ofNat 32 s.out.length) ∧ s.readBack 0x50 = some s.pixAddr ∧
    (∀ x y, s.img.wf → x < s.img.w → y < s.img.h → s.pixAddr.toNat = y * s.img.w + x →
      ∃ v, s.readBack 0x54 = some v ∧ v.extractLsb' 0 8 = (s.img.get x y).b ∧
        v.extractLsb' 8 8 = (s.img.get x y).g ∧ v.extractLsb' 16 8 = (s.img.get x y).r ∧ v.extractLsb' 24 8 = 0) ∧
    (s.img.w * s.img.h ≤ s.pixAddr.toNat → s.readBack 0x54 = some 0) ∧
    (∀ i, i < s.cfg.cmdCap → i < s.cmdLen.toNat → s.readBack (0x1000 + 4 * i) = some (s.cmdWord i)) ∧
    (∀ i, i < s.cfg.cmdCap → s.cmdLen.toNat ≤ i →
      s.readBack (0x1000 + 4 * i) = some (Config.freeRead s.fresh)) ∧
    s.readBack 0x1C = some 0 ∧
    (∀ off, 0x58 ≤ off → off < 0x1000 → s.readBack off = some 0) ∧
    (∀ off, off % 4 ≠ 0 → s.readBack off = some 0) ∧
    (∀ i, s.cfg.cmdCap ≤ i → s.readBack (0x1000 + 4 * i) = some 0)

/-- 10_state.md R33, R35, R36; 93 U23; 70_reset_and_hazards.md R325 (7): what the host reads in every state, `BUSY = 1` or
not: `STATUS`, with the code of each phase, and the registers that no run puts in flight; `PIXDATA` reads 0 while
`BUSY = 1`, as R36 says of it (log 7). -/
def Obligations.ReadsTheSpecFixesInEveryPhase : Prop :=
  (∀ s : State, ∃ st, s.readBack 0x04 = some st ∧
    st.getLsbD 0 = decide (s.phase ≠ .idle ∧ s.phase ≠ .done ∧ s.phase ≠ .error) ∧
    st.getLsbD 1 = decide (s.phase = .done) ∧ st.getLsbD 2 = decide (s.phase = .error) ∧
    (∀ n p, [Phase.idle, .validate, .decHdr, .decPix, .crop, .mirror, .rotate, .resync, .filter, .encHdr, .encPix, .done,
      .error][n]? = some p → s.phase = p → (st.extractLsb' 8 4).toNat = n) ∧
    st.extractLsb' 3 5 = 0 ∧ st.extractLsb' 12 20 = 0) ∧
  ∀ s : State,
    s.readBack 0x00 = some 0 ∧ s.readBack 0x08 = some (s.errKind.setWidth 32) ∧
    s.readBack 0x0C = some (s.errCause.setWidth 32) ∧ s.readBack 0x10 = some s.errInfo ∧
    s.readBack 0x14 = some s.cmdLen ∧ s.readBack 0x28 = some 14 ∧ s.readBack 0x50 = some s.pixAddr ∧
    (∀ i, i < s.cfg.cmdCap → i < s.cmdLen.toNat → s.readBack (0x1000 + 4 * i) = some (s.cmdWord i)) ∧
    (s.busy = true → s.readBack 0x54 = some 0)

/-- 10_state.md R36, R40: what a host write does while `BUSY = 0`: `CMDLEN` clamped to `CMD_CAP`, `PIXADDR`, one word of
`CMD` and no other; every other register but `CTRL`, and every unlisted offset, ignores it (93 U24, U26). That an offset
which is no multiple of 4 counts as unlisted is the model's choice (log 14): R36 speaks of aligned words only. -/
def Obligations.RegisterMapWrites : Prop :=
  ∀ (s : State) (off : Nat) (v : Word) (rest : List HostMove), s.host = .write off v :: rest → s.busy = false →
    (off = 0x14 → ∃ n : Word, step s = .next { s with host := rest, cmdLen := n } ∧
      n.toNat = min v.toNat s.cfg.cmdCap) ∧
    (off = 0x50 → step s = .next { s with host := rest, pixAddr := v }) ∧
    (∀ i, i < s.cfg.cmdCap → off = 0x1000 + 4 * i →
      ∃ t, step s = .next t ∧ t = { s with host := rest, cmd := t.cmd } ∧ t.cmdWord i = v ∧
        (∀ j, j ≠ i → t.cmdWord j = s.cmdWord j) ∧ (s.cmd.wf → t.cmd.wf)) ∧
    (off ≠ 0 → off ≠ 0x14 → off ≠ 0x50 → (∀ i, i < s.cfg.cmdCap → off ≠ 0x1000 + 4 * i) →
      step s = .next { s with host := rest })

/-! ### Errors -/

/-- 60_exceptions.md R282, R283: the four kind codes, and the table of the twenty causes, each with its kind and code; the
high nibble of a code is the kind's, and no two causes share a code. -/
def Obligations.ErrorCodesNameKindAndCause : Prop :=
  ErrKind.formatError.code = 1 ∧ ErrKind.rangeError.code = 2 ∧ ErrKind.ioError.code = 3 ∧
  ErrKind.validationError.code = 4 ∧
  (∀ c : Cause, (c.kind, c.code) = match c with
    | .badSignature => (.formatError, 0x11)
    | .badDibSize => (.formatError, 0x12)
    | .badBitDepth => (.formatError, 0x13)
    | .compressed => (.formatError, 0x14)
    | .badDimensions => (.formatError, 0x15)
    | .cropOffsetX => (.rangeError, 0x21)
    | .cropOffsetY => (.rangeError, 0x22)
    | .cropWidthNonpos => (.rangeError, 0x23)
    | .cropHeightNonpos => (.rangeError, 0x24)
    | .cropXExtent => (.rangeError, 0x25)
    | .cropYExtent => (.rangeError, 0x26)
    | .pixelateNeg => (.rangeError, 0x27)
    | .blurNeg => (.rangeError, 0x28)
    | .shortRead => (.ioError, 0x31)
    | .seekFail => (.ioError, 0x32)
    | .shortWrite => (.ioError, 0x33)
    | .streamClosed => (.ioError, 0x34)
    | .unknownToken => (.validationError, 0x41)
    | .emptyList => (.validationError, 0x42)
    | .truncatedCommand => (.validationError, 0x43)) ∧
  (∀ c : Cause, c.code.extractLsb' 4 4 = c.kind.code.setWidth 4) ∧ ∀ c d : Cause, c.code = d.code → c = d

/-- 60_exceptions.md R290, R291; 42_geometric.md R191: a command that gives a next state either replaces the Image by a
whole one and moves `OPIDX` past itself, or raises a RangeError with nothing else written. -/
def Obligations.CommandInstallsOrRaises : Prop :=
  ∀ (i : Instr) (s t : State), exec i s = .next t →
    s.Framed t i.words ∨
    ∃ (c : Cause) (v : Word), c.kind = .rangeError ∧
      t = { s with errKind := 2, errCause := c.code, errInfo := v, phase := .error }

/-- 44_pipeline.md R268, 42_geometric.md R190: a command reads nothing but the Image and the configuration: two states
that agree on them see the same new Image, the same error, or the same stop. -/
def Obligations.CommandsReadOnlyTheImage : Prop :=
  ∀ (i : Instr) (s s' : State), s.img = s'.img → s.cfg = s'.cfg →
    (∃ m, exec i s = .next { s with img := m, opIdx := s.opIdx + i.words } ∧
      exec i s' = .next { s' with img := m, opIdx := s'.opIdx + i.words }) ∨
    (∃ c v, exec i s = .next (raise c v s) ∧ exec i s' = .next (raise c v s')) ∨
    (exec i s = .fault .pixOutOfRange ∧ exec i s' = .fault .pixOutOfRange ∧ ¬ s.img.wf)

/-- 60_exceptions.md R293: `ERROR` and the error registers stay, whatever the core or the host does, until a reset. -/
def Obligations.ErrorIsStickyUntilReset : Prop :=
  ∀ s t : State, s.phase = .error → step s = .next t →
    (t.phase = .error ∧ t.errKind = s.errKind ∧ t.errCause = s.errCause ∧ t.errInfo = s.errInfo) ∨
    (∃ m rest, s.host = m :: rest ∧ m.resets = true ∧ t = resetCore { s with host := rest })

/-- 44_pipeline.md R264, R250; 70_reset_and_hazards.md R321: the core rests in `IDLE`, `DONE` and `ERROR`. That a step there
is a next state at all is the model's choice (log 11): it is the state itself, with a host move that lets the core step
taken off. No move of the host ends the rest or touches what the run left but a reset, or START in `IDLE` and `DONE`. -/
def Obligations.TheCoreRestsInIdleDoneAndError : Prop :=
  ∀ s : State, (s.phase = .idle ∨ s.phase = .done ∨ s.phase = .error) →
    (s.host = [] → step s = .next s) ∧
    (∀ rest, s.host = .tick :: rest → step s = .next { s with host := rest }) ∧
    ∀ t, step s = .next t →
      (t.phase = s.phase ∧ t.opIdx = s.opIdx ∧ t.hdr = s.hdr ∧ t.img = s.img ∧ t.ipos = s.ipos ∧ t.out = s.out ∧
        t.errKind = s.errKind ∧ t.errCause = s.errCause ∧ t.errInfo = s.errInfo) ∨
      ∃ m rest, s.host = m :: rest ∧ (m.resets = true ∨ m.starts = true ∧ s.phase ≠ .error)

/-! ### Filters -/

/-- 43_filters.md R222 to R224: each keep filter completes on every Image, passes one channel and zeroes the other two. -/
def Obligations.KeepFiltersPassOneChannel : Prop :=
  ∀ s : State, s.img.wf →
    (∃ t, exec .keepb s = .next t ∧ s.Framed t 1 ∧ s.SameSize t ∧
      ∀ x y, x < s.img.w → y < s.img.h → t.img.get x y = { b := (s.img.get x y).b, g := 0, r := 0 }) ∧
    (∃ t, exec .keepr s = .next t ∧ s.Framed t 1 ∧ s.SameSize t ∧
      ∀ x y, x < s.img.w → y < s.img.h → t.img.get x y = { b := 0, g := 0, r := (s.img.get x y).r }) ∧
    (∃ t, exec .keepg s = .next t ∧ s.Framed t 1 ∧ s.SameSize t ∧
      ∀ x y, x < s.img.w → y < s.img.h → t.img.get x y = { b := 0, g := (s.img.get x y).g, r := 0 })

/-- 43_filters.md R225, R226: `GRAY` completes and sets all three channels to the luminance, with the default `luma` the
exact formula, which never wraps and fixes gray pixels. -/
def Obligations.GrayscaleSetsTheLuminance : Prop :=
  (∀ s : State, s.img.wf →
    ∃ t, exec .gray s = .next t ∧ s.Framed t 1 ∧ s.SameSize t ∧
      ∀ x y, x < s.img.w → y < s.img.h →
        (t.img.get x y).b = luma s.cfg (s.img.get x y) ∧ (t.img.get x y).g = luma s.cfg (s.img.get x y) ∧
        (t.img.get x y).r = luma s.cfg (s.img.get x y)) ∧
  ∀ (c : Config) (p : Pixel), c.luma = [] →
    (luma c p).toNat = (299 * p.r.toNat + 587 * p.g.toNat + 114 * p.b.toNat) / 1000 ∧
    ∀ v, luma c { b := v, g := v, r := v } = v

/-- 43_filters.md R227: `NEG` completes; every channel becomes 255 minus itself, which is its bitwise complement; done
twice it restores the Image. -/
def Obligations.NegativeComplementsEveryChannel : Prop :=
  ∀ s : State, s.img.wf →
    ∃ t, exec .neg s = .next t ∧ s.Framed t 1 ∧ s.SameSize t ∧
      (∀ x y, x < s.img.w → y < s.img.h →
        (t.img.get x y).b.toNat = 255 - (s.img.get x y).b.toNat ∧
        (t.img.get x y).g.toNat = 255 - (s.img.get x y).g.toNat ∧
        (t.img.get x y).r.toNat = 255 - (s.img.get x y).r.toNat ∧
        t.img.get x y = { b := ~~~(s.img.get x y).b, g := ~~~(s.img.get x y).g, r := ~~~(s.img.get x y).r }) ∧
      ∃ u, exec .neg t = .next u ∧ u.img = s.img

/-- 43_filters.md R228, R229, R230: for a positive block size `PIXELATE` completes and every pixel becomes the truncated
mean, channel by channel, of the tile it lies in; 0 changes nothing. -/
def Obligations.PixelateFlattensEveryTile : Prop :=
  ∀ (s : State) (a : Int), s.img.wf →
    (0 < a → ∃ t, exec (.pixelate a) s = .next t ∧ s.Framed t 2 ∧ s.SameSize t ∧
      ∀ i j x y, i * a.toNat ≤ x → x < min ((i + 1) * a.toNat) s.img.w → j * a.toNat ≤ y →
        y < min ((j + 1) * a.toNat) s.img.h →
        let x0 := i * a.toNat
        let x1 := min ((i + 1) * a.toNat) s.img.w
        let y0 := j * a.toNat
        let y1 := min ((j + 1) * a.toNat) s.img.h
        let count := (x1 - x0) * (y1 - y0)
        (t.img.get x y).b.toNat = channelSum Pixel.b s.img x0 x1 y0 y1 / count ∧
        (t.img.get x y).g.toNat = channelSum Pixel.g s.img x0 x1 y0 y1 / count ∧
        (t.img.get x y).r.toNat = channelSum Pixel.r s.img x0 x1 y0 y1 / count) ∧
    (a = 0 → exec (.pixelate a) s = .next { s with opIdx := s.opIdx + 2 })

/-- 43_filters.md R231: block size 1 changes no pixel, a size at least the image's gives one tile, and pixelating twice
with one size is pixelating once. -/
def Obligations.PixelateCornerSizes : Prop :=
  (∀ s : State, s.img.wf → exec (.pixelate 1) s = .next { s with opIdx := s.opIdx + 2 }) ∧
  (∀ (s t : State) (a : Int), s.img.wf → (s.img.w : Int) ≤ a → (s.img.h : Int) ≤ a → 0 < a →
    exec (.pixelate a) s = .next t →
    ∀ x y x' y', x < s.img.w → y < s.img.h → x' < s.img.w → y' < s.img.h → t.img.get x y = t.img.get x' y') ∧
  ∀ (s t : State) (a : Int), s.img.wf → 0 ≤ a → exec (.pixelate a) s = .next t →
    exec (.pixelate a) t = .next { t with opIdx := t.opIdx + 2 }

/-- 43_filters.md R235 to R238: for a non-negative kernel size `BLUR` completes and every pixel becomes the mean of the old
pixels of its window inside the image, channel by channel, rounded to nearest with ties up. -/
def Obligations.BlurAveragesTheClippedWindow : Prop :=
  ∀ (s : State) (a : Int), s.img.wf → 0 ≤ a →
    ∃ t, exec (.blur a) s = .next t ∧ s.Framed t 2 ∧ s.SameSize t ∧
      ∀ x y, x < s.img.w → y < s.img.h →
        let half := (if a.toNat % 2 = 0 then a.toNat + 1 else a.toNat) / 2
        let count := windowCount half s.img x y
        (t.img.get x y).b.toNat = (2 * windowSum Pixel.b half s.img x y + count) / (2 * count) ∧
        (t.img.get x y).g.toNat = (2 * windowSum Pixel.g half s.img x y + count) / (2 * count) ∧
        (t.img.get x y).r.toNat = (2 * windowSum Pixel.r half s.img x y + count) / (2 * count)

/-- 43_filters.md R239: kernel sizes 0 and 1 change no pixel; an even size acts as the next odd one; on an `i32` the
incremented size still is one. -/
def Obligations.BlurKernelSizes : Prop :=
  (∀ (s : State) (a : Int), s.img.wf → (a = 0 ∨ a = 1) → exec (.blur a) s = .next { s with opIdx := s.opIdx + 2 }) ∧
  (∀ (s : State) (a : Int), s.img.wf → 0 ≤ a → a % 2 = 0 → exec (.blur a) s = exec (.blur (a + 1)) s) ∧
  ∀ a : Int, fitsI32 a = true → 0 ≤ a → (oddKernel a.toNat : Int) ≤ 2147483647

/-- 43_filters.md R228, R235: a negative size is a RangeError on any Image, empty too, with the operand's low 32 bits and
no pixel changed. -/
def Obligations.NegativeSizesRaiseRangeErrors : Prop :=
  ∀ (s : State) (a : Int), s.img.wf → a < 0 →
    exec (.pixelate a) s =
      .next { s with errKind := 2, errCause := 0x27, errInfo := BitVec.ofInt 32 a, phase := .error } ∧
    exec (.blur a) s =
      .next { s with errKind := 2, errCause := 0x28, errInfo := BitVec.ofInt 32 a, phase := .error }

/-! ### Geometry -/

/-- 42_geometric.md R193 to R199: the six rotate commands complete on every Image; input `(x, y)` goes to the output
position of their angle's mapping. -/
def Obligations.RotateCommandsMoveEveryPixel : Prop :=
  ∀ s : State, s.img.wf →
    (∀ i, i = .rot90 ∨ i = .rotm270 →
      ∃ t, exec i s = .next t ∧ s.Framed t 1 ∧ t.img.w = s.img.h ∧ t.img.h = s.img.w ∧
        ∀ x y, x < s.img.w → y < s.img.h → t.img.get (s.img.h - 1 - y) x = s.img.get x y) ∧
    (∀ i, i = .rot180 ∨ i = .rotm180 →
      ∃ t, exec i s = .next t ∧ s.Framed t 1 ∧ t.img.w = s.img.w ∧ t.img.h = s.img.h ∧
        ∀ x y, x < s.img.w → y < s.img.h → t.img.get (s.img.w - 1 - x) (s.img.h - 1 - y) = s.img.get x y) ∧
    (∀ i, i = .rot270 ∨ i = .rotm90 →
      ∃ t, exec i s = .next t ∧ s.Framed t 1 ∧ t.img.w = s.img.h ∧ t.img.h = s.img.w ∧
        ∀ x y, x < s.img.w → y < s.img.h → t.img.get y (s.img.w - 1 - x) = s.img.get x y)

/-- 42_geometric.md R201: the rotations of a whole Image form a cyclic group of order 4. -/
def Obligations.RotationsFormACyclicGroup : Prop :=
  ∀ m : Image, m.wf →
    (rotate 90 m).bind (rotate 90) = rotate 180 m ∧
    ((rotate 90 m).bind (rotate 90)).bind (rotate 90) = rotate 270 m ∧
    (((rotate 90 m).bind (rotate 90)).bind (rotate 90)).bind (rotate 90) = some m ∧
    (rotate 90 m).bind (rotate 270) = some m ∧
    (rotate 180 m).bind (rotate 180) = some m

/-- 42_geometric.md R192, R200, R202: the normal form is the angle modulo 360, whichever remainder is read; `Rotate` has a
result exactly for the quarter turns, the same for every angle of one normal form; a full turn is the identity. -/
def Obligations.RotateRefusesAnglesWithoutAMapping : Prop :=
  ∀ (angle : Int) (m : Image),
    normalAngle angle = angle % 360 ∧
    (rotate angle m = none ↔
      angle % 360 ≠ 0 ∧ angle % 360 ≠ 90 ∧ angle % 360 ≠ 180 ∧ angle % 360 ≠ 270) ∧
    rotate (angle + 360) m = rotate angle m ∧
    (m.wf → rotate 0 m = some m ∧ rotate 360 m = some m) ∧
    (rotate angle m = none → ∀ (i : Instr) (s : State), s.img = m →
      runRotate i angle s = .refused (.angleNotQuarterTurn angle))

/-- 42_geometric.md R203, R204: the mirror commands complete on every Image and reverse each row, or the order of the
rows. -/
def Obligations.MirrorCommandsReverseColumnsOrRows : Prop :=
  ∀ s : State, s.img.wf →
    (∃ t, exec .mirh s = .next t ∧ s.Framed t 1 ∧ s.SameSize t ∧
      ∀ x y, x < s.img.w → y < s.img.h → t.img.get x y = s.img.get (s.img.w - 1 - x) y) ∧
    (∃ t, exec .mirv s = .next t ∧ s.Framed t 1 ∧ s.SameSize t ∧
      ∀ x y, x < s.img.w → y < s.img.h → t.img.get x y = s.img.get x (s.img.h - 1 - y))

/-- 42_geometric.md R205: each mirror is an involution, and `MIRH` then `MIRV` is `ROT180`. -/
def Obligations.MirrorLaws : Prop :=
  ∀ (s : State), s.img.wf →
    (∃ t u, exec .mirh s = .next t ∧ exec .mirh t = .next u ∧ u.img = s.img) ∧
    (∃ t u, exec .mirv s = .next t ∧ exec .mirv t = .next u ∧ u.img = s.img) ∧
    (∃ t u v, exec .mirh s = .next t ∧ exec .mirv t = .next u ∧ exec .rot180 s = .next v ∧ u.img = v.img)

/-- 42_geometric.md R206 to R209: a crop whose operands are inside the image completes and copies the rectangle; without
a size it reaches to the edges. -/
def Obligations.CropCommandsCopyTheRectangle : Prop :=
  ∀ (s : State) (a b : Int), s.img.wf → 0 ≤ a → a < s.img.w → 0 ≤ b → b < s.img.h →
    (∃ t, exec (.crop2 a b) s = .next t ∧ s.Framed t 3 ∧ (t.img.w : Int) = s.img.w - a ∧
      (t.img.h : Int) = s.img.h - b ∧
      ∀ x y, x < t.img.w → y < t.img.h → t.img.get x y = s.img.get (a.toNat + x) (b.toNat + y)) ∧
    ∀ c d : Int, 0 < c → 0 < d → a + c ≤ s.img.w → b + d ≤ s.img.h →
      ∃ t, exec (.crop4 a b c d) s = .next t ∧ s.Framed t 5 ∧ (t.img.w : Int) = c ∧ (t.img.h : Int) = d ∧
        ∀ x y, x < t.img.w → y < t.img.h → t.img.get x y = s.img.get (a.toNat + x) (b.toNat + y)

/-- 42_geometric.md R206, R213: the six checks in the order listed, the first that fails reported with its operand. -/
def Obligations.CropChecksInOrder : Prop :=
  ∀ (s : State) (a b c d : Int), s.img.wf →
    let raised (code : BitVec 8) (v : Int) : State :=
      { s with errKind := 2, errCause := code, errInfo := BitVec.ofInt 32 v, phase := .error }
    ((a < 0 ∨ s.img.w ≤ a) →
      exec (.crop2 a b) s = .next (raised 0x21 a) ∧ exec (.crop4 a b c d) s = .next (raised 0x21 a)) ∧
    (0 ≤ a → a < s.img.w →
      ((b < 0 ∨ s.img.h ≤ b) →
        exec (.crop2 a b) s = .next (raised 0x22 b) ∧ exec (.crop4 a b c d) s = .next (raised 0x22 b)) ∧
      (0 ≤ b → b < s.img.h →
        (c ≤ 0 → exec (.crop4 a b c d) s = .next (raised 0x23 c)) ∧
        (0 < c → d ≤ 0 → exec (.crop4 a b c d) s = .next (raised 0x24 d)) ∧
        (0 < c → 0 < d → s.img.w < a + c → exec (.crop4 a b c d) s = .next (raised 0x25 c)) ∧
        (0 < c → 0 < d → a + c ≤ s.img.w → s.img.h < b + d →
          exec (.crop4 a b c d) s = .next (raised 0x26 d))))

/-- 42_geometric.md R210: a crop never enlarges and never empties, crops compose by adding offsets, and each is validated
against what the one before it left. -/
def Obligations.CropsComposeByAddingOffsets : Prop :=
  (∀ (i : Instr) (s t : State), i.cls = .crop → s.phase ≠ .error → exec i s = .next t → t.phase ≠ .error →
    1 ≤ t.img.w ∧ t.img.w ≤ s.img.w ∧ 1 ≤ t.img.h ∧ t.img.h ≤ s.img.h) ∧
  ∀ (s t u : State) (a b c d : Int), s.phase ≠ .error →
    exec (.crop2 a b) s = .next t → t.phase ≠ .error → exec (.crop2 c d) t = .next u → u.phase ≠ .error →
    c < t.img.w ∧ d < t.img.h ∧ ∃ v, exec (.crop2 (a + c) (b + d)) s = .next v ∧ v.phase ≠ .error ∧ v.img = u.img

/-- 42_geometric.md R211: a rotation or mirror permutes the pixels, a crop selects some of them in order; no pixel is
changed, mixed or invented. -/
def Obligations.GeometricCommandsMovePixelsWhole : Prop :=
  ∀ (i : Instr) (s t : State), exec i s = .next t →
    ((i.cls = .rotate ∨ i.cls = .mirror) → t.img.pix.Perm s.img.pix) ∧
    (i.cls = .crop → t.img.pix.Sublist s.img.pix)

/-! ### The codecs -/

/-- 41_pixel_codec.md R171, 40_header_codec.md R157, 45_arithmetic.md R276: the two stride formulas give one number, a
multiple of 4 that holds the pixels with `w mod 4` bytes of padding. -/
def Obligations.StrideFormulasAgree : Prop :=
  ∀ w : Nat, strideBits 24 w = strideOf w ∧ strideOf w % 4 = 0 ∧ strideOf w = 3 * w + w % 4

/-- 40_header_codec.md R143, R144, R152, R153 (c); 20_memory.md R68, R76: decodeHeader, which reads field after field, ends
as the layout table says: the fields at their offsets, or the first check or read that fails. Then the registers read
before it hold what the file has there (`HDR.SIG` the bad signature too), the others what they held before, `IPOS` stands
after the last bytes delivered, and `PIX`, `OUT` and `CMD` are untouched. -/
def Obligations.HeaderDecodesByTheFileLayout : Prop :=
  ∀ s : State, s.host = [] → s.stalled = false → s.phase = .decHdr → s.ipos = 0 → s.cfg.ioFault = [] →
    s.cfg.ioHang = [] →
    (∀ h, headerOf s.cfg s.inp = .ok h →
      step s = .next { s with hdr := h, ipos := 54, phase := .decPix, opIdx := 0 }) ∧
    (∀ c v, headerOf s.cfg s.inp = .error (c, v) →
      step s = .next { s with
        hdr := headerUpTo s.hdr s.inp (stopAt c v), ipos := stopAt c v, errKind := c.kind.code, errCause := c.code,
        errInfo := v, phase := .error })

/-- 41_pixel_codec.md R173 to R177: with a valid Header decodePixels takes the pixel at column `x`, row `y` from file row
`h − 1 − y`, or reports the position of the first short row and installs nothing. -/
def Obligations.PixelRowsDecodeBottomUp : Prop :=
  ∀ s : State, s.host = [] → s.stalled = false → s.phase = .decPix → s.HeaderOk → s.cfg.ioFault = [] →
    s.cfg.ioHang = [] → 54 ≤ s.inp.length →
    let w := s.hdr.width.toNat
    let h := s.hdr.height.toNat
    let stride := strideOf w
    (54 + stride * h ≤ s.inp.length →
      ∃ t, step s = .next t ∧
        t = { s with img := t.img, ipos := 54 + stride * h, phase := .crop, opIdx := 0 } ∧
        t.img.wf ∧ t.img.w = w ∧ t.img.h = h ∧
        ∀ x y, x < w → y < h → t.img.get x y = filePixel s.inp stride (h - 1 - y) x) ∧
    (∀ r, r < h → 54 + r * stride ≤ s.inp.length → s.inp.length < 54 + (r + 1) * stride →
      step s = .next { s with
        ipos := 54 + r * stride, errKind := 3, errCause := 0x31, errInfo := BitVec.ofNat 32 (54 + r * stride),
        phase := .error })

/-- 40_header_codec.md R155 to R161, 20_memory.md R76: encodeHeader emits the 54 bytes of the layout: constants, the
Header's width and height, the larger of the declared and the computed size, and that plus 54 modulo 2^32. -/
def Obligations.HeaderEncodesToTheFileLayout : Prop :=
  ∀ s : State, s.Inv → s.QuietIo → s.host = [] → s.phase = .encHdr → s.stalled = false →
    let size := max s.hdr.imgSize.toNat (strideOf s.img.w * s.img.h)
    ∃ (h : Header) (bs : List Byte),
      step s = .next { s with hdr := h, out := s.out ++ bs, phase := .encPix, opIdx := 0 } ∧
      h.imgSize.toNat = size ∧ h.fileSize.toNat = (54 + size) % 2 ^ 32 ∧
      h = { s.hdr with imgSize := h.imgSize, fileSize := h.fileSize } ∧
      bs.length = 54 ∧ field bs 0 2 = [0x42, 0x4D] ∧ leNat (field bs 2 4) = (54 + size) % 2 ^ 32 ∧
      leNat (field bs 6 4) = 0 ∧ leNat (field bs 10 4) = 54 ∧ leNat (field bs 14 4) = 40 ∧
      leNat (field bs 18 4) = s.img.w ∧ leNat (field bs 22 4) = s.img.h ∧ leNat (field bs 26 2) = 1 ∧
      leNat (field bs 28 2) = 24 ∧ leNat (field bs 30 4) = 0 ∧ leNat (field bs 34 4) = size ∧
      field bs 38 16 = List.replicate 16 0

/-- 41_pixel_codec.md R178 to R182: encodePixels emits `HDR.IMGSIZE` bytes: file row `r` holds image row `h − 1 − r`, B, G,
R of each pixel, then zeros to the stride, then zeros to the declared size. -/
def Obligations.PixelRowsEncodeBottomUp : Prop :=
  ∀ s : State, s.Inv → s.QuietIo → s.host = [] → s.phase = .encPix → s.stalled = false →
    let w := s.img.w
    let h := s.img.h
    let stride := strideOf w
    ∃ bs : List Byte,
      step s = .next { s with out := s.out ++ bs, phase := .done, opIdx := 0 } ∧
      bs.length = s.hdr.imgSize.toNat ∧
      (∀ r x, r < h → x < w →
        bs[r * stride + 3 * x]? = some (s.img.get x (h - 1 - r)).b ∧
        bs[r * stride + 3 * x + 1]? = some (s.img.get x (h - 1 - r)).g ∧
        bs[r * stride + 3 * x + 2]? = some (s.img.get x (h - 1 - r)).r) ∧
      (∀ r j, r < h → 3 * w ≤ j → j < stride → bs[r * stride + j]? = some 0) ∧
      ∀ k, stride * h ≤ k → k < s.hdr.imgSize.toNat → bs[k]? = some 0

/-- 41_pixel_codec.md R186, 40_header_codec.md R165: the bytes a run encodes decode, in a run that reads them, to the same
Image and the same Header. -/
def Obligations.EncodedFileDecodesToTheSameImage : Prop :=
  ∀ s t u v : State, s.Inv → s.QuietIo → s.host = [] → s.phase = .encHdr → s.stalled = false →
    step s = .next t → step t = .next u →
    v.Inv → v.QuietIo → v.host = [] → v.phase = .decHdr → v.stalled = false → v.cfg = s.cfg → v.inp = u.out →
    u.phase = .done ∧ ∃ v1 v2, step v = .next v1 ∧ step v1 = .next v2 ∧ v2.phase = .crop ∧
      v2.img = s.img ∧ v2.hdr = u.hdr

/-- 20_memory.md R70: a short write keeps exactly what the sink took, reports `OLEN` after it, and ends the run. -/
def Obligations.ShortWriteKeepsTheAcceptedBytes : Prop :=
  ∀ (s : State) (bs : List Byte) (cap : Nat), s.cfg.outCap = some cap → s.out.length ≤ cap →
    s.cfg.ioFault = [] → s.cfg.ioHang = [] → cap < s.out.length + bs.length →
    ∃ t, outWrite bs s = .stop t ∧
      t = { s with
            out := t.out, errKind := 3, errCause := 0x33, errInfo := BitVec.ofNat 32 cap, phase := .error } ∧
      t.out.length = cap ∧ s.out <+: t.out ∧ t.out <+: s.out ++ bs

/-- 60_exceptions.md R295, 93 U32, 44_pipeline.md R258: `OUT` after the step in which a run fails. Before `ENC_HDR` it is
empty. In `ENC_HDR` and `ENC_PIX` the error is an IOError, `OUT` is a proper prefix of the file that would have been
written, and besides `OUT`, the error registers, `PHASE` and the sizes encodeHeader computes nothing changes. That rows of
no bytes make no call that could fail is how the model has it of R70 and R184 (a) (log 25). -/
def Obligations.AFailedRunLeavesAProperPrefixOfTheFile : Prop :=
  ∀ s t : State, s.Inv → s.host = [] → s.stalled = false → s.phase ≠ .error → step s = .next t → t.phase = .error →
    let failed (h : Header) : State :=
      { s with hdr := h, out := t.out, errKind := 3, errCause := t.errCause, errInfo := t.errInfo, phase := .error }
    (s.phase ≠ .encHdr → s.phase ≠ .encPix → t.out = []) ∧
    (s.phase = .encHdr → t = failed (sizedHeader s.hdr) ∧ t.out <+: fileBytes (sizedHeader s.hdr) s.img ∧
      t.out ≠ fileBytes (sizedHeader s.hdr) s.img) ∧
    (s.phase = .encPix → t = failed s.hdr ∧ s.out <+: t.out ∧ t.out <+: fileBytes s.hdr s.img ∧
      t.out ≠ fileBytes s.hdr s.img)

/-- 93 U33, 44_pipeline.md R259, in the form of log 5: a listed call does not return, and records no error; a step in which
a call does not return leaves PHASE, `BUSY` and the error registers as they are; from then on so does every step, of the
core and of the host, until a reset. -/
def Obligations.ACallThatNeverReturnsHoldsTheRunUntilReset : Prop :=
  ∀ s : State,
    let held (t : State) : Prop := t.stalled = true ∧ t.phase = s.phase ∧ t.busy = true ∧ t.errKind = s.errKind ∧
      t.errCause = s.errCause ∧ t.errInfo = s.errInfo
    ((∀ n, ⟨.read, s.ipos, n⟩ ∈ s.cfg.ioHang → inRead n s = .stop { s with stalled := true }) ∧
      (∀ o, ⟨.seek, o, 0⟩ ∈ s.cfg.ioHang → inSeek o s = .stop { s with stalled := true }) ∧
      ∀ bs, ⟨.write, s.out.length, bs.length⟩ ∈ s.cfg.ioHang → outWrite bs s = .stop { s with stalled := true }) ∧
    (∀ t, s.host = [] → s.stalled = false → step s = .next t → t.stalled = true → held t) ∧
    (s.stalled = true → s.host = [] → step s = .next s) ∧
    (s.stalled = true → s.busy = true → ∀ t, step s = .next t →
      held t ∨ ∃ m rest, s.host = m :: rest ∧ m.resets = true ∧ t = resetCore { s with host := rest })

/-- 20_memory.md R72, R68 to R70: a call the oracle fails raises its IOError with the call's position before anything is
read or written, whatever the length. -/
def Obligations.OracleFailureIsReportedFirst : Prop :=
  ∀ (s : State) (n o : Nat) (bs : List Byte), s.cfg.ioHang = [] →
    let raised (code : BitVec 8) (pos : Nat) : State :=
      { s with errKind := 3, errCause := code, errInfo := BitVec.ofNat 32 pos, phase := .error }
    (⟨.read, s.ipos, n⟩ ∈ s.cfg.ioFault → inRead n s = .stop (raised 0x34 s.ipos)) ∧
    (⟨.seek, o, 0⟩ ∈ s.cfg.ioFault → inSeek o s = .stop (raised 0x32 o)) ∧
    (⟨.write, s.out.length, bs.length⟩ ∈ s.cfg.ioFault → outWrite bs s = .stop (raised 0x34 s.out.length))

/-! ### The pipeline -/

/-- A step runs the decoded command: in the phase of its class, with no host move pending, the step is the command's
meaning, which itself moves `OPIDX` past the command (44_pipeline.md R257, 10_state.md R34). -/
def Obligations.StepExecutesTheFetchedCommand : Prop :=
  ∀ (s : State) (i : Instr) (rest : List Word), s.host = [] → s.stalled = false → s.phase = phaseOf i.cls →
    s.opIdx < s.cmdLen.toNat → fetch s s.opIdx = .command i rest → step s = exec i s

/-- The same from the words of `CMD`: where the words from `OPIDX` on are a command's encoding and end inside `CMDLEN`, the
step is that command (30_encoding.md R112, 44_pipeline.md R257). -/
def Obligations.StepExecutesTheEncodedCommand : Prop :=
  ∀ (s : State) (i : Instr), s.host = [] → s.stalled = false → s.phase = phaseOf i.cls → i.wellFormed = true →
    s.opIdx + i.words ≤ s.cmdLen.toNat →
    (∀ k w, (encode i)[k]? = some w → s.cmdWord (s.opIdx + k) = w) → step s = exec i s

/-- 44_pipeline.md R257: the walk of each executing phase: a command of the phase's class is executed, every other is
skipped, and at the end of the list the next phase begins. -/
def Obligations.ExecutingPhasesWalkTheList : Prop :=
  ∀ (s : State) (k : CmdClass) (p q : Phase),
    (p, k, q) ∈ [(Phase.crop, CmdClass.crop, Phase.mirror), (.mirror, .mirror, .rotate),
      (.rotate, .rotate, .resync), (.filter, .filter, .encHdr)] →
    s.host = [] → s.stalled = false → s.phase = p →
    (s.cmdLen.toNat ≤ s.opIdx → step s = .next { s with phase := q, opIdx := 0 }) ∧
    ∀ (i : Instr) (rest : List Word), s.opIdx < s.cmdLen.toNat → fetch s s.opIdx = .command i rest →
      (i.cls = k → step s = exec i s) ∧
      (i.cls ≠ k → step s = .next { s with opIdx := s.opIdx + i.words })

/-- 44_pipeline.md R253: VALIDATE reports an empty list, or the first word that is no command, or a command cut short, at
its word index; a list of whole commands passes; nothing else changes. -/
def Obligations.ValidateReportsTheFirstOffender : Prop :=
  ∀ s : State, s.host = [] → s.stalled = false → s.phase = .validate →
    let raised (c : Cause) (n : Nat) : State :=
      { s with opIdx := n, errKind := 4, errCause := c.code, errInfo := BitVec.ofNat 32 n, phase := .error }
    (s.cmdLen = 0 → step s = .next { s with
      errKind := 4, errCause := Cause.emptyList.code, errInfo := 0, phase := .error }) ∧
    ∀ is : List Instr, (∀ i ∈ is, i.wellFormed = true) →
      (is ≠ [] → s.programWords = is.flatMap encode → step s = .next { s with opIdx := 0, phase := .decHdr }) ∧
      (∀ w rest, w ∉ commandWords → s.programWords = is.flatMap encode ++ w :: rest →
        step s = .next (raised .unknownToken (is.flatMap encode).length)) ∧
      (∀ i n, i.wellFormed = true → 0 < n → n < i.words →
        s.programWords = is.flatMap encode ++ (encode i).take n →
        step s = .next (raised .truncatedCommand (is.flatMap encode).length))

/-- 44_pipeline.md R262: RESYNC copies the Image's size into the Header and does nothing else. -/
def Obligations.ResyncCopiesTheImageSize : Prop :=
  ∀ s : State, s.host = [] → s.stalled = false → s.phase = .resync →
    ∃ t, step s = .next t ∧
      t = { s with
            hdr := { s.hdr with width := t.hdr.width, height := t.hdr.height }, phase := .filter, opIdx := 0 } ∧
      (s.img.w < 2 ^ 31 → t.hdr.width.toInt = s.img.w) ∧ (s.img.h < 2 ^ 31 → t.hdr.height.toInt = s.img.h)

/-- The invariant holds after power-on (10_state.md R44). -/
def Obligations.InvariantHoldsAtReset : Prop := State.reset.Inv

/-- Every step keeps the invariant (10_state.md R29 to R34, R38; 44_pipeline.md R258, R264): from any state that meets it,
not only from reset. -/
def Obligations.EveryStepKeepsTheInvariant : Prop :=
  ∀ s t : State, s.Inv → step s = .next t → t.Inv

/-- From a state that meets the invariant no step faults or refuses: the defects of 20_memory.md R64, 45_arithmetic.md
R272 and 30_encoding.md R112 do not occur. -/
def Obligations.NoStepStopsUnderTheInvariant : Prop :=
  ∀ s : State, s.Inv → ∃ t, step s = .next t

/-- 44_pipeline.md R259: when every collaborator call returns, a run reaches `DONE` or `ERROR`, within four walks of the
list and ten more steps. -/
def Obligations.EveryRunEnds : Prop :=
  ∀ s : State, s.Inv → s.host = [] → s.cfg.ioHang = [] → s.stalled = false → s.busy = true →
    ∃ (n : Nat) (t : State), n ≤ 4 * s.cmdLen.toNat + 10 ∧ Host.Core.run Sys2Proof.core n s = .next t ∧ t.ended

/-- 44_pipeline.md R265: the phase machine computes the function `Run`: from VALIDATE on, a legal list ends in `DONE` with
the Header, Image and bytes of the function, or in `ERROR` with its error and no byte written. -/
def Obligations.TheRunIsTheFunction : Prop :=
  ∀ (s : State) (is : List Instr), s.Inv → s.QuietIo → s.host = [] → s.phase = .validate → is ≠ [] →
    (∀ i ∈ is, i.wellFormed = true) → s.programWords = is.flatMap encode →
    ∃ (n : Nat) (t : State), Host.Core.run Sys2Proof.core n s = .next t ∧
      (∀ r, runFunction s.cfg s.inp is = .ok r →
        t.phase = .done ∧ t.hdr = r.hdr ∧ t.img = r.img ∧ t.out = r.out ∧ t.errKind = 0) ∧
      (∀ c v, runFunction s.cfg s.inp is = .error (c, v) →
        t.phase = .error ∧ t.errKind = c.kind.code ∧ t.errCause = c.code ∧ t.errInfo = v ∧ t.out = [])

/-- 44_pipeline.md R256: the order in which the host lists commands of different classes has no effect: two lists with the
same crops, mirrors, rotations and filters, each in its order, end with the same bytes or the same error. -/
def Obligations.OrderAcrossClassesHasNoEffect : Prop :=
  ∀ (s s' : State) (is is' : List Instr), s.Inv → s'.Inv → s.QuietIo → s.host = [] → s'.host = [] →
    s.phase = .validate → s'.phase = .validate → s.cfg = s'.cfg → s.inp = s'.inp → is ≠ [] → is' ≠ [] →
    (∀ i ∈ is, i.wellFormed = true) → (∀ i ∈ is', i.wellFormed = true) →
    s.programWords = is.flatMap encode → s'.programWords = is'.flatMap encode →
    (∀ k, ofClass k is = ofClass k is') →
    ∃ (n n' : Nat) (t t' : State), Host.Core.run Sys2Proof.core n s = .next t ∧
      Host.Core.run Sys2Proof.core n' s' = .next t' ∧ t.ended ∧ t.phase = t'.phase ∧ t.out = t'.out ∧
      t.errKind = t'.errKind ∧ t.errCause = t'.errCause ∧ t.errInfo = t'.errInfo ∧
      (t.phase = .done → t.hdr = t'.hdr ∧ t.img = t'.img)

/-- 10_state.md R42, 20_memory.md R62: no step, of the core or of the host, changes the configuration or `IN` (log 21). -/
def Obligations.ParametersNeverChange : Prop :=
  ∀ s t : State, step s = .next t → t.cfg = s.cfg ∧ t.inp = s.inp

/-- 20_memory.md R63, 10_state.md R39: `OUT` is append-only: every step extends it, but for START and a reset, which empty
it. -/
def Obligations.OutputIsAppendOnly : Prop :=
  ∀ s t : State, step s = .next t →
    s.out <+: t.out ∨ t.out = [] ∧ ∃ m rest, s.host = m :: rest ∧ (m.resets = true ∨ m.starts = true)
end

