-- ==== Sys2Proof/Laws/State.lean ====
section
/-! SUPPORT. One lemma per field per named update of State, each true by rfl. -/

namespace Sys2Proof.Machine

/-! ### `skip` -/

@[simp] theorem skip_hdr (n : Nat) (s : State) : (skip n s).hdr = s.hdr := rfl
@[simp] theorem skip_img (n : Nat) (s : State) : (skip n s).img = s.img := rfl
@[simp] theorem skip_phase (n : Nat) (s : State) : (skip n s).phase = s.phase := rfl
@[simp] theorem skip_opIdx (n : Nat) (s : State) : (skip n s).opIdx = s.opIdx + n := rfl
@[simp] theorem skip_errKind (n : Nat) (s : State) : (skip n s).errKind = s.errKind := rfl
@[simp] theorem skip_errCause (n : Nat) (s : State) : (skip n s).errCause = s.errCause := rfl
@[simp] theorem skip_errInfo (n : Nat) (s : State) : (skip n s).errInfo = s.errInfo := rfl
@[simp] theorem skip_ipos (n : Nat) (s : State) : (skip n s).ipos = s.ipos := rfl
@[simp] theorem skip_out (n : Nat) (s : State) : (skip n s).out = s.out := rfl
@[simp] theorem skip_cmd (n : Nat) (s : State) : (skip n s).cmd = s.cmd := rfl
@[simp] theorem skip_cmdLen (n : Nat) (s : State) : (skip n s).cmdLen = s.cmdLen := rfl
@[simp] theorem skip_pixAddr (n : Nat) (s : State) : (skip n s).pixAddr = s.pixAddr := rfl
@[simp] theorem skip_cfg (n : Nat) (s : State) : (skip n s).cfg = s.cfg := rfl
@[simp] theorem skip_inp (n : Nat) (s : State) : (skip n s).inp = s.inp := rfl
@[simp] theorem skip_host (n : Nat) (s : State) : (skip n s).host = s.host := rfl
@[simp] theorem skip_rdata (n : Nat) (s : State) : (skip n s).rdata = s.rdata := rfl
@[simp] theorem skip_fresh (n : Nat) (s : State) : (skip n s).fresh = s.fresh := rfl
@[simp] theorem skip_epoch (n : Nat) (s : State) : (skip n s).epoch = s.epoch := rfl
@[simp] theorem skip_stalled (n : Nat) (s : State) : (skip n s).stalled = s.stalled := rfl

/-! ### `enter` -/

@[simp] theorem enter_hdr (p : Phase) (s : State) : (enter p s).hdr = s.hdr := rfl
@[simp] theorem enter_img (p : Phase) (s : State) : (enter p s).img = s.img := rfl
@[simp] theorem enter_phase (p : Phase) (s : State) : (enter p s).phase = p := rfl
@[simp] theorem enter_opIdx (p : Phase) (s : State) : (enter p s).opIdx = 0 := rfl
@[simp] theorem enter_errKind (p : Phase) (s : State) : (enter p s).errKind = s.errKind := rfl
@[simp] theorem enter_errCause (p : Phase) (s : State) : (enter p s).errCause = s.errCause := rfl
@[simp] theorem enter_errInfo (p : Phase) (s : State) : (enter p s).errInfo = s.errInfo := rfl
@[simp] theorem enter_ipos (p : Phase) (s : State) : (enter p s).ipos = s.ipos := rfl
@[simp] theorem enter_out (p : Phase) (s : State) : (enter p s).out = s.out := rfl
@[simp] theorem enter_cmd (p : Phase) (s : State) : (enter p s).cmd = s.cmd := rfl
@[simp] theorem enter_cmdLen (p : Phase) (s : State) : (enter p s).cmdLen = s.cmdLen := rfl
@[simp] theorem enter_pixAddr (p : Phase) (s : State) : (enter p s).pixAddr = s.pixAddr := rfl
@[simp] theorem enter_cfg (p : Phase) (s : State) : (enter p s).cfg = s.cfg := rfl
@[simp] theorem enter_inp (p : Phase) (s : State) : (enter p s).inp = s.inp := rfl
@[simp] theorem enter_host (p : Phase) (s : State) : (enter p s).host = s.host := rfl
@[simp] theorem enter_rdata (p : Phase) (s : State) : (enter p s).rdata = s.rdata := rfl
@[simp] theorem enter_fresh (p : Phase) (s : State) : (enter p s).fresh = s.fresh := rfl
@[simp] theorem enter_epoch (p : Phase) (s : State) : (enter p s).epoch = s.epoch := rfl
@[simp] theorem enter_stalled (p : Phase) (s : State) : (enter p s).stalled = s.stalled := rfl

/-! ### `raise` -/

@[simp] theorem raise_hdr (c : Cause) (v : Word) (s : State) : (raise c v s).hdr = s.hdr := rfl
@[simp] theorem raise_img (c : Cause) (v : Word) (s : State) : (raise c v s).img = s.img := rfl
@[simp] theorem raise_phase (c : Cause) (v : Word) (s : State) : (raise c v s).phase = .error := rfl
@[simp] theorem raise_opIdx (c : Cause) (v : Word) (s : State) : (raise c v s).opIdx = s.opIdx := rfl
@[simp] theorem raise_errKind (c : Cause) (v : Word) (s : State) : (raise c v s).errKind = c.kind.code := rfl
@[simp] theorem raise_errCause (c : Cause) (v : Word) (s : State) : (raise c v s).errCause = c.code := rfl
@[simp] theorem raise_errInfo (c : Cause) (v : Word) (s : State) : (raise c v s).errInfo = v := rfl
@[simp] theorem raise_ipos (c : Cause) (v : Word) (s : State) : (raise c v s).ipos = s.ipos := rfl
@[simp] theorem raise_out (c : Cause) (v : Word) (s : State) : (raise c v s).out = s.out := rfl
@[simp] theorem raise_cmd (c : Cause) (v : Word) (s : State) : (raise c v s).cmd = s.cmd := rfl
@[simp] theorem raise_cmdLen (c : Cause) (v : Word) (s : State) : (raise c v s).cmdLen = s.cmdLen := rfl
@[simp] theorem raise_pixAddr (c : Cause) (v : Word) (s : State) : (raise c v s).pixAddr = s.pixAddr := rfl
@[simp] theorem raise_cfg (c : Cause) (v : Word) (s : State) : (raise c v s).cfg = s.cfg := rfl
@[simp] theorem raise_inp (c : Cause) (v : Word) (s : State) : (raise c v s).inp = s.inp := rfl
@[simp] theorem raise_host (c : Cause) (v : Word) (s : State) : (raise c v s).host = s.host := rfl
@[simp] theorem raise_rdata (c : Cause) (v : Word) (s : State) : (raise c v s).rdata = s.rdata := rfl
@[simp] theorem raise_fresh (c : Cause) (v : Word) (s : State) : (raise c v s).fresh = s.fresh := rfl
@[simp] theorem raise_epoch (c : Cause) (v : Word) (s : State) : (raise c v s).epoch = s.epoch := rfl
@[simp] theorem raise_stalled (c : Cause) (v : Word) (s : State) : (raise c v s).stalled = s.stalled := rfl

/-! ### `stall` -/

@[simp] theorem stall_hdr (s : State) : (stall s).hdr = s.hdr := rfl
@[simp] theorem stall_img (s : State) : (stall s).img = s.img := rfl
@[simp] theorem stall_phase (s : State) : (stall s).phase = s.phase := rfl
@[simp] theorem stall_opIdx (s : State) : (stall s).opIdx = s.opIdx := rfl
@[simp] theorem stall_errKind (s : State) : (stall s).errKind = s.errKind := rfl
@[simp] theorem stall_errCause (s : State) : (stall s).errCause = s.errCause := rfl
@[simp] theorem stall_errInfo (s : State) : (stall s).errInfo = s.errInfo := rfl
@[simp] theorem stall_ipos (s : State) : (stall s).ipos = s.ipos := rfl
@[simp] theorem stall_out (s : State) : (stall s).out = s.out := rfl
@[simp] theorem stall_cmd (s : State) : (stall s).cmd = s.cmd := rfl
@[simp] theorem stall_cmdLen (s : State) : (stall s).cmdLen = s.cmdLen := rfl
@[simp] theorem stall_pixAddr (s : State) : (stall s).pixAddr = s.pixAddr := rfl
@[simp] theorem stall_cfg (s : State) : (stall s).cfg = s.cfg := rfl
@[simp] theorem stall_inp (s : State) : (stall s).inp = s.inp := rfl
@[simp] theorem stall_host (s : State) : (stall s).host = s.host := rfl
@[simp] theorem stall_rdata (s : State) : (stall s).rdata = s.rdata := rfl
@[simp] theorem stall_fresh (s : State) : (stall s).fresh = s.fresh := rfl
@[simp] theorem stall_epoch (s : State) : (stall s).epoch = s.epoch := rfl
@[simp] theorem stall_stalled (s : State) : (stall s).stalled = true := rfl

/-! ### `install` -/

@[simp] theorem install_hdr (m : Image) (n : Nat) (s : State) : (install m n s).hdr = s.hdr := rfl
@[simp] theorem install_img (m : Image) (n : Nat) (s : State) : (install m n s).img = m := rfl
@[simp] theorem install_phase (m : Image) (n : Nat) (s : State) : (install m n s).phase = s.phase := rfl
@[simp] theorem install_opIdx (m : Image) (n : Nat) (s : State) : (install m n s).opIdx = s.opIdx + n := rfl
@[simp] theorem install_errKind (m : Image) (n : Nat) (s : State) : (install m n s).errKind = s.errKind := rfl
@[simp] theorem install_errCause (m : Image) (n : Nat) (s : State) : (install m n s).errCause = s.errCause := rfl
@[simp] theorem install_errInfo (m : Image) (n : Nat) (s : State) : (install m n s).errInfo = s.errInfo := rfl
@[simp] theorem install_ipos (m : Image) (n : Nat) (s : State) : (install m n s).ipos = s.ipos := rfl
@[simp] theorem install_out (m : Image) (n : Nat) (s : State) : (install m n s).out = s.out := rfl
@[simp] theorem install_cmd (m : Image) (n : Nat) (s : State) : (install m n s).cmd = s.cmd := rfl
@[simp] theorem install_cmdLen (m : Image) (n : Nat) (s : State) : (install m n s).cmdLen = s.cmdLen := rfl
@[simp] theorem install_pixAddr (m : Image) (n : Nat) (s : State) : (install m n s).pixAddr = s.pixAddr := rfl
@[simp] theorem install_cfg (m : Image) (n : Nat) (s : State) : (install m n s).cfg = s.cfg := rfl
@[simp] theorem install_inp (m : Image) (n : Nat) (s : State) : (install m n s).inp = s.inp := rfl
@[simp] theorem install_host (m : Image) (n : Nat) (s : State) : (install m n s).host = s.host := rfl
@[simp] theorem install_rdata (m : Image) (n : Nat) (s : State) : (install m n s).rdata = s.rdata := rfl
@[simp] theorem install_fresh (m : Image) (n : Nat) (s : State) : (install m n s).fresh = s.fresh := rfl
@[simp] theorem install_epoch (m : Image) (n : Nat) (s : State) : (install m n s).epoch = s.epoch := rfl
@[simp] theorem install_stalled (m : Image) (n : Nat) (s : State) : (install m n s).stalled = s.stalled := rfl

/-! ### `acceptBytes` -/

@[simp] theorem acceptBytes_hdr (bs : List Byte) (s : State) : (acceptBytes bs s).hdr = s.hdr := rfl
@[simp] theorem acceptBytes_img (bs : List Byte) (s : State) : (acceptBytes bs s).img = s.img := rfl
@[simp] theorem acceptBytes_phase (bs : List Byte) (s : State) : (acceptBytes bs s).phase = s.phase := rfl
@[simp] theorem acceptBytes_opIdx (bs : List Byte) (s : State) : (acceptBytes bs s).opIdx = s.opIdx := rfl
@[simp] theorem acceptBytes_errKind (bs : List Byte) (s : State) : (acceptBytes bs s).errKind = s.errKind := rfl
@[simp] theorem acceptBytes_errCause (bs : List Byte) (s : State) : (acceptBytes bs s).errCause = s.errCause := rfl
@[simp] theorem acceptBytes_errInfo (bs : List Byte) (s : State) : (acceptBytes bs s).errInfo = s.errInfo := rfl
@[simp] theorem acceptBytes_ipos (bs : List Byte) (s : State) : (acceptBytes bs s).ipos = s.ipos := rfl
@[simp] theorem acceptBytes_out (bs : List Byte) (s : State) : (acceptBytes bs s).out = s.out ++ bs := rfl
@[simp] theorem acceptBytes_cmd (bs : List Byte) (s : State) : (acceptBytes bs s).cmd = s.cmd := rfl
@[simp] theorem acceptBytes_cmdLen (bs : List Byte) (s : State) : (acceptBytes bs s).cmdLen = s.cmdLen := rfl
@[simp] theorem acceptBytes_pixAddr (bs : List Byte) (s : State) : (acceptBytes bs s).pixAddr = s.pixAddr := rfl
@[simp] theorem acceptBytes_cfg (bs : List Byte) (s : State) : (acceptBytes bs s).cfg = s.cfg := rfl
@[simp] theorem acceptBytes_inp (bs : List Byte) (s : State) : (acceptBytes bs s).inp = s.inp := rfl
@[simp] theorem acceptBytes_host (bs : List Byte) (s : State) : (acceptBytes bs s).host = s.host := rfl
@[simp] theorem acceptBytes_rdata (bs : List Byte) (s : State) : (acceptBytes bs s).rdata = s.rdata := rfl
@[simp] theorem acceptBytes_fresh (bs : List Byte) (s : State) : (acceptBytes bs s).fresh = s.fresh := rfl
@[simp] theorem acceptBytes_epoch (bs : List Byte) (s : State) : (acceptBytes bs s).epoch = s.epoch := rfl
@[simp] theorem acceptBytes_stalled (bs : List Byte) (s : State) : (acceptBytes bs s).stalled = s.stalled := rfl

/-! ### `startRun` -/

@[simp] theorem startRun_hdr (s : State) : (startRun s).hdr = {} := rfl
@[simp] theorem startRun_img (s : State) : (startRun s).img = {} := rfl
@[simp] theorem startRun_phase (s : State) : (startRun s).phase = .validate := rfl
@[simp] theorem startRun_opIdx (s : State) : (startRun s).opIdx = 0 := rfl
@[simp] theorem startRun_errKind (s : State) : (startRun s).errKind = 0 := rfl
@[simp] theorem startRun_errCause (s : State) : (startRun s).errCause = 0 := rfl
@[simp] theorem startRun_errInfo (s : State) : (startRun s).errInfo = 0 := rfl
@[simp] theorem startRun_ipos (s : State) : (startRun s).ipos = 0 := rfl
@[simp] theorem startRun_out (s : State) : (startRun s).out = [] := rfl
@[simp] theorem startRun_cmd (s : State) : (startRun s).cmd = s.cmd := rfl
@[simp] theorem startRun_cmdLen (s : State) : (startRun s).cmdLen = s.cmdLen := rfl
@[simp] theorem startRun_pixAddr (s : State) : (startRun s).pixAddr = s.pixAddr := rfl
@[simp] theorem startRun_cfg (s : State) : (startRun s).cfg = s.cfg := rfl
@[simp] theorem startRun_inp (s : State) : (startRun s).inp = s.inp := rfl
@[simp] theorem startRun_host (s : State) : (startRun s).host = s.host := rfl
@[simp] theorem startRun_rdata (s : State) : (startRun s).rdata = s.rdata := rfl
@[simp] theorem startRun_fresh (s : State) : (startRun s).fresh = s.fresh := rfl
@[simp] theorem startRun_epoch (s : State) : (startRun s).epoch = s.epoch := rfl
@[simp] theorem startRun_stalled (s : State) : (startRun s).stalled = false := rfl

/-! ### `resetCore` -/

@[simp] theorem resetCore_hdr (s : State) : (resetCore s).hdr = {} := rfl
@[simp] theorem resetCore_img (s : State) : (resetCore s).img = {} := rfl
@[simp] theorem resetCore_phase (s : State) : (resetCore s).phase = .idle := rfl
@[simp] theorem resetCore_opIdx (s : State) : (resetCore s).opIdx = 0 := rfl
@[simp] theorem resetCore_errKind (s : State) : (resetCore s).errKind = 0 := rfl
@[simp] theorem resetCore_errCause (s : State) : (resetCore s).errCause = 0 := rfl
@[simp] theorem resetCore_errInfo (s : State) : (resetCore s).errInfo = 0 := rfl
@[simp] theorem resetCore_ipos (s : State) : (resetCore s).ipos = 0 := rfl
@[simp] theorem resetCore_out (s : State) : (resetCore s).out = [] := rfl
@[simp] theorem resetCore_cmd (s : State) : (resetCore s).cmd = [] := rfl
@[simp] theorem resetCore_cmdLen (s : State) : (resetCore s).cmdLen = 0 := rfl
@[simp] theorem resetCore_pixAddr (s : State) : (resetCore s).pixAddr = 0 := rfl
@[simp] theorem resetCore_cfg (s : State) : (resetCore s).cfg = s.cfg := rfl
@[simp] theorem resetCore_inp (s : State) : (resetCore s).inp = s.inp := rfl
@[simp] theorem resetCore_host (s : State) : (resetCore s).host = s.host := rfl
@[simp] theorem resetCore_rdata (s : State) : (resetCore s).rdata = s.rdata := rfl
@[simp] theorem resetCore_fresh (s : State) : (resetCore s).fresh = s.fresh := rfl
@[simp] theorem resetCore_epoch (s : State) : (resetCore s).epoch = s.epoch + 1 := rfl
@[simp] theorem resetCore_stalled (s : State) : (resetCore s).stalled = false := rfl

end Sys2Proof.Machine
end

