-- ==== Sys2Proof/Laws/Image.lean ====
section
/-! SUPPORT. The Image: the pixel of a built image, extensionality, and what each geometric function gives pixel by pixel. -/

namespace Sys2Proof.Machine

/-- The flat index of an in-range position is in range (20_memory.md R64). -/
theorem index_lt {w h x y : Nat} (hx : x < w) (hy : y < h) : y * w + x < w * h := by
  have : (y + 1) * w ≤ h * w := Nat.mul_le_mul_right w hy
  rw [Nat.add_mul] at this
  rw [Nat.mul_comm w h]
  omega

@[simp] theorem Image.build_w (w h : Nat) (f : Nat → Nat → Pixel) : (Image.build w h f).w = w := rfl
@[simp] theorem Image.build_h (w h : Nat) (f : Nat → Nat → Pixel) : (Image.build w h f).h = h := rfl

@[simp] theorem Image.build_length (w h : Nat) (f : Nat → Nat → Pixel) : (Image.build w h f).pix.length = w * h := by
  simp [Image.build, List.length_flatMap, Nat.mul_comm]

theorem Image.build_wf (w h : Nat) (f : Nat → Nat → Pixel) : (Image.build w h f).wf := Image.build_length w h f

/-- The rows laid end to end, indexed. -/
theorem flatRows_get (w h : Nat) (f : Nat → Nat → Pixel) {x y : Nat} (hx : x < w) (hy : y < h) :
    ((List.range h).flatMap fun y => (List.range w).map fun x => f x y)[y * w + x]? = some (f x y) := by
  induction h with
  | zero => omega
  | succ h ih =>
    have hlen : ((List.range h).flatMap fun y => (List.range w).map fun x => f x y).length = w * h :=
      Image.build_length w h f
    rw [List.range_succ, List.flatMap_append]
    by_cases hyh : y < h
    · rw [List.getElem?_append_left (by rw [hlen]; exact index_lt hx hyh)]
      exact ih hyh
    · obtain rfl : y = h := by omega
      have hle : w * y ≤ y * w + x := by rw [Nat.mul_comm]; omega
      have hsub : y * w + x - w * y = x := by rw [Nat.mul_comm w y]; omega
      rw [List.getElem?_append_right (by rw [hlen]; exact hle), hlen, hsub]
      simp [hx]

/-- The pixel of a built image is the function's value there. -/
@[simp] theorem Image.get_build {w h : Nat} {f : Nat → Nat → Pixel} {x y : Nat} (hx : x < w) (hy : y < h) :
    (Image.build w h f).get x y = f x y := by
  simp only [Image.get, Image.build_w, List.getD_eq_getElem?_getD]
  have : (Image.build w h f).pix[y * w + x]? = some (f x y) := flatRows_get w h f hx hy
  rw [this]
  rfl

/-- Two well-formed images of one size with the same pixels are equal. -/
theorem Image.ext_get {m n : Image} (hm : m.wf) (hn : n.wf) (hw : m.w = n.w) (hh : m.h = n.h)
    (hget : ∀ x y, x < m.w → y < m.h → m.get x y = n.get x y) : m = n := by
  obtain ⟨w, h, p⟩ := m
  obtain ⟨w', h', q⟩ := n
  obtain rfl : w = w' := hw
  obtain rfl : h = h' := hh
  have hlen : p.length = q.length := hm.trans hn.symm
  congr 1
  refine List.ext_getElem hlen fun i hi hi' => ?_
  have hwpos : 0 < w := by
    rcases Nat.eq_zero_or_pos w with rfl | h0
    · simp only [Image.wf, Nat.zero_mul] at hm; omega
    · exact h0
  have hdiv : i / w < h := by
    apply Nat.div_lt_of_lt_mul
    have : p.length = w * h := hm
    omega
  have hmod : i % w < w := Nat.mod_lt _ hwpos
  have := hget (i % w) (i / w) hmod hdiv
  simp only [Image.get] at this
  rw [Nat.div_add_mod' i w] at this
  simpa [List.getD_eq_getElem?_getD, List.getElem?_eq_getElem hi, List.getElem?_eq_getElem hi'] using this

/-- A well-formed image is the one built from its own pixels. -/
theorem Image.build_get {m : Image} (h : m.wf) : Image.build m.w m.h (fun x y => m.get x y) = m :=
  Image.ext_get (Image.build_wf ..) h rfl rfl fun _ _ hx hy => Image.get_build hx hy

@[simp] theorem Image.mapPix_w (f : Pixel → Pixel) (m : Image) : (m.mapPix f).w = m.w := rfl
@[simp] theorem Image.mapPix_h (f : Pixel → Pixel) (m : Image) : (m.mapPix f).h = m.h := rfl

theorem Image.mapPix_wf {m : Image} (h : m.wf) (f : Pixel → Pixel) : (m.mapPix f).wf := by
  simpa [Image.wf, Image.mapPix] using h

theorem Image.get_mapPix {m : Image} (h : m.wf) (f : Pixel → Pixel) {x y : Nat} (hx : x < m.w) (hy : y < m.h) :
    (m.mapPix f).get x y = f (m.get x y) := by
  have hi : y * m.w + x < m.pix.length := by rw [h]; exact index_lt hx hy
  simp [Image.get, Image.mapPix, List.getD_eq_getElem?_getD, List.getElem?_eq_getElem hi]

@[simp] theorem Image.rect_w (m : Image) (ox oy cw ch : Nat) : (m.rect ox oy cw ch).w = cw := rfl
@[simp] theorem Image.rect_h (m : Image) (ox oy cw ch : Nat) : (m.rect ox oy cw ch).h = ch := rfl

theorem Image.rect_wf (m : Image) (ox oy cw ch : Nat) : (m.rect ox oy cw ch).wf := Image.build_wf ..

theorem Image.get_rect (m : Image) (ox oy : Nat) {cw ch x y : Nat} (hx : x < cw) (hy : y < ch) :
    (m.rect ox oy cw ch).get x y = m.get (ox + x) (oy + y) := Image.get_build hx hy

/-- The whole rectangle of a well-formed image is the image (42_geometric.md R208). -/
theorem Image.rect_whole {m : Image} (h : m.wf) : m.rect 0 0 m.w m.h = m := by
  simpa [Image.rect] using Image.build_get h

end Sys2Proof.Machine
end

