-- ==== Sys2Proof/Laws/Io.lean ====
section
/-! SUPPORT. The stream primitives: everything one call can do, sequencing, and the calls of a collaborator that never fails. -/

namespace Sys2Proof.Machine

/-- A sequence of calls ends well with `P`, or ends the step with `Q`. -/
def Io.Ends {α : Type} (x : Io α) (P : α → State → Prop) (Q : State → Prop) : Prop :=
  match x with
  | .ok a s => P a s
  | .stop s => Q s

theorem Io.Ends.bind {α β : Type} {x : Io α} {f : α → State → Io β} {P : α → State → Prop} {R : β → State → Prop}
    {Q : State → Prop} (hx : x.Ends P Q) (hf : ∀ a s, P a s → (f a s).Ends R Q) : (x.bind f).Ends R Q := by
  cases x with
  | ok a s => exact hf a s hx
  | stop s => exact hx

theorem Io.Ends.mono {α : Type} {x : Io α} {P P' : α → State → Prop} {Q Q' : State → Prop} (hx : x.Ends P Q)
    (hp : ∀ a s, P a s → P' a s) (hq : ∀ s, Q s → Q' s) : x.Ends P' Q' := by
  cases x with
  | ok a s => exact hp a s hx
  | stop s => exact hq s hx

/-- What the step comes to. -/
theorem Io.Ends.finish {x : Io Unit} {P : Unit → State → Prop} {Q R : State → Prop} {after : State → State}
    (hx : x.Ends P Q) (hp : ∀ s, P () s → R (after s)) (hq : ∀ s, Q s → R s) : R (x.finish after) := by
  cases x with
  | ok a s => exact hp s hx
  | stop s => exact hq s hx

@[simp] theorem Io.bind_ok {α β : Type} (a : α) (s : State) (f : α → State → Io β) : (Io.ok a s).bind f = f a s := rfl
@[simp] theorem Io.bind_stop {α β : Type} (s : State) (f : α → State → Io β) : (Io.stop s).bind f = .stop s := rfl
@[simp] theorem Io.finish_ok (s : State) (after : State → State) : (Io.ok () s).finish after = after s := rfl
@[simp] theorem Io.finish_stop (s : State) (after : State → State) : (Io.stop s).finish after = s := rfl

theorem Io.bind_assoc {α β γ : Type} (x : Io α) (f : α → State → Io β) (g : β → State → Io γ) :
    (x.bind f).bind g = x.bind fun a s => (f a s).bind g := by
  cases x <;> rfl

/-- One call: it stalls, fails by the oracle, or runs (20_memory.md R72, 93 U33). -/
theorem ioCall_cases {α : Type} (kind : IoKind) (pos n : Nat) (failure : Cause) (body : State → Io α) (s : State) :
    ((⟨kind, pos, n⟩ : IoCall) ∈ s.cfg.ioHang ∧ ioCall kind pos n failure body s = .stop (stall s)) ∨
      ((⟨kind, pos, n⟩ : IoCall) ∈ s.cfg.ioFault ∧
        ioCall kind pos n failure body s = .stop (raise failure (infoOfNat pos) s)) ∨
      ioCall kind pos n failure body s = body s := by
  unfold ioCall
  split
  · next h => exact .inl ⟨h, rfl⟩
  · split
    · next h => exact .inr (.inl ⟨h, rfl⟩)
    · exact .inr (.inr rfl)

/-- A collaborator that never fails and always returns. -/
theorem ioCall_quiet {α : Type} {s : State} (hf : s.cfg.ioFault = []) (hh : s.cfg.ioHang = []) (kind : IoKind)
    (pos n : Nat) (failure : Cause) (body : State → Io α) : ioCall kind pos n failure body s = body s := by
  simp [ioCall, hf, hh]

/-- Everything `InRead` can do (20_memory.md R68). A call that stalls is one of the calls that never return. -/
theorem inRead_cases (n : Nat) (s : State) :
    (s.cfg.ioHang ≠ [] ∧ inRead n s = .stop (stall s)) ∨
      (∃ c : Cause, c.kind = .ioError ∧ inRead n s = .stop (raise c (infoOfNat s.ipos) s)) ∨
      (s.ipos + n ≤ s.inp.length ∧
        inRead n s = .ok ((s.inp.drop s.ipos).take n) { s with ipos := s.ipos + n }) := by
  unfold inRead
  rcases ioCall_cases .read s.ipos n .streamClosed (fun s =>
    if s.ipos + n > s.inp.length then .stop (raise .shortRead (infoOfNat s.ipos) s)
    else .ok ((s.inp.drop s.ipos).take n) { s with ipos := s.ipos + n }) s with ⟨h, e⟩ | ⟨-, e⟩ | e
  · exact .inl ⟨List.ne_nil_of_mem h, e⟩
  · exact .inr (.inl ⟨.streamClosed, rfl, e⟩)
  · rw [e]
    split
    · exact .inr (.inl ⟨.shortRead, rfl, rfl⟩)
    · next h => exact .inr (.inr ⟨by omega, rfl⟩)

/-- Everything `InSeek` can do (20_memory.md R69). -/
theorem inSeek_cases (o : Nat) (s : State) :
    (s.cfg.ioHang ≠ [] ∧ inSeek o s = .stop (stall s)) ∨
      inSeek o s = .stop (raise .seekFail (infoOfNat o) s) ∨
      (o ≤ s.inp.length ∧ inSeek o s = .ok () { s with ipos := o }) := by
  unfold inSeek
  rcases ioCall_cases .seek o 0 .seekFail (fun s =>
    if o > s.inp.length then .stop (raise .seekFail (infoOfNat o) s)
    else .ok () { s with ipos := o }) s with ⟨h, e⟩ | ⟨-, e⟩ | e
  · exact .inl ⟨List.ne_nil_of_mem h, e⟩
  · exact .inr (.inl e)
  · rw [e]
    split
    · exact .inr (.inl rfl)
    · next h => exact .inr (.inr ⟨by omega, rfl⟩)

/-- `OUT` does not exceed the sink (20_memory.md R60). -/
def SinkHolds (s : State) : Prop := ∀ cap, s.cfg.outCap = some cap → s.out.length ≤ cap

/-- Everything `OutWrite` can do (20_memory.md R70): it stalls, fails with a prefix of the bytes taken (never all of them,
if there are any) and the sink not exceeded, or takes all of them. -/
theorem outWrite_cases (bs : List Byte) (s : State) :
    (s.cfg.ioHang ≠ [] ∧ outWrite bs s = .stop (stall s)) ∨
      (∃ (c : Cause) (v : Word) (k : Nat), c.kind = .ioError ∧
        outWrite bs s = .stop (raise c v (acceptBytes (bs.take k) s)) ∧
        (SinkHolds s → SinkHolds (acceptBytes (bs.take k) s)) ∧
        (bs ≠ [] → (bs.take k).length < bs.length)) ∨
      (fitsCap s.cfg.outCap s.out.length bs.length = true ∧ outWrite bs s = .ok () (acceptBytes bs s)) := by
  unfold outWrite
  rcases ioCall_cases .write s.olen bs.length .streamClosed (fun s =>
    if fitsCap s.cfg.outCap s.olen bs.length then .ok () (acceptBytes bs s)
    else
      let t := acceptBytes (bs.take (roomLeft s.cfg.outCap s.olen)) s
      .stop (raise .shortWrite (infoOfNat t.olen) t)) s with ⟨h, e⟩ | ⟨-, e⟩ | e
  · exact .inl ⟨List.ne_nil_of_mem h, e⟩
  · refine .inr (.inl ⟨.streamClosed, infoOfNat s.olen, 0, rfl, ?_, ?_, ?_⟩)
    · rw [e]; simp [acceptBytes]
    · intro h; simpa [acceptBytes] using h
    · intro h; simpa using List.length_pos_of_ne_nil h
  · rw [e]
    split
    · next h => exact .inr (.inr ⟨h, rfl⟩)
    · next h =>
      cases hc : s.cfg.outCap with
      | none => rw [hc] at h; exact absurd rfl h
      | some cap =>
        have hfull : cap < s.out.length + bs.length := by
          rw [hc] at h
          exact not_le.1 fun hle => h (decide_eq_true hle)
        refine .inr (.inl ⟨.shortWrite, _, roomLeft (some cap) s.olen, rfl, rfl, fun hs cap' hc' => ?_, fun hne => ?_⟩)
        · have hl := hs cap hc
          obtain rfl : cap = cap' := Option.some.inj (hc.symm.trans hc')
          simp only [acceptBytes, roomLeft, State.olen, List.length_append, List.length_take]
          omega
        · have hpos := List.length_pos_of_ne_nil hne
          simp only [roomLeft, State.olen, List.length_take]
          omega

/-- `InRead` of a collaborator that never fails. -/
theorem inRead_quiet {s : State} (hf : s.cfg.ioFault = []) (hh : s.cfg.ioHang = []) (n : Nat) :
    inRead n s =
      if s.ipos + n > s.inp.length then .stop (raise .shortRead (infoOfNat s.ipos) s)
      else .ok ((s.inp.drop s.ipos).take n) { s with ipos := s.ipos + n } := ioCall_quiet hf hh ..

/-- `InSeek` of a collaborator that never fails. -/
theorem inSeek_quiet {s : State} (hf : s.cfg.ioFault = []) (hh : s.cfg.ioHang = []) {o : Nat}
    (h : o ≤ s.inp.length) : inSeek o s = .ok () { s with ipos := o } := by
  unfold inSeek
  rw [ioCall_quiet hf hh, if_neg (by omega)]

/-- `OutWrite` of a collaborator that never fails into an unbounded sink. -/
theorem outWrite_quiet {s : State} (hf : s.cfg.ioFault = []) (hh : s.cfg.ioHang = []) (hc : s.cfg.outCap = none)
    (bs : List Byte) : outWrite bs s = .ok () (acceptBytes bs s) := by
  unfold outWrite
  rw [ioCall_quiet hf hh, hc]
  rfl

/-- The same for `writeSome`. -/
theorem writeSome_quiet {s : State} (hf : s.cfg.ioFault = []) (hh : s.cfg.ioHang = []) (hc : s.cfg.outCap = none)
    (bs : List Byte) : writeSome bs s = .ok () (acceptBytes bs s) := by
  unfold writeSome
  split
  · next h => simp [h, acceptBytes]
  · exact outWrite_quiet hf hh hc bs

end Sys2Proof.Machine
end

