-- ==== Sys2Proof/Laws/Codec.lean ====
section
/-! SUPPORT. The codecs: little-endian fields, the stride, and everything decodeHeader, decodePixels, encodeHeader and encodePixels can do. -/

namespace Sys2Proof.Machine

/-! ### Little-endian fields (00_scope.md R15) -/

@[simp] theorem toLe_length (k v : Nat) : (toLe k v).length = k := by
  induction k generalizing v with
  | zero => rfl
  | succ k ih => simp [toLe, ih]

/-- The value of the bytes of a value is the value modulo the field's width. -/
theorem leNat_toLe (k v : Nat) : leNat (toLe k v) = v % 256 ^ k := by
  induction k generalizing v with
  | zero => simp [toLe, leNat, Nat.mod_one]
  | succ k ih =>
    have h := Nat.mod_mul (x := v) (a := 256) (b := 256 ^ k)
    rw [toLe, leNat, ih, BitVec.toNat_ofNat, Nat.pow_succ' (n := k), h]

theorem le32_toLe (w : Word) : le32 (toLe 4 w.toNat) = w := by
  have h := w.isLt
  apply BitVec.eq_of_toNat_eq
  rw [le32, leNat_toLe, BitVec.toNat_ofNat]
  omega

/-! ### The stride (40_header_codec.md R157, 41_pixel_codec.md R171) -/

theorem strideBits_24 (w : Nat) : strideBits 24 w = strideOf w := by
  unfold strideBits strideOf; omega

theorem strideOf_eq (w : Nat) : strideOf w = 3 * w + w % 4 := by
  unfold strideOf; omega

theorem le_strideOf (w : Nat) : 3 * w ≤ strideOf w := by
  rw [strideOf_eq]; omega

/-- "every size the rules compute fits an unsigned 32-bit word without wrap" (00_scope.md R12). -/
theorem rows_fit {w h : Nat} (hw : w ≤ 32767) (hh : h ≤ 32767) : strideOf w * h ≤ 3221127168 := by
  have hs : strideOf w ≤ 98304 := by rw [strideOf_eq]; omega
  calc strideOf w * h ≤ 98304 * 32767 := Nat.mul_le_mul hs hh
    _ = 3221127168 := by norm_num

/-! ### decodeHeader (40_header_codec.md R143) -/

/-- The state after `n` bytes of the header have been read since `s`: Header registers written, `IPOS` advanced. -/
def HeaderRead (s : State) (n : Nat) (P : Header → Prop) (u : State) : Prop :=
  u = { s with hdr := u.hdr, ipos := s.ipos + n } ∧ s.ipos + n ≤ s.inp.length ∧ P u.hdr

/-- How a codec that reads ends early: a Header with `P`, `IPOS` inside `IN`, then an error of the two kinds it can raise,
or a call that does not return. -/
def ReadStops (s : State) (P : Header → Prop) (u : State) : Prop :=
  ∃ (h : Header) (pos : Nat), P h ∧ pos ≤ s.inp.length ∧
    ((s.cfg.ioHang ≠ [] ∧ u = stall { s with hdr := h, ipos := pos }) ∨
      ∃ (c : Cause) (i : Word), (c.kind = .ioError ∨ c.kind = .formatError) ∧
        u = raise c i { s with hdr := h, ipos := pos })

/-- Any Header: decodeHeader stops with the registers written so far (40_header_codec.md R153 (c)). -/
def anyHeader : Header → Prop := fun _ => True

theorem HeaderRead.stops {s u : State} {m : Nat} {P : Header → Prop} (hu : HeaderRead s m P u) {t : State}
    (ht : (u.cfg.ioHang ≠ [] ∧ t = stall u) ∨
      ∃ (c : Cause) (i : Word), (c.kind = .ioError ∨ c.kind = .formatError) ∧ t = raise c i u) :
    ReadStops s anyHeader t := by
  obtain ⟨e, hi, -⟩ := hu
  refine ⟨u.hdr, s.ipos + m, trivial, hi, ?_⟩
  rw [← e]
  have hcfg : u.cfg = s.cfg := by rw [e]
  rwa [← hcfg]

theorem HeaderRead.read {s u : State} {m : Nat} {P : Header → Prop} (hu : HeaderRead s m P u) (n : Nat) :
    (inRead n u).Ends (fun _ v => HeaderRead s (m + n) P v) (ReadStops s anyHeader) := by
  have hinp : u.inp = s.inp := by rw [hu.1]
  have hpos : u.ipos = s.ipos + m := by rw [hu.1]
  rcases inRead_cases n u with ⟨hh, h⟩ | ⟨c, hc, h⟩ | ⟨hle, h⟩
  · rw [h]; exact hu.stops (.inl ⟨hh, rfl⟩)
  · rw [h]; exact hu.stops (.inr ⟨c, _, .inl hc, rfl⟩)
  · rw [h]
    refine ⟨?_, by rw [hinp, hpos] at hle; omega, hu.2.2⟩
    show ({ u with ipos := u.ipos + n } : State) = _
    rw [hpos, Nat.add_assoc]
    conv_lhs => rw [hu.1]

theorem HeaderRead.set {s u : State} {m : Nat} {P Q : Header → Prop} (hu : HeaderRead s m P u) (f : Header → Header)
    (hq : ∀ h, P h → Q (f h)) : HeaderRead s m Q { u with hdr := f u.hdr } := by
  obtain ⟨e, hi, hp⟩ := hu
  refine ⟨?_, hi, hq _ hp⟩
  conv_lhs => rw [e]

theorem HeaderRead.check {s u : State} {m : Nat} {P : Header → Prop} (hu : HeaderRead s m P u) (bad : Prop)
    [Decidable bad] {c : Cause} (hc : c.kind = .formatError) (info : Word) :
    (Machine.check bad c info u).Ends (fun _ v => v = u ∧ ¬ bad) (ReadStops s anyHeader) := by
  unfold Machine.check
  split
  · exact hu.stops (.inr ⟨c, _, .inr hc, rfl⟩)
  · next h => exact ⟨rfl, h⟩

theorem HeaderRead.mono {s u : State} {m : Nat} {P Q : Header → Prop} (hu : HeaderRead s m P u)
    (hq : ∀ h, P h → Q h) : HeaderRead s m Q u := ⟨hu.1, hu.2.1, hq _ hu.2.2⟩

/-- What a Header that passes every check but the last satisfies (40_header_codec.md R144, R146, R149). -/
def HeaderFormatOk (h : Header) : Prop := h.sig = 0x4D42 ∧ h.dibSize = 40 ∧ h.bpp = 24

theorem readSignature_ends {s : State} (h : s.ipos ≤ s.inp.length) :
    (readSignature s).Ends (fun _ u => HeaderRead s 2 (fun g => g.sig = 0x4D42) u) (ReadStops s anyHeader) := by
  have h0 : HeaderRead s 0 (fun _ => True) s := ⟨rfl, by omega, trivial⟩
  refine (h0.read 2).bind fun bs u hu => ?_
  rw [Nat.zero_add] at hu
  have hu' := hu.set (Q := fun g => g.sig = le16 bs) (fun g => { g with sig := le16 bs }) fun _ _ => rfl
  refine (hu'.check (bs ≠ [0x42, 0x4D]) (c := .badSignature) rfl _).mono ?_ fun _ h => h
  rintro _ v ⟨rfl, hb⟩
  refine hu'.mono fun g hg => ?_
  rw [hg, not_not.1 hb]
  decide

theorem readFileFields_ends {s u : State} {m : Nat} (hu : HeaderRead s m (fun g => g.sig = 0x4D42) u) :
    (readFileFields u).Ends (fun _ v => HeaderRead s (m + 12) (fun g => g.sig = 0x4D42) v) (ReadStops s anyHeader) :=
  (hu.read 4).bind fun bs _ h1 =>
    ((h1.set (Q := fun g => g.sig = 0x4D42) (fun g => { g with fileSize := le32 bs }) fun _ h => h).read 4).bind
      fun _ _ h2 => (h2.read 4).bind fun _ v h3 => (show HeaderRead s (m + 4 + 4 + 4) _ v from h3)

theorem readDibSize_ends {s u : State} {m : Nat} (hu : HeaderRead s m (fun g => g.sig = 0x4D42) u) :
    (readDibSize u).Ends (fun _ v => HeaderRead s (m + 4) (fun g => g.sig = 0x4D42 ∧ g.dibSize = 40) v)
      (ReadStops s anyHeader) := by
  refine (hu.read 4).bind fun bs v hv => ?_
  have hv' := hv.set (Q := fun g => g.sig = 0x4D42 ∧ g.dibSize = le32 bs) (fun g => { g with dibSize := le32 bs })
    fun _ h => ⟨h, rfl⟩
  refine (hv'.check _ (c := .badDibSize) rfl _).mono ?_ fun _ h => h
  rintro _ w ⟨rfl, hb⟩
  exact ⟨hv'.1, hv'.2.1, hv'.2.2.1, not_not.1 hb⟩

theorem readDimensions_ends {s u : State} {m : Nat}
    (hu : HeaderRead s m (fun g => g.sig = 0x4D42 ∧ g.dibSize = 40) u) :
    (readDimensions u).Ends (fun _ v => HeaderRead s (m + 8) (fun g => g.sig = 0x4D42 ∧ g.dibSize = 40) v)
      (ReadStops s anyHeader) :=
  (hu.read 4).bind fun bs _ h1 =>
    ((h1.set (Q := fun g => g.sig = 0x4D42 ∧ g.dibSize = 40) (fun g => { g with width := le32 bs })
      fun _ h => h).read 4).bind fun bs' _ h2 =>
      (show HeaderRead s (m + 4 + 4) _ _ from
        h2.set (Q := fun g => g.sig = 0x4D42 ∧ g.dibSize = 40) (fun g => { g with height := le32 bs' }) fun _ h => h)

theorem readBitDepth_ends {s u : State} {m : Nat}
    (hu : HeaderRead s m (fun g => g.sig = 0x4D42 ∧ g.dibSize = 40) u) :
    (readBitDepth u).Ends (fun _ v => HeaderRead s (m + 4) HeaderFormatOk v) (ReadStops s anyHeader) := by
  refine (hu.read 2).bind fun _ v h1 => (h1.read 2).bind fun bs v hv => ?_
  have hv' := hv.set (Q := fun g => g.sig = 0x4D42 ∧ g.dibSize = 40 ∧ g.bpp = le16 bs)
    (fun g => { g with bpp := le16 bs }) fun _ h => ⟨h.1, h.2, rfl⟩
  refine (hv'.check _ (c := .badBitDepth) rfl _).mono ?_ fun _ h => h
  rintro _ w ⟨rfl, hb⟩
  exact ⟨hv'.1, hv'.2.1, hv'.2.2.1, hv'.2.2.2.1, not_not.1 hb⟩

theorem readCompression_ends {s u : State} {m : Nat} (hu : HeaderRead s m HeaderFormatOk u) :
    (readCompression u).Ends (fun _ v => HeaderRead s (m + 4) HeaderFormatOk v) (ReadStops s anyHeader) := by
  refine (hu.read 4).bind fun bs v hv => ?_
  refine (hv.check _ (c := .compressed) rfl _).mono ?_ fun _ h => h
  rintro _ w ⟨rfl, -⟩
  exact hv

theorem readImageSize_ends {s u : State} {m : Nat} (hu : HeaderRead s m HeaderFormatOk u) :
    (readImageSize u).Ends (fun _ v => HeaderRead s (m + 20) HeaderFormatOk v) (ReadStops s anyHeader) :=
  (hu.read 4).bind fun bs _ h1 =>
    ((h1.set (fun g => { g with imgSize := le32 bs }) fun _ h => h).read 16).bind fun _ _ h2 => h2

/-- Everything decodeHeader can do (40_header_codec.md R141, R153): a valid Header and `IPOS` past the 54 bytes, or an
early end. -/
theorem decodeHeader_cases {s : State} (h : s.ipos ≤ s.inp.length) :
    (∃ u, HeaderRead s 54 (fun g => HeaderFormatOk g ∧ ¬ badDimensions s.cfg g) u ∧
        decodeHeader s = enter .decPix u) ∨
      ReadStops s anyHeader (decodeHeader s) := by
  unfold decodeHeader
  refine Io.Ends.finish (P := fun _ u => HeaderRead s 54 (fun g => HeaderFormatOk g ∧ ¬ badDimensions s.cfg g) u)
    (R := fun t => (∃ u, HeaderRead s 54 (fun g => HeaderFormatOk g ∧ ¬ badDimensions s.cfg g) u ∧
      t = enter .decPix u) ∨ ReadStops s anyHeader t) ?_ (fun u hu => .inl ⟨u, hu, rfl⟩) (fun _ => .inr)
  refine (readSignature_ends h).bind fun _ _ h1 => (readFileFields_ends h1).bind fun _ _ h2 =>
    (readDibSize_ends h2).bind fun _ _ h3 => (readDimensions_ends h3).bind fun _ _ h4 =>
    (readBitDepth_ends h4).bind fun _ _ h5 => (readCompression_ends h5).bind fun _ _ h6 =>
    (readImageSize_ends h6).bind fun _ u h7 => ?_
  refine (h7.check _ (c := .badDimensions) rfl _).mono ?_ fun _ h => h
  rintro _ v ⟨rfl, hb⟩
  have hcfg : v.cfg = s.cfg := by rw [h7.1]
  rw [hcfg] at hb
  exact ⟨h7.1, h7.2.1, h7.2.2, hb⟩

/-! ### decodePixels (41_pixel_codec.md R173) -/

/-- The rows read so far, `n` of `stride` bytes each, with `IPOS` after them. -/
def RowsRead (s : State) (stride n : Nat) (rows : List (List Byte)) (u : State) : Prop :=
  (∃ pos, pos ≤ s.inp.length ∧ u = { s with ipos := pos }) ∧ rows.length = n ∧ ∀ row ∈ rows, row.length = stride

theorem readRows_ends (stride n : Nat) {s : State} (h : s.ipos ≤ s.inp.length) :
    (readRows stride n s).Ends (fun rows u => RowsRead s stride n rows u) (ReadStops s (· = s.hdr)) := by
  induction n generalizing s with
  | zero => exact ⟨⟨_, h, rfl⟩, rfl, by simp⟩
  | succ n ih =>
    unfold readRows
    rcases inRead_cases stride s with ⟨hh, e⟩ | ⟨c, hc, e⟩ | ⟨hle, e⟩
    · rw [e]; exact ⟨s.hdr, s.ipos, rfl, h, .inl ⟨hh, rfl⟩⟩
    · rw [e]; exact ⟨s.hdr, s.ipos, rfl, h, .inr ⟨c, _, .inl hc, rfl⟩⟩
    · rw [e, Io.bind_ok]
      refine Io.Ends.bind (P := fun rows u => RowsRead s stride n rows u) (Q := ReadStops s (· = s.hdr))
        ((ih (s := { s with ipos := s.ipos + stride }) hle).mono (fun rows u hu => hu) ?_) fun rows u hu => ?_
      · exact fun u hu => hu
      · refine ⟨hu.1, by simp [hu.2.1], fun row hr => ?_⟩
        rcases List.mem_cons.1 hr with rfl | hr
        · simp only [List.length_take, List.length_drop]; omega
        · exact hu.2.2 row hr

theorem imageOfRows_wf {w h : Nat} {rows : List (List Byte)} (hr : rows.length = h) : (imageOfRows w h rows).wf := by
  show ((rows.reverse.map (rowPixels w)).flatten).length = w * h
  rw [List.length_flatten, List.map_map]
  have : (List.length ∘ rowPixels w) = fun _ => w := by funext row; simp [rowPixels]
  rw [this]
  simp [hr, Nat.mul_comm]

/-- Everything decodePixels can do with a valid Header (41_pixel_codec.md R173, R176). -/
theorem decodePixels_cases {s : State} (h : s.ipos ≤ s.inp.length) (hs : s.hdr.sizesNonneg) (hb : s.hdr.bpp = 24) :
    ∃ t, decodePixels s = .next t ∧
      ((∃ m pos, m.wf ∧ m.w = s.hdr.width.toNat ∧ m.h = s.hdr.height.toNat ∧ pos ≤ s.inp.length ∧
          t = enter .crop { s with img := m, ipos := pos }) ∨
        ReadStops s (· = s.hdr) t) := by
  unfold decodePixels
  have hstride : strideBits s.hdr.bpp.toNat s.hdr.width.toNat = strideOf s.hdr.width.toNat := by
    rw [hb]; exact strideBits_24 _
  rw [if_pos hs]
  simp only [hstride]
  rw [if_neg (by have := le_strideOf s.hdr.width.toNat; omega)]
  refine ⟨_, rfl, ?_⟩
  refine Io.Ends.finish (P := fun _ u => ∃ m pos, m.wf ∧ m.w = s.hdr.width.toNat ∧ m.h = s.hdr.height.toNat ∧
    pos ≤ s.inp.length ∧ u = { s with img := m, ipos := pos }) (Q := ReadStops s (· = s.hdr))
    (R := fun t => (∃ m pos, m.wf ∧ m.w = s.hdr.width.toNat ∧ m.h = s.hdr.height.toNat ∧ pos ≤ s.inp.length ∧
      t = enter .crop { s with img := m, ipos := pos }) ∨ ReadStops s (· = s.hdr) t) ?_ ?_ (fun _ => .inr)
  · unfold readImage
    rcases inSeek_cases pixelDataOffset s with ⟨hh, e⟩ | e | ⟨hle, e⟩
    · rw [e]; exact ⟨s.hdr, s.ipos, rfl, h, .inl ⟨hh, rfl⟩⟩
    · rw [e]; exact ⟨s.hdr, s.ipos, rfl, h, .inr ⟨_, _, .inl rfl, rfl⟩⟩
    · rw [e, Io.bind_ok]
      refine Io.Ends.bind ((readRows_ends _ _ (s := { s with ipos := pixelDataOffset }) hle).mono (fun _ _ hu => hu)
        ?_) fun rows u hu => ?_
      · exact fun u hu => hu
      · obtain ⟨⟨pos, hpos, rfl⟩, hlen, -⟩ := hu
        exact ⟨imageOfRows _ _ rows, pos, imageOfRows_wf hlen, rfl, rfl, hpos, rfl⟩
  · rintro u ⟨m, pos, h1, h2, h3, h4, rfl⟩
    exact .inl ⟨m, pos, h1, h2, h3, h4, rfl⟩

/-! ### encodeHeader and encodePixels (40_header_codec.md R155, 41_pixel_codec.md R178) -/

/-- The bytes `bs` have been written since `s`, within the sink. -/
def Written (s : State) (bs : List Byte) (u : State) : Prop :=
  u = { s with out := s.out ++ bs } ∧ (SinkHolds s → SinkHolds u)

/-- How the writing of `bs` ends early: a prefix written within the sink, then a call that does not return, or an IOError,
after which the prefix is proper (60_exceptions.md R295). -/
def WriteStops (s : State) (bs : List Byte) (u : State) : Prop :=
  ∃ cs v, cs <+: bs ∧ Written s cs v ∧
    ((s.cfg.ioHang ≠ [] ∧ u = stall v) ∨
      ∃ (c : Cause) (i : Word), c.kind = .ioError ∧ cs.length < bs.length ∧ u = raise c i v)

theorem Written.nil (s : State) : Written s [] s := ⟨by simp, id⟩

theorem Written.trans {s u v : State} {bs cs : List Byte} (h1 : Written s bs u) (h2 : Written u cs v) :
    Written s (bs ++ cs) v := by
  obtain ⟨rfl, hcap⟩ := h1
  obtain ⟨rfl, hcap'⟩ := h2
  exact ⟨by simp, fun h => hcap' (hcap h)⟩

/-- What stops after more has been written. -/
theorem WriteStops.after {s u t : State} {bs cs : List Byte} (h1 : Written s bs u) (h2 : WriteStops u cs t) :
    WriteStops s (bs ++ cs) t := by
  obtain ⟨ds, v, hpre, hv, h⟩ := h2
  have hcfg : u.cfg = s.cfg := by rw [h1.1]
  refine ⟨bs ++ ds, v, (List.prefix_append_right_inj bs).2 hpre, h1.trans hv, ?_⟩
  rw [hcfg] at h
  exact h.imp_right fun ⟨c, i, hk, hl, e⟩ => ⟨c, i, hk, by simpa using hl, e⟩

/-- What stops before more would have been written. -/
theorem WriteStops.before {s t : State} {bs : List Byte} (h : WriteStops s bs t) (cs : List Byte) :
    WriteStops s (bs ++ cs) t := by
  obtain ⟨ds, v, hpre, hv, h⟩ := h
  refine ⟨ds, v, hpre.trans (List.prefix_append ..), hv, h.imp_right fun ⟨c, i, hk, hl, e⟩ => ⟨c, i, hk, ?_, e⟩⟩
  rw [List.length_append]
  omega

/-- One write of at least one byte: all of it, or an early end. -/
theorem outWrite_ends {bs : List Byte} (hne : bs ≠ []) (s : State) :
    (outWrite bs s).Ends (fun _ u => Written s bs u) (WriteStops s bs) := by
  rcases outWrite_cases bs s with ⟨hh, e⟩ | ⟨c, v, k, hc, e, hcap, hlt⟩ | ⟨hfit, e⟩
  · rw [e]; exact ⟨[], s, List.nil_prefix, Written.nil s, .inl ⟨hh, rfl⟩⟩
  · rw [e]
    exact ⟨bs.take k, _, List.take_prefix .., ⟨rfl, hcap⟩, .inr ⟨c, v, hc, hlt hne, rfl⟩⟩
  · rw [e]
    refine ⟨rfl, fun _ cap h => ?_⟩
    have h : s.cfg.outCap = some cap := h
    rw [h] at hfit
    simpa [fitsCap, acceptBytes] using hfit

/-- Bytes, if there are any: all of them written, or an early end. -/
theorem writeSome_ends (bs : List Byte) (s : State) :
    (writeSome bs s).Ends (fun _ u => Written s bs u) (WriteStops s bs) := by
  unfold writeSome
  split
  · next h => subst h; exact Written.nil s
  · next h => exact outWrite_ends h s

@[simp] theorem rowBytes_length (m : Image) (w stride y : Nat) :
    (rowBytes m w stride y).length = 3 * w + (stride - 3 * w) := by
  simp [rowBytes, List.length_flatMap, Nat.mul_comm]

theorem writeRows_ends (m : Image) (w stride n : Nat) (s : State) :
    (writeRows m w stride n s).Ends (fun _ u => Written s ((List.range n).reverse.flatMap (rowBytes m w stride)) u)
      (WriteStops s ((List.range n).reverse.flatMap (rowBytes m w stride))) := by
  induction n generalizing s with
  | zero => exact Written.nil s
  | succ n ih =>
    unfold writeRows
    have hrows : (List.range (n + 1)).reverse.flatMap (rowBytes m w stride) =
        rowBytes m w stride n ++ (List.range n).reverse.flatMap (rowBytes m w stride) := by simp [List.range_succ]
    rw [hrows]
    exact Io.Ends.bind ((writeSome_ends _ s).mono (fun _ _ h => h) fun _ h => h.before _)
      fun _ u hu => (ih u).mono (fun _ _ h => hu.trans h) fun _ h => h.after hu

theorem headerBytes_length (h : Header) : (headerBytes h).length = 54 := by simp [headerBytes]

theorem rows_length (m : Image) (w stride : Nat) (h : 3 * w ≤ stride) (n : Nat) :
    ((List.range n).reverse.flatMap (rowBytes m w stride)).length = stride * n := by
  induction n with
  | zero => rfl
  | succ n ih =>
    simp only [List.range_succ, List.reverse_append, List.reverse_singleton, List.singleton_append, List.flatMap_cons,
      List.length_append, rowBytes_length, ih, Nat.mul_succ]
    omega

/-- "exactly `54 + HDR.IMGSIZE` bytes" (41_pixel_codec.md R182). -/
theorem pixelBytes_length {h : Header} {m : Image} (hsz : strideOf m.w * m.h ≤ h.imgSize.toNat) :
    (pixelBytes h m).length = h.imgSize.toNat := by
  rw [pixelBytes, List.length_append, List.length_replicate]
  have := rows_length m m.w (strideOf m.w) (le_strideOf _) m.h
  simp only [this]
  omega

/-- Everything encodeHeader can do with non-negative dimensions (40_header_codec.md R155, R162): its one write goes
through, stalls with nothing written, or fails with a proper prefix written. -/
theorem encodeHeader_cases {s : State} (hs : s.hdr.sizesNonneg) :
    let s1 : State := { s with hdr := sizedHeader s.hdr }
    ∃ t, encodeHeader s = .next t ∧
      ((∃ u, Written s1 (headerBytes s1.hdr) u ∧ t = enter .encPix u) ∨
        (s.cfg.ioHang ≠ [] ∧ t = stall s1) ∨
        ∃ (bs : List Byte) (u : State) (c : Cause) (i : Word), bs <+: headerBytes s1.hdr ∧
          bs.length < (headerBytes s1.hdr).length ∧ Written s1 bs u ∧ c.kind = .ioError ∧ t = raise c i u) := by
  intro s1
  unfold encodeHeader
  rw [if_pos hs]
  refine ⟨_, rfl, ?_⟩
  have hne : headerBytes s1.hdr ≠ [] := List.ne_nil_of_length_pos (by rw [headerBytes_length]; decide)
  have hw := outWrite_ends hne s1
  rcases outWrite_cases (headerBytes s1.hdr) s1 with ⟨hh, e⟩ | ⟨c, v, k, hc, e, hcap, hlt⟩ | ⟨-, e⟩
  · exact .inr (.inl ⟨hh, congrArg (Io.finish (enter .encPix)) e⟩)
  · exact .inr (.inr ⟨_, _, c, v, List.take_prefix .., hlt hne, ⟨rfl, hcap⟩, hc,
      congrArg (Io.finish (enter .encPix)) e⟩)
  · rw [e] at hw
    exact .inl ⟨_, hw, congrArg (Io.finish (enter .encPix)) e⟩

/-- Everything encodePixels can do with non-negative dimensions that are the Image's (41_pixel_codec.md R178, R182): the
rows and the padding written, or an early end. -/
theorem encodePixels_cases {s : State} (hs : s.hdr.sizesNonneg) (hm : s.img.wf)
    (hw : s.hdr.width.toNat = s.img.w) (hh : s.hdr.height.toNat = s.img.h) :
    ∃ t, encodePixels s = .next t ∧
      ((∃ u, Written s (pixelBytes s.hdr s.img) u ∧ t = enter .done u) ∨
        WriteStops s (pixelBytes s.hdr s.img) t) := by
  unfold encodePixels
  rw [if_pos hs, hw, hh]
  simp only [strideBits_24]
  rw [if_neg (by have : s.img.pix.length = s.img.w * s.img.h := hm; omega)]
  refine ⟨_, rfl, ?_⟩
  refine Io.Ends.finish (P := fun _ u => Written s (pixelBytes s.hdr s.img) u)
    (Q := WriteStops s (pixelBytes s.hdr s.img))
    (R := fun t => (∃ u, Written s (pixelBytes s.hdr s.img) u ∧ t = enter .done u) ∨
      WriteStops s (pixelBytes s.hdr s.img) t)
    ?_ (fun u hu => .inl ⟨u, hu, rfl⟩) fun _ => .inr
  refine Io.Ends.bind ((writeRows_ends _ _ _ _ s).mono (fun _ _ h => h) fun _ h => h.before _) fun _ u hu => ?_
  have hhdr : u.hdr = s.hdr := by rw [hu.1]
  rw [hhdr]
  exact (writeSome_ends _ u).mono (fun _ _ h => hu.trans h) fun _ h => h.after hu

/-! ### The codecs with collaborators that never fail -/

/-- `n` rows that are all there (41_pixel_codec.md R174). -/
theorem readRows_quiet {s : State} (hf : s.cfg.ioFault = []) (hh : s.cfg.ioHang = []) (stride n k : Nat)
    (h : k + stride * n ≤ s.inp.length) :
    readRows stride n { s with ipos := k } =
      .ok ((List.range n).map fun r => field s.inp (k + r * stride) stride) { s with ipos := k + stride * n } := by
  induction n generalizing k with
  | zero => rfl
  | succ n ih =>
    rw [Nat.mul_succ] at h
    rw [readRows, inRead_quiet (s := { s with ipos := k }) hf hh,
      if_neg (by show ¬ k + stride > s.inp.length; omega), Io.bind_ok]
    have hn := ih (k + stride) (by omega)
    simp only
    rw [hn, Io.bind_ok, List.range_succ_eq_map, List.map_cons, List.map_map]
    congr 1
    · congr 1
      · simp [field]
      · refine List.map_congr_left fun r _ => ?_
        simp only [Function.comp, Nat.succ_mul]
        congr 1
        omega
    · rw [Nat.mul_succ, show k + stride + stride * n = k + (stride * n + stride) by omega]

/-- Row `r` is the first that is short (20_memory.md R68, 41_pixel_codec.md R177). -/
theorem readRows_short {s : State} (hf : s.cfg.ioFault = []) (hh : s.cfg.ioHang = []) (stride n k r : Nat)
    (hr : r < n) (h : k + r * stride ≤ s.inp.length) (h' : s.inp.length < k + (r + 1) * stride) :
    readRows stride n { s with ipos := k } =
      .stop (raise .shortRead (infoOfNat (k + r * stride)) { s with ipos := k + r * stride }) := by
  induction n generalizing k r with
  | zero => omega
  | succ n ih =>
    rw [readRows, inRead_quiet (s := { s with ipos := k }) hf hh]
    rcases r with _ | r
    · rw [if_pos (by show k + stride > s.inp.length; omega)]
      simp
    · simp only [Nat.succ_mul] at h h'
      rw [if_neg (by show ¬ k + stride > s.inp.length; omega), Io.bind_ok]
      have hn := ih (k + stride) r (by omega) (by omega) (by rw [Nat.succ_mul]; omega)
      simp only
      rw [hn, Io.bind_stop, Nat.succ_mul, show k + stride + r * stride = k + (r * stride + stride) by omega]

/-- The rows, bottom row first (41_pixel_codec.md R178). -/
theorem writeRows_quiet {s : State} (hf : s.cfg.ioFault = []) (hh : s.cfg.ioHang = []) (hc : s.cfg.outCap = none)
    (m : Image) (w stride n : Nat) (o : List Byte) :
    writeRows m w stride n { s with out := o } =
      .ok () { s with out := o ++ (List.range n).reverse.flatMap (rowBytes m w stride) } := by
  induction n generalizing o with
  | zero => simp [writeRows]
  | succ n ih =>
    rw [writeRows, writeSome_quiet (s := { s with out := o }) hf hh hc, Io.bind_ok]
    have hn := ih (o ++ rowBytes m w stride n)
    show writeRows m w stride n { s with out := o ++ rowBytes m w stride n } = _
    rw [hn]
    simp [List.range_succ]

theorem writeTrailer_quiet {s : State} (hf : s.cfg.ioFault = []) (hh : s.cfg.ioHang = []) (hc : s.cfg.outCap = none)
    (n : Nat) : writeTrailer n s = .ok () { s with out := s.out ++ List.replicate n 0 } := writeSome_quiet hf hh hc _

end Sys2Proof.Machine
end

