-- ==== Sys2Proof/Laws/Decode.lean ====
section
/-! SUPPORT. Operands through their words, command lengths, and the decoder on each command word. -/

namespace Sys2Proof

/-- An `i32` survives its word (30_encoding.md R106). -/
theorem operandValue_encodeOperand {v : Int} (h : fitsI32 v = true) : operandValue (encodeOperand v) = v := by
  simp only [fitsI32, Bool.and_eq_true, decide_eq_true_eq] at h
  simp only [operandValue, encodeOperand, BitVec.toInt_ofInt]
  rw [Int.bmod_def]
  split <;> omega

/-- An operand word survives its value. -/
@[simp] theorem encodeOperand_operandValue (w : Word) : encodeOperand (operandValue w) = w :=
  BitVec.ofInt_toInt

/-- An operand read from a word fits an `i32`. -/
@[simp] theorem fitsI32_operandValue (w : Word) : fitsI32 (operandValue w) = true := by
  have h1 := BitVec.le_toInt (x := w)
  have h2 := BitVec.toInt_lt (x := w)
  unfold fitsI32 operandValue
  rw [Bool.and_eq_true, decide_eq_true_eq, decide_eq_true_eq]
  exact ⟨by simpa using h1, by omega⟩

theorem Instr.words_pos (i : Instr) : 0 < i.words := by
  unfold Instr.words; omega

theorem Instr.words_le (i : Instr) : i.words ≤ maxWords := by
  cases i <;> simp [Instr.words, Instr.operands, maxWords]

@[simp] theorem encode_length (i : Instr) : (encode i).length = i.words := by
  simp [encode, Instr.words, Nat.add_comm]

end Sys2Proof
end

