-- ==== Sys2Proof/Laws/Command.lean ====
section
/-! SUPPORT. What executing a command can do, once for all seventeen: it installs the Image its effect gives, or raises the error its effect gives, and does nothing else. -/

namespace Sys2Proof.Machine

/-- The shared operation on a well-formed Image. -/
theorem runCommand_of_wf {s : State} (h : s.img.wf) (i : Instr) (f : Image → Except (Cause × Word) Image) :
    runCommand i f s =
      match f s.img with
      | .ok m => .next (install m i.words s)
      | .error (c, info) => .next (raise c info s) := if_pos h

theorem runCommand_of_not_wf {s : State} (h : ¬ s.img.wf) (i : Instr)
    (f : Image → Except (Cause × Word) Image) : runCommand i f s = .fault .pixOutOfRange := if_neg h

/-- The rotation of each angle a command carries (42_geometric.md R192). -/
theorem rotate_90 (m : Image) : rotate 90 m = some (quarterTurn m) := rfl
theorem rotate_180 (m : Image) : rotate 180 m = some (halfTurn m) := rfl
theorem rotate_270 (m : Image) : rotate 270 m = some (threeQuarterTurn m) := rfl
theorem rotate_neg_90 (m : Image) : rotate (-90) m = some (threeQuarterTurn m) := rfl
theorem rotate_neg_180 (m : Image) : rotate (-180) m = some (halfTurn m) := rfl
theorem rotate_neg_270 (m : Image) : rotate (-270) m = some (quarterTurn m) := rfl

/-- Every command is the shared operation on its effect. -/
theorem exec_eq_runCommand (i : Instr) (s : State) : exec i s = runCommand i (effect s.cfg i) s := by
  cases i <;> rfl

/-- The effect of a command on a well-formed Image decides its outcome. -/
theorem exec_of_effect_ok {s : State} (h : s.img.wf) {i : Instr} {m : Image} (hm : effect s.cfg i s.img = .ok m) :
    exec i s = .next (install m i.words s) := by
  rw [exec_eq_runCommand, runCommand_of_wf h, hm]

theorem exec_of_effect_error {s : State} (h : s.img.wf) {i : Instr} {c : Cause} {v : Word}
    (he : effect s.cfg i s.img = .error (c, v)) : exec i s = .next (raise c v s) := by
  rw [exec_eq_runCommand, runCommand_of_wf h, he]

/-- Everything a command can do when it gives a next state (60_exceptions.md R290, R291). -/
theorem exec_cases {i : Instr} {s t : State} (h : exec i s = .next t) :
    s.img.wf ∧
      ((∃ m, effect s.cfg i s.img = .ok m ∧ t = install m i.words s) ∨
        (∃ c v, effect s.cfg i s.img = .error (c, v) ∧ t = raise c v s)) := by
  rw [exec_eq_runCommand] at h
  by_cases hwf : s.img.wf
  · refine ⟨hwf, ?_⟩
    rw [runCommand_of_wf hwf] at h
    cases he : effect s.cfg i s.img with
    | ok m => rw [he] at h; cases h; exact .inl ⟨m, rfl, rfl⟩
    | error e => obtain ⟨c, v⟩ := e; rw [he] at h; cases h; exact .inr ⟨c, v, rfl, rfl⟩
  · rw [runCommand_of_not_wf hwf] at h; cases h

/-- What a crop that succeeds gives (42_geometric.md R206). -/
theorem crop_ok {ox oy : Int} {size : Option (Int × Int)} {m m' : Image} (h : crop ox oy size m = .ok m') :
    0 ≤ ox ∧ ox < m.w ∧ 0 ≤ oy ∧ oy < m.h ∧
      ∃ cw ch : Nat, m' = m.rect ox.toNat oy.toNat cw ch ∧ 0 < cw ∧ 0 < ch ∧
        ox.toNat + cw ≤ m.w ∧ oy.toNat + ch ≤ m.h := by
  unfold crop at h
  split at h
  · cases h
  split at h
  · cases h
  refine ⟨by omega, by omega, by omega, by omega, ?_⟩
  split at h
  · cases h
    exact ⟨_, _, rfl, by omega, by omega, by omega, by omega⟩
  · unfold cropSized at h
    split at h
    · cases h
    split at h
    · cases h
    split at h
    · cases h
    split at h
    · cases h
    cases h
    exact ⟨_, _, rfl, by omega, by omega, by omega, by omega⟩

/-- The shape of every effect: the new Image is well-formed, and its size is the old one, the old one swapped, or no
larger in either direction (42_geometric.md R193, R210; 43_filters.md R220). -/
theorem effect_shape {c : Config} {i : Instr} {m m' : Image} (hwf : m.wf) (h : effect c i m = .ok m') :
    m'.wf ∧ ((m'.w ≤ m.w ∧ m'.h ≤ m.h) ∨ (m'.w = m.h ∧ m'.h = m.w)) := by
  have crops : ∀ {ox oy size}, crop ox oy size m = .ok m' →
      m'.wf ∧ ((m'.w ≤ m.w ∧ m'.h ≤ m.h) ∨ (m'.w = m.h ∧ m'.h = m.w)) := by
    intro ox oy size h
    obtain ⟨-, -, -, -, cw, ch, rfl, -, -, h1, h2⟩ := crop_ok h
    exact ⟨Image.rect_wf .., .inl ⟨by simp; omega, by simp; omega⟩⟩
  cases i with
  | keepb | keepr | keepg | gray | neg =>
    cases h; exact ⟨Image.mapPix_wf hwf _, .inl ⟨le_rfl, le_rfl⟩⟩
  | rot90 | rot270 | rotm90 | rotm270 => cases h; exact ⟨Image.build_wf .., .inr ⟨rfl, rfl⟩⟩
  | rot180 | rotm180 | mirh | mirv => cases h; exact ⟨Image.build_wf .., .inl ⟨le_rfl, le_rfl⟩⟩
  | pixelate a =>
    simp only [effect, pixelate] at h
    split at h
    · cases h
    split at h
    · cases h; exact ⟨hwf, .inl ⟨le_rfl, le_rfl⟩⟩
    · cases h; exact ⟨Image.build_wf .., .inl ⟨le_rfl, le_rfl⟩⟩
  | blur a =>
    simp only [effect, blur] at h
    split at h
    · cases h
    · cases h; exact ⟨Image.build_wf .., .inl ⟨le_rfl, le_rfl⟩⟩
  | crop2 a b => exact crops (ox := a) (oy := b) (size := none) h
  | crop4 a b w h' => exact crops (ox := a) (oy := b) (size := some (w, h')) h

/-- An effect that fails names a RangeError, and its own operand (60_exceptions.md R283, R285). -/
theorem effect_error_kind {c : Config} {i : Instr} {m : Image} {k : Cause} {v : Word}
    (h : effect c i m = .error (k, v)) : k.kind = .rangeError := by
  have crops : ∀ {ox oy size}, crop ox oy size m = .error (k, v) → k.kind = .rangeError := by
    intro ox oy size h
    unfold crop cropSized at h
    split at h
    · cases h; rfl
    split at h
    · cases h; rfl
    split at h
    · cases h
    split at h
    · cases h; rfl
    split at h
    · cases h; rfl
    split at h
    · cases h; rfl
    split at h
    · cases h; rfl
    cases h
  cases i with
  | keepb | keepr | keepg | gray | neg => cases h
  | rot90 | rot180 | rot270 | rotm90 | rotm180 | rotm270 | mirh | mirv => cases h
  | pixelate a =>
    simp only [effect, pixelate] at h
    split at h
    · cases h; rfl
    split at h <;> cases h
  | blur a =>
    simp only [effect, blur] at h
    split at h
    · cases h; rfl
    · cases h
  | crop2 a b => exact crops (ox := a) (oy := b) (size := none) h
  | crop4 a b w h' => exact crops (ox := a) (oy := b) (size := some (w, h')) h

end Sys2Proof.Machine
end

