-- ==== Sys2Proof/Laws/Memory.lean ====
section
/-! SUPPORT. The command memory: reads after writes, and every operation keeps the canonical form. -/

namespace Sys2Proof.Machine

@[simp] theorem Memory.read_write_same (m : Memory) (i : Nat) (w : Word) : (m.write i w).read i = some w := by
  induction m with
  | nil => simp [Memory.write, Memory.read]
  | cons e m ih =>
    obtain ⟨j, v⟩ := e
    simp only [Memory.write]
    split
    · simp [Memory.read]
    · split
      · simp [Memory.read]
      · simp [Memory.read, *]

theorem Memory.read_write_other (m : Memory) {i j : Nat} (w : Word) (h : j ≠ i) :
    (m.write i w).read j = m.read j := by
  induction m with
  | nil => simp [Memory.write, Memory.read, h]
  | cons e m ih =>
    obtain ⟨k, v⟩ := e
    simp only [Memory.write]
    split
    · simp [Memory.read, h]
    · split
      · next hik => simp [Memory.read, h, hik ▸ h]
      · simp [Memory.read, ih]

/-- A write adds no index but the one written. -/
theorem Memory.index_of_mem_write {m : Memory} {i : Nat} {w : Word} {e : Nat × Word} (h : e ∈ m.write i w) :
    e.1 = i ∨ e ∈ m := by
  induction m with
  | nil => simp_all [Memory.write]
  | cons f m ih =>
    obtain ⟨j, v⟩ := f
    simp only [Memory.write] at h
    split at h
    · rcases List.mem_cons.1 h with rfl | h
      · exact .inl rfl
      · exact .inr h
    · split at h
      · rcases List.mem_cons.1 h with rfl | h
        · exact .inl rfl
        · exact .inr (List.mem_cons_of_mem _ h)
      · rcases List.mem_cons.1 h with rfl | h
        · exact .inr (List.mem_cons_self ..)
        · exact (ih h).imp_right (List.mem_cons_of_mem _)

theorem Memory.write_wf {m : Memory} (h : m.wf) (i : Nat) (w : Word) : (m.write i w).wf := by
  induction m with
  | nil => simp [Memory.write, Memory.wf]
  | cons e m ih =>
    obtain ⟨j, v⟩ := e
    obtain ⟨hj, hm⟩ := List.pairwise_cons.1 h
    simp only [Memory.write]
    split
    · next hij =>
      refine List.pairwise_cons.2 ⟨fun a ha => ?_, h⟩
      rcases List.mem_cons.1 ha with rfl | ha
      · exact hij
      · exact hij.trans (hj a ha)
    · split
      · next hij => exact List.pairwise_cons.2 ⟨fun a ha => by simpa [hij] using hj a ha, hm⟩
      · refine List.pairwise_cons.2 ⟨fun a ha => ?_, ih hm⟩
        rcases Memory.index_of_mem_write ha with rfl | ha
        · simp only; omega
        · exact hj a ha

theorem Memory.writeAll_wf {m : Memory} (h : m.wf) (i : Nat) (ws : List Word) : (m.writeAll i ws).wf := by
  induction ws generalizing m i with
  | nil => exact h
  | cons w ws ih => exact ih (Memory.write_wf h i w) _

theorem reset_memory_wf : State.reset.cmd.wf := List.Pairwise.nil

/-- A write of `CMD[i]` is what a later read of `CMD[i]` gives, and no other word changes (10_state.md R40). -/
theorem cmdWord_write (s : State) (i j : Nat) (w : Word) :
    ({ s with cmd := s.cmd.write i w } : State).cmdWord j = if j = i then w else s.cmdWord j := by
  unfold State.cmdWord
  split
  · next h => subst h; simp
  · next h => simp [Memory.read_write_other _ _ h]

end Sys2Proof.Machine
end

