-- ==== Sys2Proof/Laws/Sequencer.lean ====
section
/-! SUPPORT. Fetching and the walks over the command list: what a fetch depends on, how far a command reaches, the validation walk, one step of an executing phase, one step of the core per phase. -/

namespace Sys2Proof.Machine

/-- The command memory as the core reads it is all a fetch depends on (20_memory.md R85). -/
structure SameProgram (s t : State) : Prop where
  cmd : t.cmd = s.cmd
  cmdLen : t.cmdLen = s.cmdLen
  epoch : t.epoch = s.epoch

theorem SameProgram.cmdWord {s t : State} (h : SameProgram s t) (i : Nat) : t.cmdWord i = s.cmdWord i := by
  unfold State.cmdWord; rw [h.cmd, h.epoch]

theorem SameProgram.fetch {s t : State} (h : SameProgram s t) (i : Nat) : fetch t i = fetch s i := by
  unfold Machine.fetch cmdWindow
  rw [h.cmdLen]
  congr 2
  funext k
  exact h.cmdWord _

theorem SameProgram.scan {s t : State} (h : SameProgram s t) (fuel i : Nat) : scan t fuel i = scan s fuel i := by
  induction fuel generalizing i with
  | zero => rfl
  | succ fuel ih =>
    unfold Machine.scan
    rw [h.cmdLen, h.fetch]
    simp only [ih]

/-- A decoded command and what is left account for every word. -/
theorem decode_length {ws rest : List Word} {i : Instr} (h : decode ws = .command i rest) :
    i.words + rest.length = ws.length := by
  have c0 : ∀ {j r}, takeC0 j r = .command i rest → j.operands.length = 0 → i.words + rest.length = r.length + 1 := by
    intro j r h hj; cases h; simp [Instr.words, hj]; omega
  have c1 : ∀ {mk r}, takeC1 mk r = .command i rest → (∀ a, (mk a).operands.length = 1) →
      i.words + rest.length = r.length + 1 := by
    intro mk r h hj; unfold takeC1 at h; split at h <;> cases h; simp [Instr.words, hj]; omega
  have c2 : ∀ {mk r}, takeC2 mk r = .command i rest → (∀ a b, (mk a b).operands.length = 2) →
      i.words + rest.length = r.length + 1 := by
    intro mk r h hj; unfold takeC2 at h; split at h <;> cases h; simp [Instr.words, hj]; omega
  have c4 : ∀ {mk r}, takeC4 mk r = .command i rest → (∀ a b c d, (mk a b c d).operands.length = 4) →
      i.words + rest.length = r.length + 1 := by
    intro mk r h hj; unfold takeC4 at h; split at h <;> cases h; simp [Instr.words, hj]; omega
  cases ws with
  | nil => cases h
  | cons w r =>
    simp only [decode] at h
    split at h
    · cases h
    · unfold decodeOpcode at h
      split at h
      all_goals first
        | exact c0 h rfl
        | exact c1 h fun _ => rfl
        | exact c2 h fun _ _ => rfl
        | exact c4 h fun _ _ _ _ => rfl
        | cases h

@[simp] theorem cmdWindow_length (s : State) (i : Nat) :
    (cmdWindow s i).length = min maxWords (s.cmdLen.toNat - i) := by
  simp [cmdWindow]

/-- A fetched command ends inside `CMDLEN` (30_encoding.md R109). -/
theorem fetch_bound {s : State} {i : Nat} {c : Instr} {rest : List Word} (h : fetch s i = .command c rest) :
    i + c.words ≤ s.cmdLen.toNat := by
  have hl := decode_length h
  have hp := c.words_pos
  rw [cmdWindow_length] at hl
  omega

/-- The walk at an index before the end, with fuel left. -/
theorem scan_succ {s : State} {fuel i : Nat} (h : i < s.cmdLen.toNat) :
    scan s (fuel + 1) i =
      match fetch s i with
      | .command c _ => scan s fuel (i + c.words)
      | .illegal => some (.unknownToken, i)
      | .truncated => some (.truncatedCommand, i) := if_pos h

/-- The walk is over at the end of the list. -/
theorem scan_end {s : State} {fuel i : Nat} (h : s.cmdLen.toNat ≤ i) : scan s fuel i = none := by
  cases fuel with
  | zero => rfl
  | succ fuel => rw [scan, if_neg (by omega)]

/-- Fuel for every word left is enough: more changes nothing. -/
theorem scan_fuel {s : State} {fuel fuel' i : Nat} (h : s.cmdLen.toNat - i ≤ fuel) (h' : s.cmdLen.toNat - i ≤ fuel') :
    scan s fuel i = scan s fuel' i := by
  induction fuel generalizing fuel' i with
  | zero => rw [scan_end (by omega), scan_end (by omega)]
  | succ fuel ih =>
    by_cases hi : i < s.cmdLen.toNat
    · obtain ⟨f, rfl⟩ : ∃ f, fuel' = f + 1 := ⟨fuel' - 1, by omega⟩
      rw [scan_succ hi, scan_succ hi]
      cases hf : fetch s i with
      | command c _ =>
        have := fetch_bound hf
        have := c.words_pos
        exact ih (by omega) (by omega)
      | illegal => rfl
      | truncated => rfl
    · rw [scan_end (by omega), scan_end (by omega)]

/-- A walk that finds nothing stands at a command, after which it still finds nothing (30_encoding.md R112). -/
theorem scan_none_step {s : State} {i : Nat} (h : scan s s.cmdLen.toNat i = none) (hi : i < s.cmdLen.toNat) :
    ∃ c rest, fetch s i = .command c rest ∧ i + c.words ≤ s.cmdLen.toNat ∧
      scan s s.cmdLen.toNat (i + c.words) = none := by
  rw [scan_fuel (fuel' := s.cmdLen.toNat - i - 1 + 1) (by omega) (by omega), scan_succ hi] at h
  cases hf : fetch s i with
  | command c rest =>
    have hb := fetch_bound hf
    have hw := c.words_pos
    rw [hf] at h
    exact ⟨c, rest, rfl, hb, by rw [← h]; exact scan_fuel (by omega) (by omega)⟩
  | illegal => rw [hf] at h; cases h
  | truncated => rw [hf] at h; cases h

/-- One step of an executing phase: the end of the list, a command of its class, or a command of another class
(44_pipeline.md R257). -/
theorem walkStep_end {s : State} (h : s.cmdLen.toNat ≤ s.opIdx) (k : CmdClass) (p : Phase) :
    walkStep k p s = .next (enter p s) := if_neg (by omega)

theorem walkStep_command {s : State} {i : Instr} {rest : List Word} (h : s.opIdx < s.cmdLen.toNat)
    (hf : fetch s s.opIdx = .command i rest) (k : CmdClass) (p : Phase) :
    walkStep k p s = if i.cls = k then exec i s else .next (skip i.words s) := by
  unfold walkStep
  rw [if_pos h, hf]

/-- What VALIDATE comes to (44_pipeline.md R253). -/
theorem validateList_cases (s : State) :
    (s.cmdLen = 0 ∧ validateList s = raise .emptyList 0 s) ∨
      (s.cmdLen ≠ 0 ∧ ∃ c i, (c = .unknownToken ∨ c = .truncatedCommand) ∧ scan s s.cmdLen.toNat 0 = some (c, i) ∧
        validateList s = raise c (infoOfNat i) { s with opIdx := i }) ∨
      (s.cmdLen ≠ 0 ∧ scan s s.cmdLen.toNat 0 = none ∧ validateList s = enter .decHdr s) := by
  have hc : ∀ fuel j c i, scan s fuel j = some (c, i) → c = .unknownToken ∨ c = .truncatedCommand := by
    intro fuel
    induction fuel with
    | zero => intro j c i h; cases h
    | succ fuel ih =>
      intro j c i h
      unfold scan at h
      split at h
      · split at h
        · exact ih _ _ _ h
        · cases h; exact .inl rfl
        · cases h; exact .inr rfl
      · cases h
  unfold validateList
  split
  · next h => exact .inl ⟨h, rfl⟩
  · next h =>
    split
    · next c i hs => exact .inr (.inl ⟨h, c, i, hc _ _ _ _ hs, hs, rfl⟩)
    · next hs => exact .inr (.inr ⟨h, hs, rfl⟩)

/-! ### One step of the core, phase by phase (44_pipeline.md R266) -/

theorem coreStep_stalled {s : State} (h : s.stalled = true) : coreStep s = .next s := if_pos h

theorem coreStep_running {s : State} (h : s.stalled = false) :
    coreStep s =
      match s.phase with
      | .idle => .next s
      | .validate => .next (validateList s)
      | .decHdr => .next (decodeHeader s)
      | .decPix => decodePixels s
      | .crop => walkStep .crop .mirror s
      | .mirror => walkStep .mirror .rotate s
      | .rotate => walkStep .rotate .resync s
      | .resync => .next (resync s)
      | .filter => walkStep .filter .encHdr s
      | .encHdr => encodeHeader s
      | .encPix => encodePixels s
      | .done => .next s
      | .error => .next s :=
  if_neg (by rw [h]; exact Bool.false_ne_true)

/-- The phase a walk passes to. -/
def phaseAfter : CmdClass → Phase
  | .crop => .mirror
  | .mirror => .rotate
  | .rotate => .resync
  | .filter => .encHdr

theorem coreStep_phaseOf {s : State} (h : s.stalled = false) {k : CmdClass} (hp : s.phase = phaseOf k) :
    coreStep s = walkStep k (phaseAfter k) s := by
  rw [coreStep_running h, hp]
  cases k <;> rfl

end Sys2Proof.Machine
end

