-- ==== Sys2Proof/Laws/HostPort.lean ====
section
/-! SUPPORT. The register block: which register stands at an offset, everything a host move can do, one step by the schedule. -/

namespace Sys2Proof.Machine

/-! ### Which register stands where (10_state.md R36) -/

theorem regAt_high {cap off : Nat} (h : 0x58 ≤ off) : regAt cap off = cmdRegAt cap off := by
  unfold regAt
  split <;> first | (exfalso; omega) | rfl

theorem regAt_cmd {cap i : Nat} (h : i < cap) : regAt cap (0x1000 + 4 * i) = some (.cmd i) := by
  rw [regAt_high (by omega), cmdRegAt, if_pos (by omega)]
  congr 2
  omega

/-- `CMD[i]` stands at `0x1000 + 4·i` and nowhere else. -/
theorem regAt_eq_cmd {cap off i : Nat} (h : regAt cap off = some (.cmd i)) : i < cap ∧ off = 0x1000 + 4 * i := by
  by_cases ho : 0x58 ≤ off
  · rw [regAt_high ho, cmdRegAt] at h
    split at h
    · next hc => cases h; omega
    · cases h
  · have : off < 0x58 := by omega
    interval_cases off <;> cases h

/-- A register that is no word of `CMD` stands at one offset below 0x58. -/
theorem regAt_low {cap off : Nat} {r : HostReg} (h : regAt cap off = some r) (hr : ∀ i, r ≠ .cmd i) : off < 0x58 := by
  by_contra ho
  rw [regAt_high (by omega), cmdRegAt] at h
  split at h
  · cases h; exact hr _ rfl
  · cases h

theorem regAt_eq_ctrl {cap off : Nat} (h : regAt cap off = some .ctrl) : off = 0x00 := by
  have := regAt_low h (by simp)
  interval_cases off <;> first | rfl | cases h

theorem regAt_eq_cmdLen {cap off : Nat} (h : regAt cap off = some .cmdLen) : off = 0x14 := by
  have := regAt_low h (by simp)
  interval_cases off <;> first | rfl | cases h

theorem regAt_eq_pixAddr {cap off : Nat} (h : regAt cap off = some .pixAddr) : off = 0x50 := by
  have := regAt_low h (by simp)
  interval_cases off <;> first | rfl | cases h

theorem regAt_gap {cap off : Nat} (h : 0x58 ≤ off) (h' : off < 0x1000) : regAt cap off = none := by
  rw [regAt_high h, cmdRegAt, if_neg (by omega)]

theorem regAt_beyond {cap i : Nat} (h : cap ≤ i) : regAt cap (0x1000 + 4 * i) = none := by
  rw [regAt_high (by omega), cmdRegAt, if_neg (by omega)]

theorem regAt_unaligned {cap off : Nat} (h : off % 4 ≠ 0) : regAt cap off = none := by
  by_cases ho : 0x58 ≤ off
  · rw [regAt_high ho, cmdRegAt, if_neg (by omega)]
  · have : off < 0x58 := by omega
    interval_cases off <;> first | rfl | omega

/-- The lanes of `PIXDATA` (45_arithmetic.md R278). -/
theorem pixel_lanes (b g r : Byte) :
    (0#8 ++ r ++ g ++ b).extractLsb' 0 8 = b ∧ (0#8 ++ r ++ g ++ b).extractLsb' 8 8 = g ∧
      (0#8 ++ r ++ g ++ b).extractLsb' 16 8 = r ∧ (0#8 ++ r ++ g ++ b).extractLsb' 24 8 = 0#8 := by
  refine ⟨?_, ?_, ?_, ?_⟩ <;> apply BitVec.eq_of_getLsbD_eq <;> intro k hk <;>
    simp only [BitVec.getLsbD_extractLsb', BitVec.getLsbD_append, hk, decide_true, Bool.true_and]
  · rw [if_pos (by omega)]; congr 1; omega
  · rw [if_neg (by omega), if_pos (by omega)]; congr 1; omega
  · rw [if_neg (by omega), if_neg (by omega), if_pos (by omega)]; congr 1; omega
  · rw [if_neg (by omega), if_neg (by omega), if_neg (by omega)]; simp

/-! ### Everything a host move can do (10_state.md R37) -/

/-- A read changes the read latch and the count of free reads alone. -/
theorem hostRead_eq (off : Nat) (s : State) : ∃ v n, hostRead off s = { s with rdata := v, fresh := n } := by
  unfold hostRead
  split
  · exact ⟨_, _, rfl⟩
  · split <;> exact ⟨_, _, rfl⟩

/-- A write: of `CTRL` it resets or starts; else, only while `BUSY = 0`, it sets `CMDLEN` within `CMD_CAP`, `PIXADDR`, or
one word of `CMD`; else nothing. -/
theorem hostWrite_cases (off : Nat) (v : Word) (s : State) :
    hostWrite off v s = s ∨
      (off = 0 ∧ v.getLsbD 1 = true ∧ hostWrite off v s = resetCore s) ∨
      (off = 0 ∧ v.getLsbD 1 = false ∧ v.getLsbD 0 = true ∧ (s.phase = .idle ∨ s.phase = .done) ∧
        hostWrite off v s = startRun s) ∨
      (s.busy = false ∧ ∃ n : Word, n.toNat ≤ s.cfg.cmdCap ∧ hostWrite off v s = { s with cmdLen := n }) ∨
      (s.busy = false ∧ hostWrite off v s = { s with pixAddr := v }) ∨
      (s.busy = false ∧ ∃ i, i < s.cfg.cmdCap ∧ hostWrite off v s = { s with cmd := s.cmd.write i v }) := by
  unfold hostWrite
  split
  · next h =>
    obtain rfl := regAt_eq_ctrl h
    unfold writeCtrl
    split
    · next h1 => exact .inr (.inl ⟨rfl, h1, rfl⟩)
    · next h1 =>
      split
      · next h2 => exact .inr (.inr (.inl ⟨rfl, by simpa using h1, h2.1, h2.2, rfl⟩))
      · exact .inl rfl
  · split
    · exact .inl rfl
    · next hb =>
      refine .inr (.inr (.inr (.inl ⟨by simpa using hb, _, ?_, rfl⟩)))
      simp only [clampLen, BitVec.toNat_ofNat]
      exact (Nat.mod_le _ _).trans (Nat.min_le_right _ _)
  · split
    · exact .inl rfl
    · next hb => exact .inr (.inr (.inr (.inr (.inl ⟨by simpa using hb, rfl⟩))))
  · next i h =>
    split
    · exact .inl rfl
    · next hb => exact .inr (.inr (.inr (.inr (.inr ⟨by simpa using hb, i, (regAt_eq_cmd h).1, rfl⟩))))
  · exact .inl rfl

/-- A register's value answers a read the spec does not leave open (10_state.md R36). -/
theorem hostRead_of_reg {s : State} {off : Nat} {r : HostReg} (h : regAt s.cfg.cmdCap off = some r)
    (hf : readIsFree s r = false) : hostRead off s = { s with rdata := regValue s r } := by
  unfold hostRead
  rw [h]
  simp only [hf, Bool.false_eq_true, if_false]

/-- A free value answers a read the spec leaves open (10_state.md R37). -/
theorem hostRead_of_free {s : State} {off : Nat} {r : HostReg} (h : regAt s.cfg.cmdCap off = some r)
    (hf : readIsFree s r = true) :
    hostRead off s = { s with rdata := Config.freeRead s.fresh, fresh := s.fresh + 1 } := by
  unfold hostRead
  rw [h]
  simp only [hf, if_true]

/-! ### One step by the schedule (log 8) -/

theorem step_nil {s : State} (h : s.host = []) : step s = coreStep s := by
  simp only [step, machineStep, h]

theorem step_cons {s : State} {m : HostMove} {rest : List HostMove} (h : s.host = m :: rest) :
    step s = hostStep m { s with host := rest } := by
  simp only [step, machineStep, h]

end Sys2Proof.Machine
end

