-- ==== Sys2Proof/Laws/PerInstr.lean ====
section
/-! SUPPORT. The per-instruction family EncodingShape: a command's encoding is its command word, whose class field is the command's class and whose reserved bits are zero, and as many operand words as its format has (30_encoding.md R101 to R103, R107, R113). -/

namespace Sys2Proof.Laws.EncodingShape

/-- The `CLASS` field of a class (30_encoding.md R101). -/
def classField : CmdClass → BitVec 4
  | .filter => 1
  | .rotate => 2
  | .mirror => 3
  | .crop => 4

/-- What the family says of a command. -/
def Statement (i : Instr) : Prop :=
  (encode i).head? = some i.commandWord ∧ i.commandWord.extractLsb' 28 4 = classField i.cls ∧
    i.commandWord.extractLsb' 0 24 = 0#24 ∧ (encode i).length = i.words

/-- The fields of a known command word, checked once. -/
theorem of_fields {i : Instr} {w : Word} {k : CmdClass} {f : BitVec 4} (hw : i.commandWord = w) (hk : i.cls = k)
    (hf : w.extractLsb' 28 4 = f) (hkf : classField k = f) (hz : w.extractLsb' 0 24 = 0#24) : Statement i :=
  ⟨rfl, by rw [hw, hk, hkf, hf], by rw [hw, hz], encode_length i⟩

theorem keepb : Statement .keepb := of_fields rfl rfl (by decide) rfl (by decide)
theorem keepr : Statement .keepr := of_fields rfl rfl (by decide) rfl (by decide)
theorem keepg : Statement .keepg := of_fields rfl rfl (by decide) rfl (by decide)
theorem gray : Statement .gray := of_fields rfl rfl (by decide) rfl (by decide)
theorem neg : Statement .neg := of_fields rfl rfl (by decide) rfl (by decide)
theorem pixelate (a : Int) : Statement (.pixelate a) :=
  of_fields (w := 0x15000000) (k := .filter) (f := 1) rfl rfl (by decide) rfl (by decide)
theorem blur (a : Int) : Statement (.blur a) :=
  of_fields (w := 0x16000000) (k := .filter) (f := 1) rfl rfl (by decide) rfl (by decide)
theorem rot90 : Statement .rot90 := of_fields rfl rfl (by decide) rfl (by decide)
theorem rot180 : Statement .rot180 := of_fields rfl rfl (by decide) rfl (by decide)
theorem rot270 : Statement .rot270 := of_fields rfl rfl (by decide) rfl (by decide)
theorem rotm90 : Statement .rotm90 := of_fields rfl rfl (by decide) rfl (by decide)
theorem rotm180 : Statement .rotm180 := of_fields rfl rfl (by decide) rfl (by decide)
theorem rotm270 : Statement .rotm270 := of_fields rfl rfl (by decide) rfl (by decide)
theorem mirh : Statement .mirh := of_fields rfl rfl (by decide) rfl (by decide)
theorem mirv : Statement .mirv := of_fields rfl rfl (by decide) rfl (by decide)
theorem crop2 (a b : Int) : Statement (.crop2 a b) :=
  of_fields (w := 0x40000000) (k := .crop) (f := 4) rfl rfl (by decide) rfl (by decide)
theorem crop4 (a b c d : Int) : Statement (.crop4 a b c d) :=
  of_fields (w := 0x41000000) (k := .crop) (f := 4) rfl rfl (by decide) rfl (by decide)

end Sys2Proof.Laws.EncodingShape
end

