-- ==== Sys2Proof/Laws/Run.lean ====
section
/-! SUPPORT. The program as a list of words, and runs: one step at a time, one run after another, an invariant along a run. -/

namespace Sys2Proof.Machine

@[simp] theorem programWords_length (s : State) : s.programWords.length = s.cmdLen.toNat := by
  simp [State.programWords]

/-- What a fetch reads is the program from there on, at most the longest command (30_encoding.md R112). -/
theorem cmdWindow_eq (s : State) (i : Nat) : cmdWindow s i = (s.programWords.drop i).take maxWords := by
  refine List.ext_getElem? fun k => ?_
  simp only [cmdWindow, State.programWords, List.getElem?_map, List.getElem?_take, List.getElem?_drop]
  by_cases h : k < min maxWords (s.cmdLen.toNat - i)
  · rw [List.getElem?_range h, if_pos (by omega), List.getElem?_range (by omega)]
    rfl
  · rw [List.getElem?_eq_none (by simp; omega)]
    split
    · rw [List.getElem?_eq_none (by simp; omega)]
      rfl
    · rfl

theorem fetch_eq (s : State) (i : Nat) : fetch s i = decode ((s.programWords.drop i).take maxWords) := by
  rw [fetch, cmdWindow_eq]

/-- One step, then the rest of the run. -/
theorem run_succ {s t : State} (h : step s = .next t) (n : Nat) :
    Host.Core.run Sys2Proof.core (n + 1) s = Host.Core.run Sys2Proof.core n t := by
  simp only [Host.Core.run]
  rw [show core.step s = .next t from h]

/-- Two runs, one after the other. -/
theorem run_add {s t : State} {m : Nat} (h : Host.Core.run Sys2Proof.core m s = .next t) (n : Nat) :
    Host.Core.run Sys2Proof.core (m + n) s = Host.Core.run Sys2Proof.core n t := by
  induction m generalizing s with
  | zero => cases h; rw [Nat.zero_add]
  | succ m ih =>
    simp only [Host.Core.run] at h
    split at h
    · next u hu => rw [Nat.succ_add, run_succ hu, ih h]
    · cases h
    · cases h

/-- What every step keeps, every run keeps. -/
theorem run_keeps {P : State → Prop} (hstep : ∀ s t, P s → step s = .next t → P t) {s t : State} {n : Nat} (hs : P s)
    (h : Host.Core.run Sys2Proof.core n s = .next t) : P t := by
  induction n generalizing s with
  | zero => cases h; exact hs
  | succ n ih =>
    simp only [Host.Core.run] at h
    split at h
    · next u hu => exact ih (hstep s u hs hu) h
    · cases h
    · cases h

end Sys2Proof.Machine
end

