-- ==== Sys2Proof/Tests/Slice0.lean ====
section
/-! SUPPORT. Tests: ill-formed commands refused, words written out from 30_encoding.md R105, single steps with the results of 95_test_vectors.md, and for every statement with hypotheses a witness that meets them. -/

namespace Sys2Proof.Tests

open Sys2Proof.Machine

/-! ### Small states -/

/-- A pixel written `(B, G, R)`, as 95_test_vectors.md does. -/
def px (b g r : Nat) : Pixel := { b := BitVec.ofNat 8 b, g := BitVec.ofNat 8 g, r := BitVec.ofNat 8 r }

/-- A `w×h` image of pixels `(n, n, n)`. -/
def grays (w h : Nat) (ns : List Nat) : Image := { w := w, h := h, pix := ns.map fun n => px n n n }

/-- `2×2 [A, B, C, D]` of 95_test_vectors.md. -/
def abcd : Image := { w := 2, h := 2, pix := [px 10 20 30, px 40 50 60, px 70 80 90, px 100 110 120] }

/-- `N = 3×2 [1, 2, 3, 4, 5, 6]` of 95_test_vectors.md. -/
def sixPixels : Image := grays 3 2 [1, 2, 3, 4, 5, 6]

/-- `E`, the 8×8 image whose pixel `i` is `(i, i, i)`. -/
def board : Image := grays 8 8 (List.range 64)

/-- `T` of V-P1. -/
def tiles : Image :=
  { w := 3, h := 2, pix := [px 0 0 0, px 10 10 10, px 100 50 7, px 20 20 20, px 30 30 31, px 200 150 8] }

/-- A state that holds an image, in a phase that executes commands. -/
def on (m : Image) : State := { State.reset with img := m, phase := .filter }

/-- The image after a command. -/
def after (i : Instr) (m : Image) : Option Image := (nextOf (exec i (on m))).map fun t => t.img

/-- What a command raises: the phase, the three error registers, and whether the image is as before. -/
def raised (i : Instr) (m : Image) : Option (Phase × BitVec 3 × BitVec 8 × Word × Bool) :=
  (nextOf (exec i (on m))).map fun t => (t.phase, t.errKind, t.errCause, t.errInfo, t.img = m)

/-- The 54 header bytes of V-H2, with the width, height and declared size given. -/
def headerFile (w h size : Byte) : List Byte :=
  [0x42, 0x4D, 70, 0, 0, 0, 0, 0, 0, 0, 54, 0, 0, 0, 40, 0, 0, 0, w, 0, 0, 0, h, 0, 0, 0, 1, 0, 24, 0, 0, 0, 0, 0,
    size, 0, 0, 0] ++ List.replicate 16 0

/-- The 16 pixel bytes of `2×2 [A, B, C, D]`, V-X1 with padding `EE EE`. -/
def pixelFile : List Byte :=
  [0x46, 0x50, 0x5A, 0x64, 0x6E, 0x78, 0xEE, 0xEE, 0x0A, 0x14, 0x1E, 0x28, 0x32, 0x3C, 0xEE, 0xEE]

/-- Program P1's input, with other padding bytes. -/
def p1File : List Byte := headerFile 2 2 16 ++ pixelFile

/-- The Header of V-H2. -/
def p1Header : Header :=
  { sig := 0x4D42, fileSize := 70, dibSize := 40, width := 2, height := 2, bpp := 24, imgSize := 16 }

/-- A machine in a phase, with a program, an input, and the Header and Image of P1. -/
def running (p : Phase) (words : List Word) : State :=
  { State.reset with
    phase := p, cmd := State.reset.cmd.writeAll 0 words, cmdLen := BitVec.ofNat 32 words.length, inp := p1File,
    hdr := p1Header, img := abcd, ipos := 70 }

/-- The same before the header is decoded. -/
def starting (p : Phase) (words : List Word) : State := { running p words with hdr := {}, img := {}, ipos := 0 }

/-- A machine with a host move pending. -/
def withMove (m : HostMove) (s : State) : State := { s with host := [m] }

/-- 00_scope.md R11: `MAX_PIXELS` defaults to `MAX_DIM²`, whatever `MAX_DIM` is. -/
theorem test_max_pixels_default : ({ maxDim := 100 } : Config).maxPixels = 10000 ∧ ({ maxDim := 100 } : Config).legal ∧
    State.reset.cfg.maxPixels = 1073676289 := by decide

/-! ### Well-formedness: each operand out of range is refused (30_encoding.md R106) -/

theorem test_wf_pixelate : (Instr.pixelate 2147483648).wellFormed = false := by decide
theorem test_wf_blur : (Instr.blur (-2147483649)).wellFormed = false := by decide
theorem test_wf_crop2_a : (Instr.crop2 2147483648 0).wellFormed = false := by decide
theorem test_wf_crop2_b : (Instr.crop2 0 (-2147483649)).wellFormed = false := by decide
theorem test_wf_crop4_a : (Instr.crop4 2147483648 0 1 1).wellFormed = false := by decide
theorem test_wf_crop4_b : (Instr.crop4 0 2147483648 1 1).wellFormed = false := by decide
theorem test_wf_crop4_c : (Instr.crop4 0 0 2147483648 1).wellFormed = false := by decide
theorem test_wf_crop4_d : (Instr.crop4 0 0 1 (-2147483649)).wellFormed = false := by decide

/-! ### Decoding: words written out from 30_encoding.md R105 and R106 -/

theorem test_decode_keepb : decode [0b00010000000000000000000000000000] = .command .keepb [] := by decide
theorem test_decode_keepr : decode [0b00010001000000000000000000000000] = .command .keepr [] := by decide
theorem test_decode_keepg : decode [0b00010010000000000000000000000000] = .command .keepg [] := by decide
theorem test_decode_gray : decode [0b00010011000000000000000000000000] = .command .gray [] := by decide
theorem test_decode_neg : decode [0b00010100000000000000000000000000] = .command .neg [] := by decide
theorem test_decode_pixelate : decode [0b00010101000000000000000000000000, 0x99000000] =
    .command (.pixelate (-1728053248)) [] := by decide
theorem test_decode_blur : decode [0b00010110000000000000000000000000, 0xFFFFFFFF] = .command (.blur (-1)) [] := by
  decide
theorem test_decode_rot90 : decode [0b00100000000000000000000000000000] = .command .rot90 [] := by decide
theorem test_decode_rot180 : decode [0b00100001000000000000000000000000] = .command .rot180 [] := by decide
theorem test_decode_rot270 : decode [0b00100010000000000000000000000000] = .command .rot270 [] := by decide
theorem test_decode_rotm90 : decode [0b00100011000000000000000000000000] = .command .rotm90 [] := by decide
theorem test_decode_rotm180 : decode [0b00100100000000000000000000000000] = .command .rotm180 [] := by decide
theorem test_decode_rotm270 : decode [0b00100101000000000000000000000000] = .command .rotm270 [] := by decide
theorem test_decode_mirh : decode [0b00110000000000000000000000000000] = .command .mirh [] := by decide
theorem test_decode_mirv : decode [0b00110001000000000000000000000000] = .command .mirv [] := by decide
theorem test_decode_crop2 : decode [0b01000000000000000000000000000000, 0x14000000, 0x14000000, 7] =
    .command (.crop2 335544320 335544320) [7] := by decide
theorem test_decode_crop4 : decode [0b01000001000000000000000000000000, 1, 2, 3, 4] =
    .command (.crop4 1 2 3 4) [] := by decide

/-- V-D8 and V-D4: no command. -/
theorem test_decode_illegal : decode [0x26000000] = .illegal ∧ decode [0x32000000] = .illegal ∧
    decode [0x42000000] = .illegal ∧ decode [0x50000000] = .illegal ∧ decode [0xF0000000] = .illegal ∧
    decode [0] = .illegal := by decide

/-- V-D5 and V-D6: cut short. -/
theorem test_decode_truncated :
    decode [0x41000000, 0, 0] = .truncated ∧ decode [0x15000000] = .truncated := by decide

/-- The encoder gives the words of P3's `CROP4 1 0 2 2` and of V-E2's `BLUR -1`. -/
theorem test_encode : encode (.crop4 1 0 2 2) = [0x41000000, 1, 0, 2, 2] ∧
    encode (.blur (-1)) = [0x16000000, 0xFFFFFFFF] := by decide

/-- 30_encoding.md R121 to R124: aliases, and tokens that are none. -/
theorem test_tokens : rotateToken "right" = some .rot90 ∧ rotateToken "left" = some .rotm90 ∧
    rotateToken "360" = none ∧ mirrorToken "v" = some .mirv ∧ filterToken "blur" [3] = some (.blur 3) ∧
    filterToken "blur" [] = none ∧ cropSpec [1, 2] = some (.crop2 1 2) ∧ cropSpec [1, 2, 3] = none := by decide

/-! ### Commands: the vectors of 95_test_vectors.md, sections 2.3 and 2.4 -/

theorem test_keepb : after .keepb abcd =
    some { w := 2, h := 2, pix := [px 10 0 0, px 40 0 0, px 70 0 0, px 100 0 0] } := by decide
theorem test_keepr : after .keepr abcd =
    some { w := 2, h := 2, pix := [px 0 0 30, px 0 0 60, px 0 0 90, px 0 0 120] } := by decide
theorem test_keepg : after .keepg abcd =
    some { w := 2, h := 2, pix := [px 0 20 0, px 0 50 0, px 0 80 0, px 0 110 0] } := by decide
theorem test_gray : after .gray abcd = some (grays 2 2 [21, 51, 81, 111]) := by decide
/-- V-G, where a binary64 evaluation differs, and scenario S2. -/
theorem test_gray_exact : after .gray { w := 3, h := 1, pix := [px 1 1 1, px 24 72 0, px 50 150 100] } =
    some (grays 3 1 [1, 45, 123]) := by decide
theorem test_neg : after .neg abcd =
    some { w := 2, h := 2, pix := [px 245 235 225, px 215 205 195, px 185 175 165, px 155 145 135] } := by decide
/-- V-P1. -/
theorem test_pixelate : after (.pixelate 2) tiles =
    some { w := 3, h := 2, pix := [px 15 15 15, px 15 15 15, px 150 100 7, px 15 15 15, px 15 15 15, px 150 100 7] } := by
  decide
/-- V-P4. -/
theorem test_pixelate_negative : raised (.pixelate (-3)) tiles = some (.error, 2, 0x27, 0xFFFFFFFD, true) := by decide
/-- V-B6: a tie, just below and just above one. -/
theorem test_blur : after (.blur 3) { w := 2, h := 2, pix := [px 0 0 0, px 0 0 0, px 1 255 3, px 1 255 4] } =
    some { w := 2, h := 2, pix := [px 1 128 2, px 1 128 2, px 1 128 2, px 1 128 2] } := by decide
/-- V-B7: the blur reads the old pixels. An even size acts as the next odd one. -/
theorem test_blur_snapshot : after (.blur 2) (grays 3 1 [0, 90, 0]) = some (grays 3 1 [45, 30, 45]) := by decide
theorem test_rot90 : after .rot90 sixPixels = some (grays 2 3 [4, 1, 5, 2, 6, 3]) := by decide
theorem test_rot180 : after .rot180 sixPixels = some (grays 3 2 [6, 5, 4, 3, 2, 1]) := by decide
theorem test_rot270 : after .rot270 sixPixels = some (grays 2 3 [3, 6, 2, 5, 1, 4]) := by decide
theorem test_rotm90 : after .rotm90 sixPixels = some (grays 2 3 [3, 6, 2, 5, 1, 4]) := by decide
theorem test_rotm180 : after .rotm180 sixPixels = some (grays 3 2 [6, 5, 4, 3, 2, 1]) := by decide
theorem test_rotm270 : after .rotm270 sixPixels = some (grays 2 3 [4, 1, 5, 2, 6, 3]) := by decide
theorem test_mirh : after .mirh sixPixels = some (grays 3 2 [3, 2, 1, 6, 5, 4]) := by decide
theorem test_mirv : after .mirv sixPixels = some (grays 3 2 [4, 5, 6, 1, 2, 3]) := by decide
/-- V-CR19 and V-CR7. -/
theorem test_crop2 : after (.crop2 6 6) board = some (grays 2 2 [54, 55, 62, 63]) := by decide
theorem test_crop2_negative : raised (.crop2 (-1) 0) board = some (.error, 2, 0x21, 0xFFFFFFFF, true) := by decide
/-- V-CR18 and V-CR17. -/
theorem test_crop4 : after (.crop4 2 3 2 2) board = some (grays 2 2 [26, 27, 34, 35]) := by decide
theorem test_crop4_order : raised (.crop4 8 8 0 0) board = some (.error, 2, 0x21, 8, true) := by decide

/-- V-R8: the general rotation. -/
theorem test_rotate_angles : rotate 360 sixPixels = some sixPixels ∧ rotate (-450) sixPixels = rotate 270 sixPixels ∧
    rotate 45 sixPixels = none := by decide

/-! ### The pipeline and the host: one step each -/

/-- V-H2 and V-H3 (first and ninth rows). -/
theorem test_decode_header : (nextOf (step (starting .decHdr [0x14000000]))).map
    (fun t => (t.hdr, t.ipos, t.phase)) = some (p1Header, 54, .decPix) := by decide
theorem test_bad_signature : (nextOf (step { starting .decHdr [0x14000000] with inp := [0x58, 0x58] })).map
    (fun t => (t.phase, t.errKind, t.errCause, t.errInfo, t.ipos)) = some (.error, 1, 0x11, 0x5858, 2) := by decide
/-- 40_header_codec.md R153 (c): a file cut in the height keeps the width and the fields before it. -/
theorem test_header_registers_kept : (nextOf (step { starting .decHdr [0x14000000] with inp := p1File.take 25 })).map
    (fun t => (t.hdr, t.errCause, t.errInfo, t.ipos)) =
      some ({ sig := 0x4D42, fileSize := 70, dibSize := 40, width := 2 }, 0x31, 22, 22) := by decide
/-- V-X1 with `EE` padding, and V-H4 for 61 bytes. -/
theorem test_decode_pixels : (nextOf (step { running .decPix [0x14000000] with img := {}, ipos := 54 })).map
    (fun t => (t.img, t.ipos, t.phase)) = some (abcd, 70, .crop) := by decide
theorem test_short_row : (nextOf (step { running .decPix [0x14000000] with
      img := {}, ipos := 54, inp := p1File.take 61 })).map
    (fun t => (t.phase, t.errCause, t.errInfo, t.img, t.ipos)) = some (.error, 0x31, 54, {}, 54) := by decide
/-- V-H6, and V-X2's second row for a 3×1 image. -/
theorem test_encode_header : (nextOf (step { running .encHdr [0x14000000] with
      hdr := { p1Header with width := 3, imgSize := 0 } })).map (fun t => (t.out, t.phase)) =
    some ([0x42, 0x4D, 0x4E, 0, 0, 0, 0, 0, 0, 0, 0x36, 0, 0, 0, 0x28, 0, 0, 0, 3, 0, 0, 0, 2, 0, 0, 0, 1, 0, 0x18, 0,
      0, 0, 0, 0, 0x18, 0, 0, 0] ++ List.replicate 16 0, .encPix) := by decide
theorem test_encode_pixels : (nextOf (step { running .encPix [0x14000000] with
      hdr := { p1Header with width := 3, height := 1, imgSize := 12 },
      img := { w := 3, h := 1, pix := [px 1 2 3, px 4 5 6, px 7 8 9] } })).map (fun t => (t.out, t.phase)) =
    some ([1, 2, 3, 4, 5, 6, 7, 8, 9, 0, 0, 0], .done) := by decide
/-- V-E6: the sink takes nothing. -/
theorem test_short_write : (nextOf (step { running .encHdr [0x20000000] with cfg := { outCap := some 0 } })).map
    (fun t => (t.phase, t.errCause, t.errInfo, t.out)) = some (.error, 0x33, 0, []) := by decide
/-- V-E5's sink: the 54 header bytes, the first row's six bytes, no more. -/
theorem test_short_row_write : (nextOf (step { running .encPix [0x20000000] with
      out := headerBytes p1Header, cfg := { outCap := some 60 } })).map
    (fun t => (t.phase, t.errCause, t.errInfo, t.out.drop 54)) =
      some (.error, 0x33, 60, [0x46, 0x50, 0x5A, 0x64, 0x6E, 0x78]) := by decide
/-- V-D2 and V-D1. -/
theorem test_validate_unknown : (nextOf (step (starting .validate [0x14000000, 0x17000000]))).map
    (fun t => (t.phase, t.errKind, t.errCause, t.errInfo, t.opIdx)) = some (.error, 4, 0x41, 1, 1) := by decide
theorem test_validate_empty : (nextOf (step (starting .validate []))).map
    (fun t => (t.phase, t.errKind, t.errCause, t.errInfo)) = some (.error, 4, 0x42, 0) := by decide
/-- STATUS in CROP: `BUSY` and phase code 4. -/
theorem test_read_status_busy : State.readBack (running .crop []) 4 = some 0x401 := by decide
/-- V-Z1 and V-Z7: the status word after reset, and pixel C of P1's result. -/
theorem test_read_status : State.reset.readBack 4 = some 0 ∧ State.reset.readBack 0x28 = some 14 := by decide
theorem test_read_pixel : State.readBack { running .done [] with pixAddr := 2 } 0x54 = some 0x005A5046 ∧
    State.readBack { running .done [] with pixAddr := 4 } 0x54 = some 0 := by decide
/-- V-Z6: START and RESET together reset. -/
theorem test_reset_wins : (nextOf (step (withMove (.write 0 3) (running .done [])))).map (fun t => t.phase) =
    some .idle := by decide
/-- An opcode-table word is decoded and run as the first instruction after reset. -/
theorem test_fetch_word : decodeTableWord 32 0x41000000 = some (.crop4 0 0 0 0) ∧
    (nextOf (step (State.reset.withFetchWord 32 0x41000000))).map (fun t => (t.errCause, t.opIdx)) =
      some (0x21, 0) := by decide

/-- Program P2 by the function of a run: crop, then rotation, then negative; `EE` padding is read and dropped. -/
theorem test_run_function : (match runFunction {}
        (headerFile 3 2 0 ++
          [0x0A, 0x0B, 0x0C, 0x0D, 0x0E, 0x0F, 0x10, 0x11, 0x12, 0xEE, 0xEE, 0xEE, 1, 2, 3, 4, 5, 6, 7, 8, 9, 0xEE,
            0xEE, 0xEE])
        [.neg, .rot90, .crop2 1 0] with
      | .ok r => some (r.out.drop 54)
      | .error _ => none) =
    some [0xEF, 0xEE, 0xED, 0xF8, 0xF7, 0xF6, 0, 0, 0xF2, 0xF1, 0xF0, 0xFB, 0xFA, 0xF9, 0, 0] := by decide

/-! ### Witnesses: concrete states and operands that meet the hypotheses of a statement, clause by clause -/

theorem test_witness_DecodeOfEncodeGivesTheCommandBack :
    (Instr.crop4 (-2147483648) 2147483647 0 (-1)).wellFormed = true := by decide
theorem test_witness_EncodeOfDecodeGivesTheWordsBack :
    decode [0x40000000, 0x80000000, 0x7FFFFFFF, 5] = .command (.crop2 (-2147483648) 2147483647) [5] := by decide
theorem test_witness_ReservedBitsAndUnknownWordsAreIllegal :
    (0x14000001 : Word).extractLsb' 0 24 ≠ 0#24 ∧ (0x14800000 : Word).extractLsb' 0 24 ≠ 0#24 ∧
      (0x17000000 : Word) ∉ commandWords := by decide
theorem test_witness_TruncatedExactlyWhenOperandWordsRunOut :
    ((0x41000000 : Word), 4) ∈ operandCounts ∧ [(0 : Word), 0, 0].length < 4 ∧
      ((0x15000000 : Word), 1) ∈ operandCounts ∧ ([] : List Word).length < 1 := by decide
theorem test_witness_ResetLeavesTheListedValues : ∃ s t : State, t = resetCore s ∧ s.phase = .done ∧ s.img ≠ {} :=
  ⟨running .done [], _, rfl, by decide, by decide⟩
theorem test_witness_ResetIsHonouredInEveryPhase :
    (∃ s : State, s.host = [.resetPin] ∧ HostMove.resetPin.resets = true ∧ s.phase = .encPix) ∧
      ∃ s : State, s.host = [.write 0 3] ∧ (HostMove.write 0 3).resets = true ∧ s.phase = .error :=
  ⟨⟨withMove .resetPin (running .encPix []), by decide⟩, ⟨withMove (.write 0 3) (running .error []), by decide⟩⟩
theorem test_witness_StartClearsTheRunAndKeepsTheProgram :
    (∃ s : State, s.host = [.write 0 1] ∧ (HostMove.write 0 1).starts = true ∧ s.phase = .idle) ∧
      ∃ s : State, s.host = [.write 0 0xFFFFFFFD] ∧ (HostMove.write 0 0xFFFFFFFD).starts = true ∧ s.phase = .done :=
  ⟨⟨withMove (.write 0 1) (starting .idle []), by decide⟩, ⟨withMove (.write 0 0xFFFFFFFD) (running .done []), by decide⟩⟩
theorem test_witness_StartIsIgnoredOutsideIdleAndDone :
    ∃ s : State, s.host = [.write 0 1] ∧ (HostMove.write 0 1).starts = true ∧ s.phase ≠ .idle ∧ s.phase ≠ .done :=
  ⟨withMove (.write 0 1) (running .error []), by decide⟩
/-- The four clauses: a write ignored, a reset, a read, a read of a register in flight. -/
theorem test_witness_HostAccessRights :
    (∃ s : State, s.host = [.write 0x50 7] ∧ s.busy = true ∧ (HostMove.write 0x50 7).resets = false) ∧
      (∃ s : State, s.host = [.write 0 2] ∧ (HostMove.write 0 2).resets = true) ∧
      ∃ s : State, s.host = [.read 0x30] ∧ regAt s.cfg.cmdCap 0x30 = some .hdrWidth ∧
        HostReg.hdrWidth.inFlight = true ∧ s.busy = true :=
  ⟨⟨withMove (.write 0x50 7) (running .crop []), by decide⟩, ⟨withMove (.write 0 2) (running .crop []), by decide⟩,
    ⟨withMove (.read 0x30) (running .crop []), by decide⟩⟩
/-- `BUSY = 0`; the last pixel and the first index past it; the last word of the program, the first after it, the last
word of `CMD`, the first past it, the ends of the gap, an unaligned offset. -/
theorem test_witness_RegisterMapReads :
    ∃ s s' : State, s.busy = false ∧ s.img.wf ∧ 1 < s.img.w ∧ 1 < s.img.h ∧ s.pixAddr.toNat = 1 * s.img.w + 1 ∧
      s'.busy = false ∧ s'.img.w * s'.img.h ≤ s'.pixAddr.toNat ∧ 1 < s.cmdLen.toNat ∧ s.cmdLen.toNat ≤ 2 ∧
      2 < s.cfg.cmdCap ∧ 1023 < s.cfg.cmdCap ∧ s.cfg.cmdCap ≤ 1024 ∧
      0x58 ≤ 0x58 ∧ 0xFFC < 0x1000 ∧ 0x1002 % 4 ≠ 0 :=
  ⟨{ running .done [0x15000000, 2] with pixAddr := 3 }, { running .done [] with pixAddr := 4 }, by decide⟩
/-- A machine in CROP whose program fills `CMD`: its last word, the last phase of the list. -/
theorem test_witness_ReadsTheSpecFixesInEveryPhase :
    ∃ s s' : State, s.busy = true ∧ 1023 < s.cfg.cmdCap ∧ 1023 < s.cmdLen.toNat ∧ s.phase = .crop ∧ s'.phase = .error ∧
      [Phase.idle, .validate, .decHdr, .decPix, .crop, .mirror, .rotate, .resync, .filter, .encHdr, .encPix, .done,
        .error][12]? = some s'.phase :=
  ⟨{ running .crop [] with cmdLen := 1024 }, running .error [], by decide⟩
/-- `CMDLEN`, `PIXADDR`, the last word of `CMD`, an offset that is none of them. -/
theorem test_witness_RegisterMapWrites :
    (∃ s : State, s.host = [.write 0x14 0xFFFFFFFF] ∧ s.busy = false) ∧
      (∃ s : State, s.host = [.write 0x50 3] ∧ s.busy = false) ∧
      (∃ s : State, s.host = [.write 0x1FFC 9] ∧ s.busy = false ∧ 1023 < s.cfg.cmdCap ∧ 0x1FFC = 0x1000 + 4 * 1023) ∧
      ∃ s : State, s.host = [.write 0x2000 9] ∧ s.busy = false ∧ ∀ i, i < s.cfg.cmdCap → 0x2000 ≠ 0x1000 + 4 * i :=
  ⟨⟨withMove (.write 0x14 0xFFFFFFFF) (running .done []), by decide⟩,
    ⟨withMove (.write 0x50 3) (running .done []), by decide⟩,
    ⟨withMove (.write 0x1FFC 9) (running .done []), by decide⟩,
    ⟨withMove (.write 0x2000 9) (running .done []), by decide, by decide, fun i h => by
      have : (withMove (.write 0x2000 9) (running .done [])).cfg.cmdCap = 1024 := rfl
      omega⟩⟩
/-- A command that installs and one that raises. -/
theorem test_witness_CommandInstallsOrRaises :
    (∃ s t : State, exec .neg s = .next t) ∧ ∃ s t : State, exec (.blur (-1)) s = .next t ∧ t.phase = .error :=
  ⟨⟨on abcd, _, rfl⟩, ⟨on abcd, _, rfl, rfl⟩⟩
theorem test_witness_CommandsReadOnlyTheImage :
    ∃ s s' : State, s.img = s'.img ∧ s.cfg = s'.cfg ∧ s.out ≠ s'.out ∧ s.hdr ≠ s'.hdr :=
  ⟨on abcd, { running .crop [] with out := [1] }, by decide⟩
theorem test_witness_ErrorIsStickyUntilReset :
    (∃ s t : State, s.phase = .error ∧ step s = .next t) ∧
      ∃ s t : State, s.phase = .error ∧ s.host = [.resetPin] ∧ step s = .next t :=
  ⟨⟨withMove (.write 0 1) (running .error []), _, rfl, rfl⟩, ⟨withMove .resetPin (running .error []), _, rfl, rfl, rfl⟩⟩
/-- A core step, one that a host move lets it take, and a step by a host move that ends the rest. -/
theorem test_witness_TheCoreRestsInIdleDoneAndError :
    (∃ s t : State, s.phase = .done ∧ s.host = [] ∧ s.out ≠ [] ∧ step s = .next t) ∧
      (∃ s t : State, s.phase = .error ∧ s.host = [.tick] ∧ step s = .next t) ∧
      ∃ s t : State, s.phase = .idle ∧ s.host = [.write 0 1] ∧ step s = .next t ∧ t.phase = .validate :=
  ⟨⟨{ running .done [] with out := [1] }, _, rfl, rfl, by decide, rfl⟩, ⟨withMove .tick (running .error []), _, rfl, rfl, rfl⟩,
    ⟨withMove (.write 0 1) (starting .idle []), _, rfl, rfl, rfl, rfl⟩⟩
/-- KeepFiltersPassOneChannel and NegativeComplementsEveryChannel. -/
theorem test_witness_PointwiseFilters : (on abcd).img.wf ∧ 1 < (on abcd).img.w ∧ 1 < (on abcd).img.h := by decide
theorem test_witness_GrayscaleSetsTheLuminance : (on abcd).img.wf ∧ State.reset.cfg.luma = [] := by decide
/-- The last tile of `T`, clipped at the right edge; block size 0. -/
theorem test_witness_PixelateFlattensEveryTile :
    (on tiles).img.wf ∧ (0 : Int) < 2 ∧ 1 * (2 : Int).toNat ≤ 2 ∧ 2 < min ((1 + 1) * (2 : Int).toNat) (on tiles).img.w ∧
      0 * (2 : Int).toNat ≤ 1 ∧ 1 < min ((0 + 1) * (2 : Int).toNat) (on tiles).img.h := by decide
theorem test_witness_PixelateCornerSizes :
    ∃ s t : State, s.img.wf ∧ (s.img.w : Int) ≤ 3 ∧ (s.img.h : Int) ≤ 3 ∧ exec (.pixelate 3) s = .next t ∧
      2 < s.img.w ∧ 1 < s.img.h := ⟨on tiles, _, by decide, by decide, by decide, rfl, by decide, by decide⟩
theorem test_witness_BlurAveragesTheClippedWindow : (on tiles).img.wf ∧ (0 : Int) ≤ 0 ∧ (0 : Int) ≤ 2147483647 ∧
    2 < (on tiles).img.w ∧ 1 < (on tiles).img.h := by decide
theorem test_witness_BlurKernelSizes : (on tiles).img.wf ∧ (2147483646 : Int) % 2 = 0 ∧
    fitsI32 2147483646 = true := by decide
theorem test_witness_NegativeSizesRaiseRangeErrors : (on {}).img.wf ∧ (on tiles).img.wf ∧ (-2147483648 : Int) < 0 := by
  decide
/-- RotateCommandsMoveEveryPixel, RotationsFormACyclicGroup, MirrorCommandsReverseColumnsOrRows and MirrorLaws. -/
theorem test_witness_Geometry : (on sixPixels).img.wf ∧ 2 < (on sixPixels).img.w ∧ 1 < (on sixPixels).img.h ∧
    (on {}).img.wf := by decide
theorem test_witness_RotateRefusesAnglesWithoutAMapping : rotate (-45) sixPixels = none ∧
    (on sixPixels).img = sixPixels ∧ sixPixels.wf := by decide
/-- The corner pixel of the board alone: every bound met with equality. -/
theorem test_witness_CropCommandsCopyTheRectangle : (on board).img.wf ∧ (7 : Int) < (on board).img.w ∧
    (7 : Int) < (on board).img.h ∧ (7 : Int) + 1 ≤ (on board).img.w ∧ (7 : Int) + 1 ≤ (on board).img.h := by decide
/-- Each of the six checks at its boundary, on the board: offsets −1 and 8, sizes 0, extents one too far. -/
theorem test_witness_CropChecksInOrder : (on board).img.wf ∧
    ((-1 : Int) < 0 ∧ (on board).img.w ≤ (8 : Int)) ∧ ((on board).img.h ≤ (8 : Int)) ∧
    ((0 : Int) ≤ 0 ∧ (7 : Int) < (on board).img.w ∧ (7 : Int) < (on board).img.h) ∧
    ((0 : Int) < 2 ∧ (on board).img.w < (7 : Int) + 2) ∧ ((7 : Int) + 1 ≤ (on board).img.w) ∧
    ((on board).img.h < (7 : Int) + 2) := by decide
theorem test_witness_CropsComposeByAddingOffsets :
    ∃ s t u : State, s.phase ≠ .error ∧ exec (.crop2 2 2) s = .next t ∧ t.phase ≠ .error ∧
      exec (.crop2 4 4) t = .next u ∧ u.phase ≠ .error ∧ (Instr.crop2 2 2).cls = .crop :=
  ⟨on board, _, _, by decide, rfl, by decide, rfl, by decide, by decide⟩
theorem test_witness_GeometricCommandsMovePixelsWhole :
    (∃ s t : State, exec .rot90 s = .next t ∧ Instr.rot90.cls = .rotate) ∧
      (∃ s t : State, exec .mirv s = .next t ∧ Instr.mirv.cls = .mirror) ∧
      ∃ s t : State, exec (.crop4 1 0 1 2) s = .next t ∧ (Instr.crop4 1 0 1 2).cls = .crop :=
  ⟨⟨on abcd, _, rfl, rfl⟩, ⟨on abcd, _, rfl, rfl⟩, ⟨on abcd, _, rfl, rfl⟩⟩

/-- The value or the error of a result. -/
def isOk {ε α : Type} : Except ε α → Bool
  | .ok _ => true
  | .error _ => false

/-- A header that decodes, one cut one byte short of its end, and one that no byte of is there. -/
theorem test_witness_HeaderDecodesByTheFileLayout :
    ∃ s s' s'' : State, (s.host = [] ∧ s.stalled = false ∧ s.phase = .decHdr ∧ s.ipos = 0 ∧ s.cfg.ioFault = [] ∧
        s.cfg.ioHang = [] ∧ isOk (headerOf s.cfg s.inp) = true) ∧
      (s'.host = [] ∧ s'.stalled = false ∧ s'.phase = .decHdr ∧ s'.ipos = 0 ∧ s'.cfg.ioFault = [] ∧
        s'.cfg.ioHang = [] ∧ isOk (headerOf s'.cfg s'.inp) = false ∧ stopAt .shortRead 38 = 38) ∧
      (s''.host = [] ∧ s''.stalled = false ∧ s''.phase = .decHdr ∧ s''.ipos = 0 ∧ s''.cfg.ioFault = [] ∧
        s''.cfg.ioHang = [] ∧ isOk (headerOf s''.cfg s''.inp) = false ∧ stopAt .shortRead 0 = 0) :=
  ⟨starting .decHdr [], { starting .decHdr [] with inp := p1File.take 53 }, { starting .decHdr [] with inp := [] },
    by decide⟩
theorem test_headerOk : (running .decPix []).HeaderOk := ⟨by decide, by decide, by decide, by decide⟩
/-- The rows exactly, and one byte short of the last row. -/
theorem test_witness_PixelRowsDecodeBottomUp :
    ∃ s s' : State, (s.host = [] ∧ s.stalled = false ∧ s.phase = .decPix ∧ s.HeaderOk ∧ s.cfg.ioFault = [] ∧
        s.cfg.ioHang = [] ∧ 54 + strideOf s.hdr.width.toNat * s.hdr.height.toNat = s.inp.length) ∧
      (s'.host = [] ∧ s'.stalled = false ∧ s'.phase = .decPix ∧ s'.HeaderOk ∧ s'.cfg.ioFault = [] ∧
        s'.cfg.ioHang = [] ∧ 1 < s'.hdr.height.toNat ∧ 54 + 1 * strideOf s'.hdr.width.toNat ≤ s'.inp.length ∧
        s'.inp.length + 1 = 54 + (1 + 1) * strideOf s'.hdr.width.toNat) :=
  ⟨running .decPix [], { running .decPix [] with inp := p1File.take 69 },
    ⟨by decide, by decide, by decide, test_headerOk, by decide, by decide, by decide⟩,
    ⟨by decide, by decide, by decide, test_headerOk, by decide, by decide, by decide, by decide, by decide⟩⟩
theorem test_witness_ShortWriteKeepsTheAcceptedBytes :
    ∃ (s : State) (bs : List Byte), s.cfg.outCap = some 60 ∧ s.out.length ≤ 60 ∧ s.cfg.ioFault = [] ∧
      s.cfg.ioHang = [] ∧ 60 < s.out.length + bs.length :=
  ⟨{ running .encPix [] with cfg := { outCap := some 60 }, out := List.replicate 54 0 }, List.replicate 7 1, by decide⟩
/-- V-E7's oracle, and a seek and a write that fail. -/
theorem test_witness_OracleFailureIsReportedFirst :
    ∃ s : State, s.cfg.ioHang = [] ∧ (⟨.read, s.ipos, 8⟩ : IoCall) ∈ s.cfg.ioFault ∧
      (⟨.seek, 54, 0⟩ : IoCall) ∈ s.cfg.ioFault ∧ (⟨.write, s.out.length, 0⟩ : IoCall) ∈ s.cfg.ioFault :=
  ⟨{ running .decPix [] with cfg := { ioFault := [⟨.read, 70, 8⟩, ⟨.seek, 54, 0⟩, ⟨.write, 0, 0⟩] } }, by decide⟩
theorem test_witness_StepExecutesTheFetchedCommand :
    ∃ s : State, s.host = [] ∧ s.stalled = false ∧ s.phase = phaseOf (Instr.pixelate 2).cls ∧
      s.opIdx < s.cmdLen.toNat ∧ fetch s s.opIdx = .command (.pixelate 2) [] :=
  ⟨running .filter [0x15000000, 2], by decide⟩
/-- The second command of a list, ending exactly at `CMDLEN`. -/
theorem test_witness_StepExecutesTheEncodedCommand :
    ∃ s : State, s.host = [] ∧ s.stalled = false ∧ s.phase = phaseOf (Instr.crop2 1 0).cls ∧
      (Instr.crop2 1 0).wellFormed = true ∧ s.opIdx + (Instr.crop2 1 0).words = s.cmdLen.toNat ∧
      (encode (.crop2 1 0)).map some = (List.range 3).map fun k => s.cmd.read (s.opIdx + k) :=
  ⟨{ running .crop [0x14000000, 0x40000000, 1, 0] with opIdx := 1 }, by decide⟩
/-- A command of the phase's class, one of another class, the end of the list. -/
theorem test_witness_ExecutingPhasesWalkTheList :
    ∃ s s' : State, s.host = [] ∧ s.stalled = false ∧ s.phase = .mirror ∧ s.opIdx < s.cmdLen.toNat ∧
      fetch s 0 = .command .mirv [0x14000000] ∧ fetch s 1 = .command .neg [] ∧ Instr.mirv.cls = .mirror ∧
      Instr.neg.cls ≠ .mirror ∧ s'.phase = .mirror ∧ s'.cmdLen.toNat ≤ s'.opIdx :=
  ⟨running .mirror [0x31000000, 0x14000000], { running .mirror [0x31000000, 0x14000000] with opIdx := 2 }, by decide⟩

/-- The listed words of a program whose words are all listed. -/
theorem test_programWords (p : Phase) (ws : List Word) (h : (List.range (running p ws).cmdLen.toNat).map
    (fun i => (running p ws).cmd.read i) = ws.map some) : (running p ws).programWords = ws := by
  have hl := congrArg List.length h
  refine List.ext_getElem (by simpa [State.programWords] using hl) fun i h1 h2 => ?_
  have := congrArg (fun l => l[i]?) h
  simp only [State.programWords, List.length_map, List.length_range] at h1
  simp only [List.getElem?_map, List.getElem?_range h1, List.getElem?_eq_getElem h2, Option.map_some,
    Option.some.injEq] at this
  simp only [State.programWords, List.getElem_map, List.getElem_range, State.cmdWord, this, Option.getD_some]

/-- An empty list, a legal list, an unknown word after a command, a command cut short after a command. -/
theorem test_witness_ValidateReportsTheFirstOffender :
    (∃ s : State, s.host = [] ∧ s.stalled = false ∧ s.phase = .validate ∧ s.cmdLen = 0) ∧
      (∃ s : State, s.host = [] ∧ s.stalled = false ∧ s.phase = .validate ∧
        s.programWords = [Instr.neg, .blur 2].flatMap encode) ∧
      (∃ s : State, s.host = [] ∧ s.phase = .validate ∧ (0x17000000 : Word) ∉ commandWords ∧
        s.programWords = [Instr.neg].flatMap encode ++ [0x17000000]) ∧
      ∃ s : State, s.host = [] ∧ s.phase = .validate ∧ (Instr.crop4 0 0 1 1).wellFormed = true ∧
        3 < (Instr.crop4 0 0 1 1).words ∧
        s.programWords = [Instr.neg].flatMap encode ++ (encode (.crop4 0 0 1 1)).take 3 :=
  ⟨⟨starting .validate [], by decide⟩,
    ⟨starting .validate [0x14000000, 0x16000000, 2], by decide, by decide, by decide,
      test_programWords .validate [0x14000000, 0x16000000, 2] (by decide)⟩,
    ⟨starting .validate [0x14000000, 0x17000000], by decide, by decide, by decide,
      test_programWords .validate [0x14000000, 0x17000000] (by decide)⟩,
    ⟨starting .validate [0x14000000, 0x41000000, 0, 0], by decide, by decide, by decide, by decide,
      test_programWords .validate [0x14000000, 0x41000000, 0, 0] (by decide)⟩⟩
theorem test_witness_ResyncCopiesTheImageSize :
    ∃ s : State, s.host = [] ∧ s.stalled = false ∧ s.phase = .resync ∧ s.img.w < 2 ^ 31 ∧ s.img.h < 2 ^ 31 :=
  ⟨running .resync [], by decide⟩

/-! Invariant witnesses: a machine about to validate, about to decode, about to encode the header, the rows. -/

/-- The invariant of a machine of the tests whose decidable clauses hold. -/
theorem test_inv (s : State) (hcap : s.cfg.outCap.all (fun c => s.out.length ≤ c) = true) (herr : s.phase ≠ .error) (h1 : s.cfg.legal) (h2 : s.cmd.wf)
    (h3 : ∀ e ∈ s.cmd, e.1 < s.cfg.cmdCap) (h4 : s.cmdLen.toNat ≤ s.cfg.cmdCap)
    (h5 : s.img.wf ∧ s.img.w ≤ s.cfg.maxDim ∧ s.img.h ≤ s.cfg.maxDim ∧ s.img.w * s.img.h ≤ s.cfg.maxPixels)
    (h6 : s.phase = .idle ∨ s.phase = .validate ∨ s.phase = .decHdr ∨ s.phase = .decPix → s.img = {})
    (h7 : s.ipos ≤ s.inp.length) (h8 : s.phase = .validate ∨ s.phase = .decHdr ∧ s.stalled = false → s.ipos = 0)
    (h9 : s.phase.headerDecoded → s.hdr.sig = 0x4D42 ∧ s.hdr.dibSize = 40 ∧ s.hdr.bpp = 24 ∧ ¬ badDimensions s.cfg s.hdr)
    (h10 : s.phase.resynced → s.hdr.width.toNat = s.img.w ∧ s.hdr.height.toNat = s.img.h)
    (h11 : s.phase.validated → s.cmdLen ≠ 0 ∧ scan s s.cmdLen.toNat 0 = none)
    (h12 : s.phase.walks → s.opIdx ≤ s.cmdLen.toNat ∧ scan s s.cmdLen.toNat s.opIdx = none)
    (h13 : s.phase.walks = false → s.phase ≠ .error → s.opIdx = 0) (h14 : s.phase.beforeOutput → s.out = [])
    (h15 : s.phase = .encPix ∨ s.phase = .done →
      strideOf s.hdr.width.toNat * s.hdr.height.toNat ≤ s.hdr.imgSize.toNat)
    (h16 : s.phase = .encPix → s.stalled = false → s.out = headerBytes s.hdr)
    (h17 : s.phase = .done → s.out = fileBytes s.hdr s.img ∧ s.out.length = 54 + s.hdr.imgSize.toNat)
    (h18 : s.errKind = 0 ∧ s.errCause = 0 ∧ s.errInfo = 0) (h19 : s.stalled → s.phase.callsOut) : s.Inv where
  config := h1
  memory := h2
  memoryBound := h3
  lenBound := h4
  image := h5
  imageEmpty := h6
  position := h7
  positionStart := h8
  sink := fun c h => by rw [h] at hcap; exact of_decide_eq_true hcap
  header := h9
  synced := h10
  program := h11
  walking := h12
  opIdxZero := h13
  noOutput := h14
  sized := h15
  headerWritten := h16
  complete := h17
  noError := fun _ => h18
  errorNamed := fun h => absurd h herr
  stall := h19

/-- The program `NEG; ROT90` of the invariant witnesses. -/
def twoCommands : List Word := [0x14000000, 0x20000000]

theorem test_inv_validate : (starting .validate twoCommands).Inv := by
  refine test_inv _ ?_ ?_ ?_ ?_ ?_ ?_ ?_ ?_ ?_ ?_ ?_ ?_ ?_ ?_ ?_ ?_ ?_ ?_ ?_ ?_ ?_ <;> decide
theorem test_inv_decHdr : (starting .decHdr twoCommands).Inv := by
  refine test_inv _ ?_ ?_ ?_ ?_ ?_ ?_ ?_ ?_ ?_ ?_ ?_ ?_ ?_ ?_ ?_ ?_ ?_ ?_ ?_ ?_ ?_ <;> decide
theorem test_inv_encHdr : (running .encHdr twoCommands).Inv := by
  refine test_inv _ ?_ ?_ ?_ ?_ ?_ ?_ ?_ ?_ ?_ ?_ ?_ ?_ ?_ ?_ ?_ ?_ ?_ ?_ ?_ ?_ ?_ <;> decide
theorem test_inv_done : ({ running .done twoCommands with out := fileBytes p1Header abcd } : State).Inv := by
  refine test_inv _ ?_ ?_ ?_ ?_ ?_ ?_ ?_ ?_ ?_ ?_ ?_ ?_ ?_ ?_ ?_ ?_ ?_ ?_ ?_ ?_ ?_ <;> decide
/-- After the header's 54 bytes. -/
def encoding : State := { running .encPix twoCommands with out := headerBytes p1Header }
theorem test_inv_encPix : encoding.Inv := by
  refine test_inv _ ?_ ?_ ?_ ?_ ?_ ?_ ?_ ?_ ?_ ?_ ?_ ?_ ?_ ?_ ?_ ?_ ?_ ?_ ?_ ?_ ?_ <;> decide

theorem test_witness_HeaderEncodesToTheFileLayout :
    ∃ s : State, s.Inv ∧ s.QuietIo ∧ s.host = [] ∧ s.phase = .encHdr ∧ s.stalled = false :=
  ⟨running .encHdr twoCommands, test_inv_encHdr, ⟨rfl, rfl, rfl⟩, rfl, rfl, rfl⟩
theorem test_witness_PixelRowsEncodeBottomUp :
    ∃ s : State, s.Inv ∧ s.QuietIo ∧ s.host = [] ∧ s.phase = .encPix ∧ s.stalled = false ∧ 1 < s.img.h ∧ 1 < s.img.w ∧
      3 * s.img.w < strideOf s.img.w :=
  ⟨encoding, test_inv_encPix, ⟨rfl, rfl, rfl⟩, rfl, rfl, rfl, by decide, by decide, by decide⟩
theorem test_witness_EncodedFileDecodesToTheSameImage :
    ∃ s t u v : State, s.Inv ∧ s.QuietIo ∧ s.host = [] ∧ s.phase = .encHdr ∧ s.stalled = false ∧ step s = .next t ∧
      step t = .next u ∧ v.Inv ∧ v.QuietIo ∧ v.host = [] ∧ v.phase = .decHdr ∧ v.stalled = false ∧ v.cfg = s.cfg ∧
      v.inp = u.out := by
  refine ⟨running .encHdr twoCommands, _, _, { starting .decHdr twoCommands with
    inp := fileBytes p1Header abcd }, test_inv_encHdr, ⟨rfl, rfl, rfl⟩, rfl, rfl, rfl, rfl, rfl,
    ?_, ⟨rfl, rfl, rfl⟩, rfl, rfl, rfl, rfl, by decide⟩
  refine test_inv _ ?_ ?_ ?_ ?_ ?_ ?_ ?_ ?_ ?_ ?_ ?_ ?_ ?_ ?_ ?_ ?_ ?_ ?_ ?_ ?_ ?_ <;> decide
/-- A step that fails: before ENC_HDR, in ENC_HDR, in ENC_PIX by a full sink and by the oracle. -/
theorem test_witness_AFailedRunLeavesAProperPrefixOfTheFile :
    (∃ s t : State, s.Inv ∧ s.host = [] ∧ s.stalled = false ∧ s.phase = .decHdr ∧ step s = .next t ∧ t.phase = .error) ∧
      (∃ s t : State, s.Inv ∧ s.host = [] ∧ s.stalled = false ∧ s.phase = .encHdr ∧ step s = .next t ∧ t.phase = .error) ∧
      (∃ s t : State, s.Inv ∧ s.host = [] ∧ s.stalled = false ∧ s.phase = .encPix ∧ step s = .next t ∧ t.phase = .error ∧
        t.errCause = Cause.shortWrite.code ∧ t.out.length = 69) ∧
      ∃ s t : State, s.Inv ∧ s.host = [] ∧ s.stalled = false ∧ s.phase = .encPix ∧ step s = .next t ∧ t.phase = .error ∧
        s.hdr.imgSize ≠ 0 ∧ t.out.length = 62 := by
  refine ⟨⟨{ starting .decHdr twoCommands with inp := [] }, _, ?_, rfl, rfl, rfl, rfl, rfl⟩,
    ⟨{ running .encHdr twoCommands with cfg := { outCap := some 53 } }, _, ?_, rfl, rfl, rfl, rfl, by decide⟩,
    ⟨{ encoding with cfg := { outCap := some 69 } }, _, ?_, rfl, rfl, rfl, rfl, by decide, by decide, by decide⟩,
    ⟨{ encoding with cfg := { ioFault := [⟨.write, 62, 8⟩] } }, _, ?_, rfl, rfl, rfl, rfl, by decide, by decide,
      by decide⟩⟩ <;>
  refine test_inv _ ?_ ?_ ?_ ?_ ?_ ?_ ?_ ?_ ?_ ?_ ?_ ?_ ?_ ?_ ?_ ?_ ?_ ?_ ?_ ?_ ?_ <;> decide
/-- Two rows of no pixel and an image size, the header written, and the writes of 0 and of 8 bytes at 54 fail (log 25). -/
def noPixels (size : Word) : State :=
  let h : Header := { p1Header with width := 0, imgSize := size }
  { encoding with
    hdr := h, img := { w := 0, h := 2, pix := [] }, out := headerBytes h,
    cfg := { ioFault := [⟨.write, 54, 0⟩, ⟨.write, 54, 8⟩] } }
/-- R184 (a), R295: with no byte due no write can fail and the file is complete; with padding due its write fails. -/
theorem test_empty_rows_make_no_write : (nextOf (step (noPixels 0))).map (fun t => (t.phase, t.out.length)) =
    some (.done, 54) ∧ (nextOf (step (noPixels 8))).map (fun t => (t.phase, t.errCause, t.out.length)) =
    some (.error, 0x34, 54) := by decide
/-- Calls that do not return; a step that ends in one; a state held, by the core and by a host move; a reset. -/
theorem test_witness_ACallThatNeverReturnsHoldsTheRunUntilReset :
    (∃ s : State, (⟨.read, s.ipos, 2⟩ : IoCall) ∈ s.cfg.ioHang ∧ (⟨.seek, 54, 0⟩ : IoCall) ∈ s.cfg.ioHang ∧
        (⟨.write, s.out.length, ([] : List Byte).length⟩ : IoCall) ∈ s.cfg.ioHang) ∧
      (∃ s t : State, s.host = [] ∧ s.stalled = false ∧ step s = .next t ∧ t.stalled = true ∧ t.out.length = 62) ∧
      (∃ s t : State, s.stalled = true ∧ s.busy = true ∧ s.host = [] ∧ step s = .next t) ∧
      ∃ s t : State, s.stalled = true ∧ s.busy = true ∧ s.host = [.resetPin] ∧ step s = .next t :=
  ⟨⟨{ starting .decHdr [] with cfg := { ioHang := [⟨.read, 0, 2⟩, ⟨.seek, 54, 0⟩, ⟨.write, 0, 0⟩] } }, by decide⟩,
    ⟨{ encoding with cfg := { ioHang := [⟨.write, 62, 8⟩] } }, _, rfl, rfl, rfl, by decide, by decide⟩,
    ⟨{ encoding with stalled := true }, _, rfl, rfl, rfl, rfl⟩,
    ⟨withMove .resetPin { encoding with stalled := true }, _, rfl, rfl, rfl, rfl⟩⟩
theorem test_witness_EveryStepKeepsTheInvariant : ∃ s t : State, s.Inv ∧ step s = .next t :=
  ⟨encoding, _, test_inv_encPix, rfl⟩
theorem test_witness_NoStepStopsUnderTheInvariant : encoding.Inv := test_inv_encPix
theorem test_witness_EveryRunEnds :
    ∃ s : State, s.Inv ∧ s.host = [] ∧ s.cfg.ioHang = [] ∧ s.stalled = false ∧ s.busy = true :=
  ⟨starting .validate twoCommands, test_inv_validate, rfl, rfl, rfl, rfl⟩
theorem test_witness_TheRunIsTheFunction :
    ∃ (s : State) (is : List Instr), s.Inv ∧ s.QuietIo ∧ s.host = [] ∧ s.phase = .validate ∧ is ≠ [] ∧
      (∀ i ∈ is, i.wellFormed = true) ∧ s.programWords = is.flatMap encode ∧ isOk (runFunction s.cfg s.inp is) = true :=
  ⟨starting .validate twoCommands, [.neg, .rot90], test_inv_validate, ⟨rfl, rfl, rfl⟩, rfl, rfl, by decide, by decide,
    test_programWords .validate twoCommands (by decide), by decide⟩
/-- Two lists of different order with the same commands of each class. -/
theorem test_witness_OrderAcrossClassesHasNoEffect :
    ∃ (s s' : State) (is is' : List Instr), s.Inv ∧ s'.Inv ∧ s.QuietIo ∧ s.host = [] ∧ s'.host = [] ∧
      s.phase = .validate ∧ s'.phase = .validate ∧ s.cfg = s'.cfg ∧ s.inp = s'.inp ∧ is ≠ is' ∧ is ≠ [] ∧ is' ≠ [] ∧
      (∀ i ∈ is, i.wellFormed = true) ∧ (∀ i ∈ is', i.wellFormed = true) ∧ s.programWords = is.flatMap encode ∧
      s'.programWords = is'.flatMap encode ∧ ∀ k, ofClass k is = ofClass k is' := by
  refine ⟨starting .validate twoCommands, starting .validate [0x20000000, 0x14000000], [.neg, .rot90], [.rot90, .neg],
    test_inv_validate, ?_, ⟨rfl, rfl, rfl⟩, rfl, rfl, rfl, rfl, rfl, rfl, by decide, by decide, by decide, by decide,
    by decide, test_programWords .validate twoCommands (by decide),
    test_programWords .validate [0x20000000, 0x14000000] (by decide), fun k => by cases k <;> decide⟩
  refine test_inv _ ?_ ?_ ?_ ?_ ?_ ?_ ?_ ?_ ?_ ?_ ?_ ?_ ?_ ?_ ?_ ?_ ?_ ?_ ?_ ?_ ?_ <;> decide
theorem test_witness_ParametersNeverChange : ∃ s t : State, step s = .next t ∧ s.inp ≠ [] :=
  ⟨encoding, _, rfl, by decide⟩
/-- A step that extends `OUT`, and a START that empties it. -/
theorem test_witness_OutputIsAppendOnly :
    (∃ s t : State, step s = .next t ∧ s.out ≠ [] ∧ s.host = []) ∧
      ∃ s t : State, step s = .next t ∧ s.out ≠ [] ∧ s.host = [.write 0 1] :=
  ⟨⟨encoding, _, rfl, by decide, rfl⟩, ⟨withMove (.write 0 1) { encoding with phase := .done }, _, rfl, by decide, rfl⟩⟩

end Sys2Proof.Tests
end

section
/-! The register block: what one host move does and what a read returns (10_state.md R36, R37, R44). -/

namespace Sys2Proof.Machine

/-! ### Reset -/

/-- No word of `CMD` is listed after a reset (10_state.md R40, R44). -/
@[simp] theorem resetCore_cmdWord (s : State) (i : Nat) :
    (resetCore s).cmdWord i = Config.unspecifiedCmd (s.epoch + 1) i := rfl

/-- Settles O6: power-on and a later reset give every register the same listed value. -/
theorem resetLeavesTheListedValues : Obligations.ResetLeavesTheListedValues := by
  rintro t (rfl | ⟨s, rfl⟩) <;> and_intros <;> rfl

/-- Settles O7, by the rule for one write of `CMD`. -/
theorem commandMemoryIsUnspecifiedAfterReset : Obligations.CommandMemoryIsUnspecifiedAfterReset := by
  intro s i
  refine ⟨rfl, resetCore_cmdWord s i, fun w j => ?_⟩
  rw [cmdWord_write, resetCore_cmdWord]

/-- A write of `CTRL` with the RESET bit resets, whatever else is written (10_state.md R36). -/
theorem hostWrite_reset {v : Word} (h : v.getLsbD 1 = true) (s : State) : hostWrite 0 v s = resetCore s := if_pos h

/-- A move that resets the core does it in every phase (70_reset_and_hazards.md R320). -/
theorem hostStep_resets {m : HostMove} (h : m.resets = true) (s : State) : hostStep m s = .next (resetCore s) := by
  cases m with
  | tick | read _ => cases h
  | resetPin => rfl
  | write off v =>
    simp only [HostMove.resets, Bool.and_eq_true, decide_eq_true_eq] at h
    obtain ⟨rfl, hv⟩ := h
    exact congrArg _ (hostWrite_reset hv s)

/-- Settles O8: the step is the move, and the move resets. -/
theorem resetIsHonouredInEveryPhase : Obligations.ResetIsHonouredInEveryPhase := by
  intro s m rest hhost hm
  exact ⟨_, by rw [step_cons hhost, hostStep_resets hm], rfl, rfl, rfl, rfl, rfl⟩

/-! ### Writes -/

/-- While `BUSY = 1` only a reset gets through (10_state.md R37). -/
theorem hostWrite_busy {off : Nat} {v : Word} {s : State} (hb : s.busy = true)
    (hr : (HostMove.write off v).resets = false) : hostWrite off v s = s := by
  rcases hostWrite_cases off v s with
    h | ⟨rfl, h1, -⟩ | ⟨-, -, -, hp | hp, -⟩ | ⟨hb', -⟩ | ⟨hb', -⟩ | ⟨hb', -⟩
  · exact h
  · exact absurd hr (by rw [HostMove.resets, h1]; decide)
  · simp [State.busy, hp] at hb
  · simp [State.busy, hp] at hb
  all_goals exact absurd hb (by simp [hb'])

/-- An offset at which no writable register stands ignores the write (93_implementation_defined.md U24, U26). -/
theorem hostWrite_ignored {off : Nat} {v : Word} {s : State} (hctrl : off ≠ 0) (hlen : off ≠ 0x14) (hpix : off ≠ 0x50)
    (hcmd : ∀ i, i < s.cfg.cmdCap → off ≠ 0x1000 + 4 * i) : hostWrite off v s = s := by
  unfold hostWrite
  split
  · next h => exact absurd (regAt_eq_ctrl h) hctrl
  · next h => exact absurd (regAt_eq_cmdLen h) hlen
  · next h => exact absurd (regAt_eq_pixAddr h) hpix
  · next i h => exact absurd (regAt_eq_cmd h).2 (hcmd i (regAt_eq_cmd h).1)
  · rfl

theorem hostWrite_cmdLen {v : Word} {s : State} (hb : s.busy = false) :
    hostWrite 0x14 v s = { s with cmdLen := clampLen s.cfg.cmdCap v } := if_neg (by simp [hb])

theorem hostWrite_pixAddr {v : Word} {s : State} (hb : s.busy = false) :
    hostWrite 0x50 v s = { s with pixAddr := v } := if_neg (by simp [hb])

theorem hostWrite_cmd {v : Word} {s : State} {i : Nat} (hb : s.busy = false) (hi : i < s.cfg.cmdCap) :
    hostWrite (0x1000 + 4 * i) v s = { s with cmd := s.cmd.write i v } := by
  unfold hostWrite
  rw [regAt_cmd hi]
  exact if_neg (by simp [hb])

/-- The clamp does not wrap (93_implementation_defined.md U25). -/
theorem clampLen_toNat (cap : Nat) (v : Word) : (clampLen cap v).toNat = min v.toNat cap := by
  have hv := v.isLt
  rw [clampLen, BitVec.toNat_ofNat]
  exact Nat.mod_eq_of_lt (by omega)

/-- Settles O14: one rule for each writable register, and one for every other offset. -/
theorem registerMapWrites : Obligations.RegisterMapWrites := by
  intro s off v rest hhost hb
  have hstep : step s = .next (hostWrite off v { s with host := rest }) := step_cons hhost
  rw [hstep]
  have hb' : ({ s with host := rest } : State).busy = false := hb
  refine ⟨?_, ?_, ?_, ?_⟩
  · rintro rfl
    exact ⟨_, congrArg _ (hostWrite_cmdLen hb'), clampLen_toNat ..⟩
  · rintro rfl
    exact congrArg _ (hostWrite_pixAddr hb')
  · rintro i hi rfl
    refine ⟨_, congrArg _ (hostWrite_cmd hb' hi), rfl, ?_, fun j hj => ?_, fun hwf => Memory.write_wf hwf i v⟩
    · rw [cmdWord_write, if_pos rfl]
    · rw [cmdWord_write, if_neg hj]; rfl
  · intro hctrl hlen hpix hcmd
    exact congrArg _ (hostWrite_ignored hctrl hlen hpix hcmd)

/-! ### Reads -/

/-- A register in flight is left open while `BUSY = 1` (93_implementation_defined.md U23). -/
theorem readIsFree_inFlight {s : State} {r : HostReg} (hr : r.inFlight = true) (hb : s.busy = true) :
    readIsFree s r = true := by
  cases r <;> simp_all [readIsFree, HostReg.inFlight]

/-- While `BUSY = 0` no register but a word of `CMD` is left open (10_state.md R37). -/
theorem readIsFree_idle {s : State} {r : HostReg} (hr : ∀ i, r ≠ .cmd i) (hb : s.busy = false) :
    readIsFree s r = false := by
  cases r <;> simp_all [readIsFree]

/-- A register no run puts in flight is never left open. -/
theorem readIsFree_steady {s : State} {r : HostReg} (hr : ∀ i, r ≠ .cmd i) (hf : r.inFlight = false) :
    readIsFree s r = false := by
  cases r <;> simp_all [readIsFree]

/-- Settles O11: a write while busy, a reset, and a read, each by the rule for the move. -/
theorem hostAccessRights : Obligations.HostAccessRights := by
  intro s off rest
  refine ⟨fun v hhost hb hr => ?_, fun v hhost hr => ?_, fun hhost => ?_⟩
  · have hbusy := hostWrite_busy (s := { s with host := rest }) hb hr
    rw [step_cons hhost, hostStep, hbusy]
  · rw [step_cons hhost, hostStep_resets hr]
  · refine ⟨_, step_cons hhost, ?_, fun r hreg hr hb => ?_⟩
    · obtain ⟨v, n, h⟩ := hostRead_eq off { s with host := rest }
      rw [h]
    · rw [hostRead_of_free (s := { s with host := rest }) hreg (readIsFree_inFlight hr hb)]
      exact ⟨rfl, rfl⟩

/-- A register's value does not depend on the schedule. -/
theorem regValue_host (s : State) (ms : List HostMove) (r : HostReg) :
    regValue { s with host := ms } r = regValue s r := by
  cases r <;> rfl

theorem readBack_of_reg {s : State} {off : Nat} {r : HostReg} (h : regAt s.cfg.cmdCap off = some r)
    (hf : readIsFree s r = false) : s.readBack off = some (regValue s r) := by
  have hf' : readIsFree { s with host := [] } r = false := by cases r <;> exact hf
  have hread := hostRead_of_reg (s := { s with host := [] }) h hf'
  rw [← regValue_host s []]
  exact congrArg (fun t : State => some t.rdata) hread

theorem readBack_of_free {s : State} {off : Nat} {r : HostReg} (h : regAt s.cfg.cmdCap off = some r)
    (hf : readIsFree s r = true) : s.readBack off = some (Config.freeRead s.fresh) := by
  have hf' : readIsFree { s with host := [] } r = true := by cases r <;> exact hf
  exact congrArg (fun t : State => some t.rdata) (hostRead_of_free (s := { s with host := [] }) h hf')

/-- An offset at which no register stands reads 0 (93_implementation_defined.md U26). -/
theorem readBack_of_none {s : State} {off : Nat} (h : regAt s.cfg.cmdCap off = none) : s.readBack off = some 0 := by
  have hread : hostRead off { s with host := [] } = { s with host := [], rdata := 0 } := by
    unfold hostRead
    rw [show regAt ({ s with host := [] } : State).cfg.cmdCap off = none from h]
  exact congrArg (fun t : State => some t.rdata) hread

/-- A word of the program reads as it is, in every phase (10_state.md R40). -/
theorem readBack_program {s : State} {i : Nat} (hi : i < s.cfg.cmdCap) (hl : i < s.cmdLen.toNat) :
    s.readBack (0x1000 + 4 * i) = some (s.cmdWord i) :=
  readBack_of_reg (r := .cmd i) (regAt_cmd hi) (decide_eq_false (by omega))

theorem readBack_pastProgram {s : State} {i : Nat} (hi : i < s.cfg.cmdCap) (hl : s.cmdLen.toNat ≤ i) :
    s.readBack (0x1000 + 4 * i) = some (Config.freeRead s.fresh) :=
  readBack_of_free (r := .cmd i) (regAt_cmd hi) (decide_eq_true hl)

/-- The fields of a word laid out as `STATUS` is (10_state.md R36), for every code and every flag. -/
theorem statusLayout_fields (c : BitVec 4) (e d b : Bool) :
    let st : Word := 0#20 ++ c ++ 0#5 ++ BitVec.ofBool e ++ BitVec.ofBool d ++ BitVec.ofBool b
    st.getLsbD 0 = b ∧ st.getLsbD 1 = d ∧ st.getLsbD 2 = e ∧ st.extractLsb' 8 4 = c ∧ st.extractLsb' 3 5 = 0 ∧
      st.extractLsb' 12 20 = 0 := by
  revert c e d b
  decide

/-- `STATUS` reads in every phase as its three flags, the phase's code, and zeros elsewhere (10_state.md R36). -/
theorem readBack_status (s : State) :
    ∃ st, s.readBack 0x04 = some st ∧ st.getLsbD 0 = s.busy ∧ st.getLsbD 1 = s.doneFlag ∧ st.getLsbD 2 = s.errFlag ∧
      st.extractLsb' 8 4 = s.phase.code ∧ st.extractLsb' 3 5 = 0 ∧ st.extractLsb' 12 20 = 0 :=
  ⟨s.status, readBack_of_reg (r := .status) rfl rfl,
    statusLayout_fields s.phase.code s.errFlag s.doneFlag s.busy⟩

/-- While `BUSY = 0` every register but a word of `CMD` reads as it is (10_state.md R36). -/
theorem readBack_idle {s : State} {off : Nat} {r : HostReg} (hb : s.busy = false)
    (h : regAt s.cfg.cmdCap off = some r) (hr : ∀ i, r ≠ .cmd i) : s.readBack off = some (regValue s r) :=
  readBack_of_reg h (readIsFree_idle hr hb)

/-- A register no run puts in flight reads as it is in every phase (10_state.md R37). -/
theorem readBack_steady {s : State} {off : Nat} {r : HostReg} (h : regAt s.cfg.cmdCap off = some r)
    (hr : ∀ i, r ≠ .cmd i) (hf : r.inFlight = false) : s.readBack off = some (regValue s r) :=
  readBack_of_reg h (readIsFree_steady hr hf)

/-- `PIXDATA` while `BUSY = 0` and `PIXADDR` is inside the image (10_state.md R36). -/
theorem pixDataWord_inside {s : State} {x y : Nat} (hb : s.busy = false) (hx : x < s.img.w) (hy : y < s.img.h)
    (ha : s.pixAddr.toNat = y * s.img.w + x) :
    pixDataWord s = 0#8 ++ (s.img.get x y).r ++ (s.img.get x y).g ++ (s.img.get x y).b := by
  unfold pixDataWord Image.get
  rw [if_pos ⟨ha ▸ index_lt hx hy, hb⟩, ha]

theorem pixDataWord_outside {s : State} (h : s.img.w * s.img.h ≤ s.pixAddr.toNat) : pixDataWord s = 0 :=
  if_neg fun hin => absurd hin.1 (by omega)

theorem pixDataWord_busy {s : State} (h : s.busy = true) : pixDataWord s = 0 :=
  if_neg fun hin => absurd hin.2 (by simp [h])

/-- Settles O12: offset by offset, the register that stands there and what a read of it gives. -/
theorem registerMapReads : Obligations.RegisterMapReads := by
  intro s hb
  have reads {off : Nat} (r : HostReg) (h : regAt s.cfg.cmdCap off = some r) (hr : ∀ i, r ≠ .cmd i) :
      s.readBack off = some (regValue s r) := readBack_idle hb h hr
  refine ⟨reads .ctrl rfl nofun, readBack_status s, reads .errKind rfl nofun, reads .errCause rfl nofun,
    reads .errInfo rfl nofun, reads .cmdLen rfl nofun, reads .opIdx rfl nofun, reads .hdrSig rfl nofun,
    reads .hdrFileSize rfl nofun, reads .hdrFhSize rfl nofun, reads .hdrDibSize rfl nofun, reads .hdrWidth rfl nofun,
    reads .hdrHeight rfl nofun, reads .hdrBpp rfl nofun, reads .hdrImgSize rfl nofun, reads .imgW rfl nofun,
    reads .imgH rfl nofun, reads .ipos rfl nofun, reads .olen rfl nofun, reads .pixAddr rfl nofun, ?_, ?_,
    fun i => readBack_program, fun i => readBack_pastProgram, readBack_of_none rfl, ?_, ?_, ?_⟩
  · intro x y _ hx hy ha
    have hpix := reads .pixData (off := 0x54) rfl nofun
    rw [regValue, pixDataWord_inside hb hx hy ha] at hpix
    exact ⟨_, hpix, pixel_lanes ..⟩
  · intro hout
    rw [reads .pixData rfl nofun, regValue, pixDataWord_outside hout]
  · exact fun off h h' => readBack_of_none (regAt_gap h h')
  · exact fun off h => readBack_of_none (regAt_unaligned h)
  · exact fun i h => readBack_of_none (regAt_beyond h)

/-- The phases in the order of their codes (10_state.md R33). -/
theorem phase_code_of_position {n : Nat} {p : Phase}
    (h : [Phase.idle, .validate, .decHdr, .decPix, .crop, .mirror, .rotate, .resync, .filter, .encHdr, .encPix, .done,
      .error][n]? = some p) : p.code.toNat = n := by
  obtain ⟨hn, -⟩ := List.getElem?_eq_some_iff.1 h
  simp only [List.length_cons, List.length_nil] at hn
  interval_cases n <;> cases h <;> rfl

/-- `BUSY` names the three phases in which the core rests (10_state.md R35). -/
theorem busy_eq (s : State) : s.busy = decide (s.phase ≠ .idle ∧ s.phase ≠ .done ∧ s.phase ≠ .error) := by
  simp [State.busy, Bool.and_assoc]

/-- Settles O13: `STATUS` by its layout, the other registers because no run puts them in flight. -/
theorem readsTheSpecFixesInEveryPhase : Obligations.ReadsTheSpecFixesInEveryPhase := by
  refine ⟨fun s => ?_, fun s => ?_⟩
  · obtain ⟨st, hread, hbusy, hdone, herr, hcode, hzero, hzero'⟩ := readBack_status s
    refine ⟨st, hread, hbusy.trans (busy_eq s), hdone, herr, ?_, hzero, hzero'⟩
    rintro n p hn rfl
    rw [hcode, phase_code_of_position hn]
  · have reads {off : Nat} (r : HostReg) (h : regAt s.cfg.cmdCap off = some r) (hr : ∀ i, r ≠ .cmd i)
        (hf : r.inFlight = false) : s.readBack off = some (regValue s r) := readBack_steady h hr hf
    refine ⟨reads .ctrl rfl nofun rfl, reads .errKind rfl nofun rfl, reads .errCause rfl nofun rfl,
      reads .errInfo rfl nofun rfl, reads .cmdLen rfl nofun rfl, reads .hdrFhSize rfl nofun rfl,
      reads .pixAddr rfl nofun rfl, fun i => readBack_program, fun hb => ?_⟩
    rw [reads .pixData rfl nofun rfl, regValue, pixDataWord_busy hb]

end Sys2Proof.Machine
end

section
/-! What every step keeps, whatever the state: the frame of a core step, the parameters and the output (10_state.md R39,
R42). -/

namespace Sys2Proof.Machine

/-! ### The frame of a core step -/

/-- The frame of a core step: it writes the registers of the run alone, and `OUT` only grows (10_state.md R39, R42;
44_pipeline.md R268). -/
def CoreFrame (s t : State) : Prop :=
  t = { s with
        hdr := t.hdr, img := t.img, phase := t.phase, opIdx := t.opIdx, errKind := t.errKind, errCause := t.errCause,
        errInfo := t.errInfo, ipos := t.ipos, out := t.out, stalled := t.stalled } ∧
    s.out <+: t.out

namespace CoreFrame

theorem refl (s : State) : CoreFrame s s := ⟨rfl, List.prefix_rfl⟩

theorem trans {s u t : State} (h : CoreFrame s u) (h' : CoreFrame u t) : CoreFrame s t := by
  obtain ⟨e, hout⟩ := h
  obtain ⟨e', hout'⟩ := h'
  rw [e] at e'
  exact ⟨e', hout.trans hout'⟩

theorem cfg {s t : State} (h : CoreFrame s t) : t.cfg = s.cfg := by rw [h.1]
theorem inp {s t : State} (h : CoreFrame s t) : t.inp = s.inp := by rw [h.1]
theorem out {s t : State} (h : CoreFrame s t) : s.out <+: t.out := h.2

end CoreFrame

/-! ### The frame of a sequence of collaborator calls -/

/-- A part of a codec that stays inside the frame, however it ends. -/
def Framing {α : Type} (f : State → Io α) : Prop := ∀ s, (f s).Ends (fun _ t => CoreFrame s t) (CoreFrame s)

namespace Framing

theorem ok {α : Type} (a : α) : Framing (fun s => .ok a s) := fun s => CoreFrame.refl s

theorem bind {α β : Type} {f : State → Io α} {g : α → State → Io β} (hf : Framing f) (hg : ∀ a, Framing (g a)) :
    Framing fun s => (f s).bind (g · ·) := fun s =>
  (hf s).bind fun a u hu => (hg a u).mono (fun _ _ h => hu.trans h) fun _ h => hu.trans h

/-- Header registers are written first. -/
theorem setHdr {α : Type} {f : State → Io α} (hf : Framing f) (g : Header → Header) :
    Framing fun s => f { s with hdr := g s.hdr } := fun s =>
  have hset : CoreFrame s { s with hdr := g s.hdr } := ⟨rfl, List.prefix_rfl⟩
  (hf _).mono (fun _ _ h => hset.trans h) fun _ h => hset.trans h

theorem finish {f : State → Io Unit} (hf : Framing f) (p : Phase) (s : State) :
    CoreFrame s ((f s).finish (enter p)) :=
  (hf s).finish (fun _ h => h.trans ⟨rfl, List.prefix_rfl⟩) fun _ h => h

end Framing

theorem inRead_framing (n : Nat) : Framing (inRead n) := by
  intro s
  rcases inRead_cases n s with ⟨-, h⟩ | ⟨c, -, h⟩ | ⟨-, h⟩ <;> rw [h] <;> exact ⟨rfl, List.prefix_rfl⟩

theorem inSeek_framing (o : Nat) : Framing (inSeek o) := by
  intro s
  rcases inSeek_cases o s with ⟨-, h⟩ | h | ⟨-, h⟩ <;> rw [h] <;> exact ⟨rfl, List.prefix_rfl⟩

theorem outWrite_framing (bs : List Byte) : Framing (outWrite bs) := by
  intro s
  rcases outWrite_cases bs s with ⟨-, h⟩ | ⟨c, v, k, -, h, -⟩ | ⟨-, h⟩ <;> rw [h]
  · exact ⟨rfl, List.prefix_rfl⟩
  · exact ⟨rfl, List.prefix_append ..⟩
  · exact ⟨rfl, List.prefix_append ..⟩

theorem writeSome_framing (bs : List Byte) : Framing (writeSome bs) := by
  intro s
  unfold writeSome
  split
  · exact CoreFrame.refl s
  · exact outWrite_framing bs s

theorem check_framing (bad : State → Prop) [∀ s, Decidable (bad s)] (c : Cause) (info : State → Word) :
    Framing fun s => check (bad s) c (info s) s := by
  intro s
  simp only [check]
  split <;> exact ⟨rfl, List.prefix_rfl⟩

theorem readSignature_framing : Framing readSignature :=
  (inRead_framing 2).bind fun bs =>
    (check_framing (fun _ => bs ≠ [0x42, 0x4D]) .badSignature fun s => s.hdr.sig.setWidth 32).setHdr
      fun h => { h with sig := le16 bs }

theorem readFileFields_framing : Framing readFileFields :=
  (inRead_framing 4).bind fun bs =>
    ((inRead_framing 4).bind fun _ => (inRead_framing 4).bind fun _ => .ok ()).setHdr
      fun h => { h with fileSize := le32 bs }

theorem readDibSize_framing : Framing readDibSize :=
  (inRead_framing 4).bind fun bs =>
    (check_framing (fun s => s.hdr.dibSize ≠ 40) .badDibSize fun s => s.hdr.dibSize).setHdr
      fun h => { h with dibSize := le32 bs }

theorem readDimensions_framing : Framing readDimensions :=
  (inRead_framing 4).bind fun bs =>
    ((inRead_framing 4).bind fun bs => (Framing.ok ()).setHdr fun h => { h with height := le32 bs }).setHdr
      fun h => { h with width := le32 bs }

theorem readBitDepth_framing : Framing readBitDepth :=
  (inRead_framing 2).bind fun _ => (inRead_framing 2).bind fun bs =>
    (check_framing (fun s => s.hdr.bpp ≠ 24) .badBitDepth fun s => s.hdr.bpp.setWidth 32).setHdr
      fun h => { h with bpp := le16 bs }

theorem readCompression_framing : Framing readCompression :=
  (inRead_framing 4).bind fun bs => check_framing (fun _ => le32 bs ≠ 0) .compressed fun _ => le32 bs

theorem readImageSize_framing : Framing readImageSize :=
  (inRead_framing 4).bind fun bs =>
    ((inRead_framing 16).bind fun _ => .ok ()).setHdr fun h => { h with imgSize := le32 bs }

theorem checkDimensions_framing : Framing checkDimensions :=
  check_framing (fun s => badDimensions s.cfg s.hdr) .badDimensions fun _ => 0

theorem decodeHeader_frame (s : State) : CoreFrame s (decodeHeader s) :=
  Framing.finish
    (readSignature_framing.bind fun _ => readFileFields_framing.bind fun _ => readDibSize_framing.bind fun _ =>
      readDimensions_framing.bind fun _ => readBitDepth_framing.bind fun _ => readCompression_framing.bind fun _ =>
      readImageSize_framing.bind fun _ => checkDimensions_framing) .decPix s

theorem readRows_framing (stride n : Nat) : Framing (readRows stride n) := by
  induction n with
  | zero => exact .ok []
  | succ n ih => exact (inRead_framing stride).bind fun row => ih.bind fun rows => .ok (row :: rows)

theorem readImage_framing (w h stride : Nat) : Framing (readImage w h stride) :=
  (inSeek_framing pixelDataOffset).bind fun _ => (readRows_framing stride h).bind fun _ _ => ⟨rfl, List.prefix_rfl⟩

theorem writeRows_framing (m : Image) (w stride n : Nat) : Framing (writeRows m w stride n) := by
  induction n with
  | zero => exact .ok ()
  | succ n ih => exact (writeSome_framing _).bind fun _ => ih

/-! ### The frame of each phase -/

theorem validateList_frame (s : State) : CoreFrame s (validateList s) := by
  rcases validateList_cases s with ⟨-, h⟩ | ⟨-, c, i, -, -, h⟩ | ⟨-, -, h⟩ <;> rw [h] <;> exact ⟨rfl, List.prefix_rfl⟩

theorem exec_frame {i : Instr} {s t : State} (h : exec i s = .next t) : CoreFrame s t := by
  obtain ⟨-, ⟨m, -, rfl⟩ | ⟨c, v, -, rfl⟩⟩ := exec_cases h <;> exact ⟨rfl, List.prefix_rfl⟩

/-- Everything one step of an executing phase can do when it gives a next state (44_pipeline.md R257). -/
theorem walkStep_cases {k : CmdClass} {p : Phase} {s t : State} (h : walkStep k p s = .next t) :
    (s.cmdLen.toNat ≤ s.opIdx ∧ t = enter p s) ∨
      ∃ i rest, s.opIdx < s.cmdLen.toNat ∧ fetch s s.opIdx = .command i rest ∧
        ((i.cls = k ∧ exec i s = .next t) ∨ (i.cls ≠ k ∧ t = skip i.words s)) := by
  by_cases hend : s.cmdLen.toNat ≤ s.opIdx
  · rw [walkStep_end hend] at h
    cases h
    exact .inl ⟨hend, rfl⟩
  have hlt : s.opIdx < s.cmdLen.toNat := Nat.lt_of_not_le hend
  cases hf : fetch s s.opIdx with
  | command i rest =>
    rw [walkStep_command hlt hf] at h
    refine .inr ⟨i, rest, hlt, rfl, ?_⟩
    split at h
    · next hk => exact .inl ⟨hk, h⟩
    · next hk => cases h; exact .inr ⟨hk, rfl⟩
  | illegal | truncated =>
    unfold walkStep at h
    rw [if_pos hlt, hf] at h
    cases h

theorem walkStep_frame {k : CmdClass} {p : Phase} {s t : State} (h : walkStep k p s = .next t) : CoreFrame s t := by
  obtain ⟨-, rfl⟩ | ⟨i, rest, -, -, ⟨-, h⟩ | ⟨-, rfl⟩⟩ := walkStep_cases h
  · exact ⟨rfl, List.prefix_rfl⟩
  · exact exec_frame h
  · exact ⟨rfl, List.prefix_rfl⟩

theorem decodePixels_frame {s t : State} (h : decodePixels s = .next t) : CoreFrame s t := by
  unfold decodePixels at h
  split at h
  · dsimp only at h
    split at h
    · cases h
    · cases h; exact (readImage_framing _ _ _).finish .crop s
  · cases h

theorem encodeHeader_frame {s t : State} (h : encodeHeader s = .next t) : CoreFrame s t := by
  unfold encodeHeader at h
  split at h
  · cases h
    exact ((outWrite_framing (headerBytes (sizedHeader s.hdr))).setHdr sizedHeader).finish .encPix s
  · cases h

theorem encodePixels_frame {s t : State} (h : encodePixels s = .next t) : CoreFrame s t := by
  unfold encodePixels at h
  split at h
  · dsimp only at h
    split at h
    · cases h
    · cases h
      exact ((writeRows_framing _ _ _ _).bind fun _ u => writeSome_framing _ u).finish .done s
  · cases h

/-- Every step of the core stays inside the frame, whatever the state. -/
theorem coreStep_frame {s t : State} (h : coreStep s = .next t) : CoreFrame s t := by
  cases hst : s.stalled with
  | true =>
    rw [coreStep_stalled hst] at h
    cases h
    exact CoreFrame.refl s
  | false =>
    rw [coreStep_running hst] at h
    split at h
    case h_2 => cases h; exact validateList_frame s
    case h_3 => cases h; exact decodeHeader_frame s
    case h_4 => exact decodePixels_frame h
    case h_5 | h_6 | h_7 | h_9 => exact walkStep_frame h
    case h_8 => cases h; exact ⟨rfl, List.prefix_rfl⟩
    case h_10 => exact encodeHeader_frame h
    case h_11 => exact encodePixels_frame h
    case h_1 | h_12 | h_13 => cases h; exact CoreFrame.refl s

/-! ### Every step -/

/-- Everything a step of the machine can be (log 8): a step of the core, with the host's `tick` taken off if there is
one, or another move of the host. -/
theorem step_cases {s t : State} (h : step s = .next t) :
    (∃ rest, coreStep { s with host := rest } = .next t) ∨
      (∃ off v rest, s.host = .write off v :: rest ∧ t = hostWrite off v { s with host := rest }) ∨
      (∃ off rest, s.host = .read off :: rest ∧ t = hostRead off { s with host := rest }) ∨
      ∃ rest, s.host = .resetPin :: rest ∧ t = resetCore { s with host := rest } := by
  cases hhost : s.host with
  | nil =>
    rw [step_nil hhost] at h
    exact .inl ⟨[], by rwa [← hhost]⟩
  | cons m rest =>
    rw [step_cons hhost] at h
    cases m with
    | tick => exact .inl ⟨rest, h⟩
    | write off v => cases h; exact .inr (.inl ⟨off, v, rest, rfl, rfl⟩)
    | read off => cases h; exact .inr (.inr (.inl ⟨off, rest, rfl, rfl⟩))
    | resetPin => cases h; exact .inr (.inr (.inr ⟨rest, rfl, rfl⟩))

/-- A host write keeps the parameters (10_state.md R42). -/
theorem hostWrite_params (off : Nat) (v : Word) (s : State) :
    (hostWrite off v s).cfg = s.cfg ∧ (hostWrite off v s).inp = s.inp := by
  rcases hostWrite_cases off v s with
    h | ⟨-, -, h⟩ | ⟨-, -, -, -, h⟩ | ⟨-, n, -, h⟩ | ⟨-, h⟩ | ⟨-, i, -, h⟩ <;> rw [h] <;> exact ⟨rfl, rfl⟩

/-- Settles O58: the frame of a core step, and the moves of the host one by one. -/
theorem parametersNeverChange : Obligations.ParametersNeverChange := by
  intro s t h
  obtain ⟨rest, h⟩ | ⟨off, v, rest, -, rfl⟩ | ⟨off, rest, -, rfl⟩ | ⟨rest, -, rfl⟩ := step_cases h
  · exact ⟨(coreStep_frame h).cfg, (coreStep_frame h).inp⟩
  · exact hostWrite_params off v _
  · obtain ⟨v, n, h⟩ := hostRead_eq off { s with host := rest }
    rw [h]
    exact ⟨rfl, rfl⟩
  · exact ⟨rfl, rfl⟩

/-- A host write leaves `OUT` as it is, but for a reset and START, which empty it (44_pipeline.md R251). -/
theorem hostWrite_out (off : Nat) (v : Word) (s : State) :
    (hostWrite off v s).out = s.out ∨
      (hostWrite off v s).out = [] ∧ ((HostMove.write off v).resets = true ∨ (HostMove.write off v).starts = true) := by
  rcases hostWrite_cases off v s with
    h | ⟨rfl, hr, h⟩ | ⟨rfl, hr, hs, -, h⟩ | ⟨-, n, -, h⟩ | ⟨-, h⟩ | ⟨-, i, -, h⟩ <;> rw [h]
  · exact .inl rfl
  · exact .inr ⟨rfl, .inl (by rw [HostMove.resets, hr]; decide)⟩
  · exact .inr ⟨rfl, .inr (by rw [HostMove.starts, hr, hs]; decide)⟩
  all_goals exact .inl rfl

/-- Settles O59: the frame of a core step lets `OUT` grow alone; a reset and START empty it. -/
theorem outputIsAppendOnly : Obligations.OutputIsAppendOnly := by
  intro s t h
  obtain ⟨rest, h⟩ | ⟨off, v, rest, hhost, rfl⟩ | ⟨off, rest, -, rfl⟩ | ⟨rest, hhost, rfl⟩ := step_cases h
  · exact .inl (coreStep_frame h).out
  · rcases hostWrite_out off v { s with host := rest } with hout | ⟨hout, hm⟩
    · exact .inl (by rw [hout])
    · exact .inr ⟨hout, _, rest, hhost, hm⟩
  · obtain ⟨v, n, h⟩ := hostRead_eq off { s with host := rest }
    exact .inl (by rw [h])
  · exact .inr ⟨rfl, _, rest, hhost, .inl rfl⟩

/-- Settles O47: the phase walks the list, and the command at `OPIDX` is of its class. -/
theorem stepExecutesTheFetchedCommand : Obligations.StepExecutesTheFetchedCommand := by
  intro s i rest hhost hst hphase hidx hf
  rw [step_nil hhost, coreStep_phaseOf hst hphase, walkStep_command hidx hf, if_pos rfl]

end Sys2Proof.Machine
end

section
/-! The invariant read phase by phase, and every step keeping it (10_state.md R29 to R34, R38; 44_pipeline.md R258,
R264). -/

namespace Sys2Proof.Machine

/-! ### The invariant, phase by phase -/

/-- The clauses of the invariant that no phase conditions. -/
structure State.Bounds (s : State) : Prop where
  config : s.cfg.legal
  memory : s.cmd.wf
  memoryBound : ∀ e ∈ s.cmd, e.1 < s.cfg.cmdCap
  lenBound : s.cmdLen.toNat ≤ s.cfg.cmdCap
  image : s.ImageOk
  position : s.ipos ≤ s.inp.length
  sink : SinkHolds s

/-- The error registers are 0 (44_pipeline.md R264). -/
def State.NoErrors (s : State) : Prop := s.errKind = 0 ∧ s.errCause = 0 ∧ s.errInfo = 0

/-- `OPIDX` stands at a command or at the end (10_state.md R34). -/
def State.AtCommand (s : State) : Prop := s.opIdx ≤ s.cmdLen.toNat ∧ scan s s.cmdLen.toNat s.opIdx = none

/-- The declared size covers the rows (41_pixel_codec.md R181). -/
def State.Sized (s : State) : Prop := strideOf s.hdr.width.toNat * s.hdr.height.toNat ≤ s.hdr.imgSize.toNat

/-- Between two runs, or before the first step of one: nothing decoded, nothing written (44_pipeline.md R251). -/
def State.Fresh (s : State) : Prop := s.NoErrors ∧ s.stalled = false ∧ s.opIdx = 0 ∧ s.out = [] ∧ s.img = {}

/-- In the executing phase of a class (44_pipeline.md R257). -/
def State.Walking (s : State) (k : CmdClass) : Prop :=
  s.NoErrors ∧ s.stalled = false ∧ s.AtCommand ∧ s.out = [] ∧ s.ProgramOk ∧ s.HeaderOk ∧ (k = .filter → s.Synced)

/-- The clauses of the invariant that a phase conditions, as they stand in each phase. -/
def State.ClausesAt (s : State) : Phase → Prop
  | .idle => s.Fresh
  | .validate => s.Fresh ∧ s.ipos = 0
  | .decHdr =>
    s.NoErrors ∧ s.opIdx = 0 ∧ s.out = [] ∧ s.img = {} ∧ s.ProgramOk ∧ (s.stalled = false → s.ipos = 0)
  | .decPix => s.NoErrors ∧ s.opIdx = 0 ∧ s.out = [] ∧ s.img = {} ∧ s.ProgramOk ∧ s.HeaderOk
  | .crop => s.Walking .crop
  | .mirror => s.Walking .mirror
  | .rotate => s.Walking .rotate
  | .resync => s.NoErrors ∧ s.stalled = false ∧ s.opIdx = 0 ∧ s.out = [] ∧ s.ProgramOk ∧ s.HeaderOk
  | .filter => s.Walking .filter
  | .encHdr => s.NoErrors ∧ s.opIdx = 0 ∧ s.out = [] ∧ s.ProgramOk ∧ s.HeaderOk ∧ s.Synced
  | .encPix =>
    s.NoErrors ∧ s.opIdx = 0 ∧ s.ProgramOk ∧ s.HeaderOk ∧ s.Synced ∧ s.Sized ∧
      (s.stalled = false → s.out = headerBytes s.hdr)
  | .done =>
    s.NoErrors ∧ s.stalled = false ∧ s.opIdx = 0 ∧ s.HeaderOk ∧ s.Synced ∧ s.Sized ∧ s.out = fileBytes s.hdr s.img ∧
      s.out.length = 54 + s.hdr.imgSize.toNat
  | .error =>
    s.stalled = false ∧
      ∃ c : Cause, s.errKind = c.kind.code ∧ s.errCause = c.code ∧ (c.kind ≠ .ioError → s.out = [])

theorem State.Inv.bounds {s : State} (h : s.Inv) : s.Bounds :=
  ⟨h.config, h.memory, h.memoryBound, h.lenBound, h.image, h.position, h.sink⟩

/-- What the invariant says in the phase the machine is in. -/
theorem State.Inv.clauses {s : State} (h : s.Inv) {p : Phase} (hp : s.phase = p) : s.ClausesAt p := by
  obtain ⟨-, -, -, -, -, imageEmpty, -, positionStart, -, header, synced, program, walking, opIdxZero, noOutput, sized,
    headerWritten, complete, noError, errorNamed, stall⟩ := h
  rw [hp] at *
  have running (h : p.callsOut = false) : s.stalled = false :=
    Bool.eq_false_iff.2 fun hs => absurd (stall hs) (by simp [h])
  cases p with
  | idle => exact ⟨noError nofun, running rfl, opIdxZero rfl nofun, noOutput rfl, imageEmpty (.inl rfl)⟩
  | validate =>
    exact ⟨⟨noError nofun, running rfl, opIdxZero rfl nofun, noOutput rfl, imageEmpty (.inr (.inl rfl))⟩,
      positionStart (.inl rfl)⟩
  | decHdr =>
    exact ⟨noError nofun, opIdxZero rfl nofun, noOutput rfl, imageEmpty (.inr (.inr (.inl rfl))), program rfl,
      fun hs => positionStart (.inr ⟨rfl, hs⟩)⟩
  | decPix =>
    exact ⟨noError nofun, opIdxZero rfl nofun, noOutput rfl, imageEmpty (.inr (.inr (.inr rfl))), program rfl, header rfl⟩
  | crop | mirror | rotate =>
    exact ⟨noError nofun, running rfl, walking rfl, noOutput rfl, program rfl, header rfl, nofun⟩
  | filter => exact ⟨noError nofun, running rfl, walking rfl, noOutput rfl, program rfl, header rfl, fun _ => synced rfl⟩
  | resync => exact ⟨noError nofun, running rfl, opIdxZero rfl nofun, noOutput rfl, program rfl, header rfl⟩
  | encHdr => exact ⟨noError nofun, opIdxZero rfl nofun, noOutput rfl, program rfl, header rfl, synced rfl⟩
  | encPix =>
    exact ⟨noError nofun, opIdxZero rfl nofun, program rfl, header rfl, synced rfl, sized (.inl rfl), headerWritten rfl⟩
  | done =>
    exact ⟨noError nofun, running rfl, opIdxZero rfl nofun, header rfl, synced rfl, sized (.inr rfl), complete rfl⟩
  | error => exact ⟨running rfl, errorNamed rfl⟩

/-- The clauses of the phase the machine is in are all the invariant asks: in that phase every other clause either has a
premise that fails, or is one of them. -/
theorem State.inv_of_clauses {s : State} {p : Phase} (hp : s.phase = p) (hb : s.Bounds) (hc : s.ClausesAt p) :
    s.Inv := by
  have complete : s.phase = .done → s.out = fileBytes s.hdr s.img ∧ s.out.length = 54 + s.hdr.imgSize.toNat := by
    intro hd
    obtain rfl := hp.symm.trans hd
    obtain ⟨-, -, -, -, -, -, hout⟩ := hc
    exact hout
  refine { hb with
    imageEmpty := ?_, positionStart := ?_, header := ?_, synced := ?_, program := ?_, walking := ?_, opIdxZero := ?_,
    noOutput := ?_, sized := ?_, headerWritten := ?_, complete := complete, noError := ?_, errorNamed := ?_, stall := ?_ }
  all_goals
    rw [hp]
    clear hp hb complete
    cases p <;> simp_all [State.ClausesAt, State.Fresh, State.Walking, State.NoErrors, State.AtCommand, State.Sized,
      Phase.headerDecoded, Phase.resynced, Phase.validated, Phase.walks, Phase.beforeOutput, Phase.callsOut]

theorem State.clausesAt_phaseOf (s : State) (k : CmdClass) : s.ClausesAt (phaseOf k) = s.Walking k := by
  cases k <;> rfl

theorem State.Inv.walkingIn {s : State} (hs : s.Inv) {k : CmdClass} (hp : s.phase = phaseOf k) : s.Walking k :=
  s.clausesAt_phaseOf k ▸ hs.clauses hp

theorem State.inv_of_walking {s : State} {k : CmdClass} (hp : s.phase = phaseOf k) (hb : s.Bounds)
    (hw : s.Walking k) : s.Inv :=
  State.inv_of_clauses hp hb (s.clausesAt_phaseOf k ▸ hw)

/-! ### The program is the same for states with the same command memory -/

theorem State.ProgramOk.same {s t : State} (hs : s.ProgramOk) (h : SameProgram s t) : t.ProgramOk := by
  obtain ⟨hlen, hscan⟩ := hs
  refine ⟨by rwa [h.cmdLen], ?_⟩
  rwa [h.scan, h.cmdLen]

/-- Where a validated program starts, `OPIDX` stands at a command or at the end. -/
theorem State.ProgramOk.atCommand {s : State} (h : s.ProgramOk) (hi : s.opIdx = 0) : s.AtCommand := by
  obtain ⟨-, hscan⟩ := h
  exact ⟨by omega, by rwa [hi]⟩

/-- The end of the command `OPIDX` stands at is a command or the end again (30_encoding.md R112). -/
theorem State.AtCommand.next {s t : State} {i : Instr} {rest : List Word} (h : s.AtCommand)
    (hi : s.opIdx < s.cmdLen.toNat) (hf : fetch s s.opIdx = .command i rest) (hp : SameProgram s t)
    (ht : t.opIdx = s.opIdx + i.words) : t.AtCommand := by
  obtain ⟨-, hscan⟩ := h
  obtain ⟨j, rest', hj, hend, hnext⟩ := scan_none_step hscan hi
  obtain ⟨rfl, -⟩ := Decoded.command.inj (hj.symm.trans hf)
  rw [State.AtCommand, hp.cmdLen, hp.scan, ht]
  exact ⟨hend, hnext⟩

/-! ### Errors and calls that do not return -/

/-- A run that raises an error outside the encoder has written nothing (60_exceptions.md R295). -/
theorem inv_raise {s : State} {c : Cause} (v : Word) (hb : s.Bounds) (hr : s.stalled = false)
    (ho : c.kind ≠ .ioError → s.out = []) : (raise c v s).Inv :=
  State.inv_of_clauses (p := .error) rfl { hb with } ⟨hr, c, rfl, rfl, ho⟩

/-- A codec that reads ends early in an error or in a call that does not return. -/
theorem ReadStops.inv {s t : State} {P : Header → Prop} (h : ReadStops s P t) (hb : s.Bounds) (hr : s.stalled = false)
    (ho : s.out = [])
    (hstall : ∀ hdr pos, P hdr → pos ≤ s.inp.length → (stall { s with hdr := hdr, ipos := pos }).Inv) : t.Inv := by
  obtain ⟨hdr, pos, hP, hpos, ⟨-, rfl⟩ | ⟨c, v, -, rfl⟩⟩ := h
  · exact hstall hdr pos hP hpos
  · exact inv_raise v { hb with position := hpos } hr fun _ => ho

/-! ### The phases that decode -/

theorem inv_validateList {s : State} (hs : s.Inv) (hp : s.phase = .validate) : (validateList s).Inv := by
  obtain ⟨⟨hno, hr, hi, ho, him⟩, hpos⟩ := hs.clauses hp
  rcases validateList_cases s with ⟨-, h⟩ | ⟨-, c, i, -, -, h⟩ | ⟨hlen, hscan, h⟩ <;> rw [h]
  · exact inv_raise 0 hs.bounds hr fun _ => ho
  · exact inv_raise _ { hs.bounds with } hr fun _ => ho
  · have hprog : s.ProgramOk := ⟨hlen, hscan⟩
    exact State.inv_of_clauses (p := .decHdr) rfl { hs.bounds with }
      ⟨hno, rfl, ho, him, hprog.same ⟨rfl, rfl, rfl⟩, fun _ => hpos⟩

theorem inv_decodeHeader {s : State} (hs : s.Inv) (hr : s.stalled = false) (hp : s.phase = .decHdr) :
    (decodeHeader s).Inv := by
  obtain ⟨hno, hi, ho, him, hprog, -⟩ := hs.clauses hp
  rcases decodeHeader_cases hs.position with ⟨u, ⟨hu, hpos, ⟨hsig, hdib, hbpp⟩, hdim⟩, h⟩ | h
  · rw [h, hu]
    exact State.inv_of_clauses (p := .decPix) rfl { hs.bounds with position := hpos }
      ⟨hno, rfl, ho, him, hprog.same ⟨rfl, rfl, rfl⟩, hsig, hdib, hbpp, hdim⟩
  · exact h.inv hs.bounds hr ho fun hdr pos _ hpos =>
      State.inv_of_clauses (p := .decHdr) hp { hs.bounds with position := hpos }
        ⟨hno, hi, ho, him, hprog.same ⟨rfl, rfl, rfl⟩, nofun⟩

/-- A valid Header's dimensions are sizes (45_arithmetic.md R272), within the limits (40_header_codec.md R148). -/
theorem State.HeaderOk.sizes {s : State} (h : s.HeaderOk) :
    s.hdr.sizesNonneg ∧ s.hdr.width.toNat ≤ s.cfg.maxDim ∧ s.hdr.height.toNat ≤ s.cfg.maxDim ∧
      s.hdr.width.toNat * s.hdr.height.toNat ≤ s.cfg.maxPixels := by
  obtain ⟨-, -, -, hdim⟩ := h
  simp only [badDimensions, not_or, not_lt] at hdim
  obtain ⟨hw, hh, hw', hh', hpix⟩ := hdim
  have ew : s.hdr.width.toInt = s.hdr.width.toNat := by
    rw [BitVec.toInt_eq_toNat_cond] at hw ⊢; split at hw <;> omega
  have eh : s.hdr.height.toInt = s.hdr.height.toNat := by
    rw [BitVec.toInt_eq_toNat_cond] at hh ⊢; split at hh <;> omega
  rw [ew] at hw' hpix
  rw [eh] at hh' hpix
  exact ⟨⟨hw, hh⟩, by omega, by omega, by exact_mod_cast hpix⟩

theorem inv_decodePixels {s t : State} (hs : s.Inv) (hr : s.stalled = false) (hp : s.phase = .decPix)
    (h : decodePixels s = .next t) : t.Inv := by
  obtain ⟨hno, hi, ho, him, hprog, hhdr⟩ := hs.clauses hp
  obtain ⟨hsizes, hw, hh, hpix⟩ := hhdr.sizes
  have ⟨_, _, hbpp, _⟩ := hhdr
  obtain ⟨t', ht', hcases⟩ := decodePixels_cases hs.position hsizes hbpp
  obtain rfl := Host.Outcome.next.inj (ht'.symm.trans h)
  rcases hcases with ⟨m, pos, hwf, hmw, hmh, hpos, rfl⟩ | hstop
  · have himage : m.wf ∧ m.w ≤ s.cfg.maxDim ∧ m.h ≤ s.cfg.maxDim ∧ m.w * m.h ≤ s.cfg.maxPixels := by
      rw [hmw, hmh]; exact ⟨hwf, hw, hh, hpix⟩
    have hprog' : (enter .crop { s with img := m, ipos := pos }).ProgramOk :=
      hprog.same ⟨rfl, rfl, rfl⟩
    exact State.inv_of_clauses (p := .crop) rfl { hs.bounds with image := himage, position := hpos }
      ⟨hno, hr, hprog'.atCommand rfl, ho, hprog', hhdr, nofun⟩
  · refine hstop.inv hs.bounds hr ho fun hdr pos hsame hpos => ?_
    subst hsame
    exact State.inv_of_clauses (p := .decPix) hp { hs.bounds with position := hpos }
      ⟨hno, hi, ho, him, hprog.same ⟨rfl, rfl, rfl⟩, hhdr⟩

/-! ### The executing phases -/

/-- A filter keeps the size of the Image (43_filters.md R220). -/
theorem effect_filter_size {c : Config} {i : Instr} {m m' : Image} (hi : i.cls = .filter) (h : effect c i m = .ok m') :
    m'.w = m.w ∧ m'.h = m.h := by
  cases i with
  | keepb | keepr | keepg | gray | neg => cases h; exact ⟨rfl, rfl⟩
  | rot90 | rot180 | rot270 | rotm90 | rotm180 | rotm270 | mirh | mirv | crop2 | crop4 => cases hi
  | pixelate a =>
    simp only [effect, pixelate] at h
    split at h
    · cases h
    split at h <;> cases h <;> exact ⟨rfl, rfl⟩
  | blur a =>
    simp only [effect, blur] at h
    split at h <;> cases h
    exact ⟨rfl, rfl⟩

/-- The Image a command installs is whole and inside the limits: no command makes either direction longer, but for the
swap of a quarter turn, and `MAX_DIM` bounds both (10_state.md R32). -/
theorem install_imageOk {c : Config} {i : Instr} {s : State} {m : Image} (hs : s.ImageOk)
    (h : effect c i s.img = .ok m) (n : Nat) : (install m n s).ImageOk := by
  obtain ⟨hwf, hw, hh, hpix⟩ := hs
  obtain ⟨hwf', ⟨hw', hh'⟩ | ⟨hw', hh'⟩⟩ := effect_shape hwf h
  · exact ⟨hwf', hw'.trans hw, hh'.trans hh, (Nat.mul_le_mul hw' hh').trans hpix⟩
  · rw [State.ImageOk, install_img, hw', hh', Nat.mul_comm]
    exact ⟨hwf', hh, hw, hpix⟩

/-- A command of the phase's class leaves the machine in the phase, or raises a RangeError. -/
theorem inv_exec {s t : State} {k : CmdClass} {i : Instr} {rest : List Word} (hs : s.Inv) (hp : s.phase = phaseOf k)
    (hi : s.opIdx < s.cmdLen.toNat) (hf : fetch s s.opIdx = .command i rest) (hk : i.cls = k)
    (h : exec i s = .next t) : t.Inv := by
  obtain ⟨hno, hr, hat, ho, hprog, hhdr, hsync⟩ := hs.walkingIn hp
  obtain ⟨-, ⟨m, hm, rfl⟩ | ⟨c, v, -, rfl⟩⟩ := exec_cases h
  · refine State.inv_of_walking hp { hs.bounds with image := install_imageOk hs.image hm _ }
      ⟨hno, hr, hat.next hi hf ⟨rfl, rfl, rfl⟩ rfl, ho, hprog.same ⟨rfl, rfl, rfl⟩, hhdr, ?_⟩
    rintro rfl
    obtain ⟨hw, hh⟩ := effect_filter_size hk hm
    rw [State.Synced, install_img, hw, hh]
    exact hsync rfl
  · exact inv_raise v hs.bounds hr fun _ => ho

/-- A command of another class is skipped. -/
theorem inv_skip {s : State} {k : CmdClass} {i : Instr} {rest : List Word} (hs : s.Inv) (hp : s.phase = phaseOf k)
    (hi : s.opIdx < s.cmdLen.toNat) (hf : fetch s s.opIdx = .command i rest) : (skip i.words s).Inv := by
  obtain ⟨hno, hr, hat, ho, hprog, hhdr, hsync⟩ := hs.walkingIn hp
  exact State.inv_of_walking hp { hs.bounds with }
    ⟨hno, hr, hat.next hi hf ⟨rfl, rfl, rfl⟩ rfl, ho, hprog.same ⟨rfl, rfl, rfl⟩, hhdr, hsync⟩

/-- The end of the list leaves the phase (44_pipeline.md R257). -/
theorem inv_endOfList {s : State} {k : CmdClass} (hs : s.Inv) (hp : s.phase = phaseOf k) :
    (enter (phaseAfter k) s).Inv := by
  obtain ⟨hno, hr, -, ho, hprog, hhdr, hsync⟩ := hs.walkingIn hp
  have hprog' : (enter (phaseAfter k) s).ProgramOk := hprog.same ⟨rfl, rfl, rfl⟩
  refine State.inv_of_clauses (p := phaseAfter k) rfl { hs.bounds with } ?_
  cases k with
  | crop | mirror => exact ⟨hno, hr, hprog'.atCommand rfl, ho, hprog', hhdr, nofun⟩
  | rotate => exact ⟨hno, hr, rfl, ho, hprog', hhdr⟩
  | filter => exact ⟨hno, rfl, ho, hprog', hhdr, hsync rfl⟩

theorem inv_walkStep {s t : State} {k : CmdClass} (hs : s.Inv) (hp : s.phase = phaseOf k)
    (h : walkStep k (phaseAfter k) s = .next t) : t.Inv := by
  obtain ⟨-, rfl⟩ | ⟨i, rest, hi, hf, ⟨hk, h⟩ | ⟨-, rfl⟩⟩ := walkStep_cases h
  · exact inv_endOfList hs hp
  · exact inv_exec hs hp hi hf hk h
  · exact inv_skip hs hp hi hf

/-! ### RESYNC and the encoder -/

/-- The Image's dimensions as words, read as numbers of either sign (45_arithmetic.md R271). -/
theorem ofNat_dim {n : Nat} (h : n ≤ 32767) :
    (BitVec.ofNat 32 n).toNat = n ∧ (BitVec.ofNat 32 n).toInt = n := by
  have e : (BitVec.ofNat 32 n).toNat = n := by rw [BitVec.toNat_ofNat]; omega
  exact ⟨e, by rw [BitVec.toInt_eq_toNat_cond, e, if_pos (by omega)]⟩

theorem inv_resync {s : State} (hs : s.Inv) (hp : s.phase = .resync) : (resync s).Inv := by
  obtain ⟨hno, hr, -, ho, hprog, hsig, hdib, hbpp, -⟩ := hs.clauses hp
  obtain ⟨-, hdim, -⟩ := hs.config
  obtain ⟨-, hw, hh, hpix⟩ := hs.image
  obtain ⟨ew, iw⟩ := ofNat_dim (hw.trans hdim)
  obtain ⟨eh, ih⟩ := ofNat_dim (hh.trans hdim)
  have hprog' : (resync s).ProgramOk := hprog.same ⟨rfl, rfl, rfl⟩
  have hgood : ¬ badDimensions (resync s).cfg (resync s).hdr := by
    simp only [badDimensions, resync, enter_hdr, enter_cfg, iw, ih]
    norm_cast
    omega
  exact State.inv_of_clauses (p := .filter) rfl { hs.bounds with }
    ⟨hno, hr, hprog'.atCommand rfl, ho, hprog', ⟨hsig, hdib, hbpp, hgood⟩, fun _ => ⟨ew, eh⟩⟩

/-- What has been written stays inside the sink (20_memory.md R60). -/
theorem Written.bounds {s u : State} {bs : List Byte} (h : Written s bs u) (hb : s.Bounds) : u.Bounds := by
  obtain ⟨rfl, hsink⟩ := h
  exact { hb with sink := hsink hb.sink }

/-- The size encodeHeader computes covers the rows: it does not wrap (00_scope.md R12, 40_header_codec.md R158). -/
theorem sizedHeader_covers {h : Header} (hw : h.width.toNat ≤ 32767) (hh : h.height.toNat ≤ 32767) :
    strideOf h.width.toNat * h.height.toNat ≤ (sizedHeader h).imgSize.toNat := by
  have hfit := rows_fit hw hh
  have hsize := h.imgSize.isLt
  simp only [sizedHeader, BitVec.toNat_ofNat]
  rw [Nat.mod_eq_of_lt (by omega)]
  exact Nat.le_max_right ..

theorem inv_encodeHeader {s t : State} (hs : s.Inv) (hr : s.stalled = false) (hp : s.phase = .encHdr)
    (h : encodeHeader s = .next t) : t.Inv := by
  obtain ⟨hno, hi, ho, hprog, hhdr, hsync⟩ := hs.clauses hp
  obtain ⟨-, hdim, -⟩ := hs.config
  obtain ⟨hsizes, hw, hh, -⟩ := hhdr.sizes
  have hsized := sizedHeader_covers (hw.trans hdim) (hh.trans hdim)
  have hb : ({ s with hdr := sizedHeader s.hdr } : State).Bounds := { hs.bounds with }
  obtain ⟨t', ht', hcases⟩ := encodeHeader_cases hsizes
  obtain rfl := Host.Outcome.next.inj (ht'.symm.trans h)
  rcases hcases with ⟨u, hu, rfl⟩ | ⟨-, rfl⟩ | ⟨bs, u, c, v, -, -, hu, hk, rfl⟩
  · have hbu := hu.bounds hb
    obtain ⟨rfl, -⟩ := hu
    have hout : s.out ++ headerBytes (sizedHeader s.hdr) = headerBytes (sizedHeader s.hdr) := by
      rw [ho, List.nil_append]
    exact State.inv_of_clauses (p := .encPix) rfl { hbu with }
      ⟨hno, rfl, hprog.same ⟨rfl, rfl, rfl⟩, hhdr, hsync, hsized, fun _ => hout⟩
  · exact State.inv_of_clauses (p := .encHdr) hp { hb with }
      ⟨hno, hi, ho, hprog.same ⟨rfl, rfl, rfl⟩, hhdr, hsync⟩
  · have hbu := hu.bounds hb
    obtain ⟨rfl, -⟩ := hu
    exact inv_raise v hbu hr (absurd hk)

/-- The file a run has written is complete (41_pixel_codec.md R182). -/
theorem fileBytes_length {h : Header} {m : Image} (hsz : strideOf m.w * m.h ≤ h.imgSize.toNat) :
    (fileBytes h m).length = 54 + h.imgSize.toNat := by
  rw [fileBytes, List.length_append, headerBytes_length, pixelBytes_length hsz]

theorem inv_encodePixels {s t : State} (hs : s.Inv) (hr : s.stalled = false) (hp : s.phase = .encPix)
    (h : encodePixels s = .next t) : t.Inv := by
  obtain ⟨hno, hi, hprog, hhdr, ⟨hw, hh⟩, hsized, hout⟩ := hs.clauses hp
  obtain ⟨hwf, -⟩ := hs.image
  obtain ⟨t', ht', hcases⟩ := encodePixels_cases hhdr.sizes.1 hwf hw hh
  obtain rfl := Host.Outcome.next.inj (ht'.symm.trans h)
  rcases hcases with ⟨u, hu, rfl⟩ | ⟨cs, u, -, hu, ⟨-, rfl⟩ | ⟨c, v, hk, -, rfl⟩⟩
  · have hbu := hu.bounds hs.bounds
    obtain ⟨rfl, -⟩ := hu
    have hfile : s.out ++ pixelBytes s.hdr s.img = fileBytes s.hdr s.img := by rw [hout hr, fileBytes]
    refine State.inv_of_clauses (p := .done) rfl { hbu with }
      ⟨hno, hr, rfl, hhdr, ⟨hw, hh⟩, hsized, hfile, (congrArg List.length hfile).trans (fileBytes_length ?_)⟩
    rwa [State.Sized, hw, hh] at hsized
  · have hbu := hu.bounds hs.bounds
    obtain ⟨rfl, -⟩ := hu
    exact State.inv_of_clauses (p := .encPix) hp { hbu with }
      ⟨hno, hi, hprog.same ⟨rfl, rfl, rfl⟩, hhdr, ⟨hw, hh⟩, hsized, nofun⟩
  · have hbu := hu.bounds hs.bounds
    obtain ⟨rfl, -⟩ := hu
    exact inv_raise v hbu hr (absurd hk)

/-! ### Every step -/

theorem inv_coreStep {s t : State} (hs : s.Inv) (h : coreStep s = .next t) : t.Inv := by
  cases hr : s.stalled with
  | true =>
    rw [coreStep_stalled hr] at h
    cases h
    exact hs
  | false =>
    cases hp : s.phase with
    | crop => rw [coreStep_running hr, hp] at h; exact inv_walkStep (k := .crop) hs hp h
    | mirror => rw [coreStep_running hr, hp] at h; exact inv_walkStep (k := .mirror) hs hp h
    | rotate => rw [coreStep_running hr, hp] at h; exact inv_walkStep (k := .rotate) hs hp h
    | filter => rw [coreStep_running hr, hp] at h; exact inv_walkStep (k := .filter) hs hp h
    | idle | done | error => rw [coreStep_running hr, hp] at h; cases h; exact hs
    | validate => rw [coreStep_running hr, hp] at h; cases h; exact inv_validateList hs hp
    | decHdr => rw [coreStep_running hr, hp] at h; cases h; exact inv_decodeHeader hs hr hp
    | decPix => rw [coreStep_running hr, hp] at h; exact inv_decodePixels hs hr hp h
    | resync => rw [coreStep_running hr, hp] at h; cases h; exact inv_resync hs hp
    | encHdr => rw [coreStep_running hr, hp] at h; exact inv_encodeHeader hs hr hp h
    | encPix => rw [coreStep_running hr, hp] at h; exact inv_encodePixels hs hr hp h

/-- With nothing decoded and nothing written only the configuration and the program are left to bound. -/
theorem State.Fresh.bounds {s : State} (h : s.Fresh) (hc : s.cfg.legal) (hm : s.cmd.wf)
    (hmb : ∀ e ∈ s.cmd, e.1 < s.cfg.cmdCap) (hl : s.cmdLen.toNat ≤ s.cfg.cmdCap) (hi : s.ipos = 0) : s.Bounds := by
  obtain ⟨-, -, -, ho, him⟩ := h
  refine ⟨hc, hm, hmb, hl, ?_, by omega, fun cap _ => by simp [ho]⟩
  rw [State.ImageOk, him]
  exact ⟨rfl, Nat.zero_le _, Nat.zero_le _, Nat.zero_le _⟩

theorem inv_resetCore {s : State} (hs : s.Inv) : (resetCore s).Inv := by
  have hfresh : (resetCore s).Fresh := ⟨⟨rfl, rfl, rfl⟩, rfl, rfl, rfl, rfl⟩
  exact State.inv_of_clauses (p := .idle) rfl
    (hfresh.bounds hs.config reset_memory_wf nofun (Nat.zero_le _) rfl) hfresh

theorem inv_startRun {s : State} (hs : s.Inv) : (startRun s).Inv := by
  have hfresh : (startRun s).Fresh := ⟨⟨rfl, rfl, rfl⟩, rfl, rfl, rfl, rfl⟩
  exact State.inv_of_clauses (p := .validate) rfl
    (hfresh.bounds hs.config hs.memory hs.memoryBound hs.lenBound rfl) ⟨hfresh, rfl⟩

/-- Settles O52: power-on is IDLE with nothing decoded and nothing written. -/
theorem invariantHoldsAtReset : Obligations.InvariantHoldsAtReset := by
  have hfresh : State.reset.Fresh := ⟨⟨rfl, rfl, rfl⟩, rfl, rfl, rfl, rfl⟩
  exact State.inv_of_clauses (p := .idle) rfl
    (hfresh.bounds (by decide) reset_memory_wf nofun (Nat.zero_le _) rfl) hfresh

/-- The invariant does not speak of the schedule, the host's last read, the count of free reads and `PIXADDR`. -/
theorem State.Inv.setHostFields {s : State} (hs : s.Inv) (ms : List HostMove) (v : Word) (n : Nat) (a : Word) :
    ({ s with host := ms, rdata := v, fresh := n, pixAddr := a } : State).Inv :=
  have same : SameProgram s { s with host := ms, rdata := v, fresh := n, pixAddr := a } := ⟨rfl, rfl, rfl⟩
  { hs with
    program := fun h => (hs.program h).same same
    walking := fun h => by rw [same.scan]; exact hs.walking h }

/-- A run that VALIDATE has passed is in progress (10_state.md R35). -/
theorem busy_of_validated {s : State} (h : s.phase.validated = true) : s.busy = true := by
  cases hp : s.phase <;> simp_all [Phase.validated, State.busy]

/-- A phase that walks the list is one VALIDATE has passed. -/
theorem validated_of_walks {p : Phase} (h : p.walks = true) : p.validated = true := by
  cases p <;> cases h <;> rfl

/-- While `BUSY = 0` the program may change: nothing the invariant says then depends on it (10_state.md R37). -/
theorem State.Inv.setProgram {s : State} (hs : s.Inv) (hb : s.busy = false) {m : Memory} {n : Word} (hm : m.wf)
    (hmb : ∀ e ∈ m, e.1 < s.cfg.cmdCap) (hn : n.toNat ≤ s.cfg.cmdCap) :
    ({ s with cmd := m, cmdLen := n } : State).Inv :=
  have idle {Q : Prop} (h : s.phase.validated = true) : Q :=
    absurd (busy_of_validated h) (by simp [hb])
  { hs with
    memory := hm
    memoryBound := hmb
    lenBound := hn
    program := fun h => idle h
    walking := fun h => idle (validated_of_walks h) }

theorem inv_hostWrite {s : State} (hs : s.Inv) (off : Nat) (v : Word) : (hostWrite off v s).Inv := by
  rcases hostWrite_cases off v s with
    h | ⟨-, -, h⟩ | ⟨-, -, -, -, h⟩ | ⟨hb, n, hn, h⟩ | ⟨-, h⟩ | ⟨hb, i, hi, h⟩ <;> rw [h]
  · exact hs
  · exact inv_resetCore hs
  · exact inv_startRun hs
  · exact hs.setProgram hb hs.memory hs.memoryBound hn
  · exact hs.setHostFields s.host s.rdata s.fresh v
  · refine hs.setProgram hb (Memory.write_wf hs.memory i v) (fun e he => ?_) hs.lenBound
    rcases Memory.index_of_mem_write he with rfl | he
    · exact hi
    · exact hs.memoryBound e he

/-- Settles O53: one lemma for each phase of the core and each move of the host. -/
theorem everyStepKeepsTheInvariant : Obligations.EveryStepKeepsTheInvariant := by
  intro s t hs h
  have taken (rest : List HostMove) : ({ s with host := rest } : State).Inv :=
    hs.setHostFields rest s.rdata s.fresh s.pixAddr
  obtain ⟨rest, h⟩ | ⟨off, v, rest, -, rfl⟩ | ⟨off, rest, -, rfl⟩ | ⟨rest, -, rfl⟩ := step_cases h
  · exact inv_coreStep (taken rest) h
  · exact inv_hostWrite (taken rest) off v
  · obtain ⟨v, n, h⟩ := hostRead_eq off { s with host := rest }
    rw [h]
    exact hs.setHostFields rest v n s.pixAddr
  · exact inv_resetCore (taken rest)

/-- Every state a run reaches meets the invariant, from any state that does, power-on among them. -/
theorem run_keeps_inv {s t : State} {n : Nat} (hs : s.Inv) (h : Host.Core.run Sys2Proof.core n s = .next t) : t.Inv :=
  run_keeps everyStepKeepsTheInvariant hs h

end Sys2Proof.Machine
end

section
/-! No step stops under the invariant, and how a collaborator call ends a run: a failure of the oracle, a full sink
(20_memory.md R64, R68 to R72). -/

namespace Sys2Proof.Machine

/-! ### The core's step gives a next state, phase by phase -/

/-- A command on a whole Image installs its result or raises; the only defect is a buffer that is not whole
(20_memory.md R64). No command carries an angle to refuse (42_geometric.md R202). -/
theorem exec_next {s : State} (h : s.img.wf) (i : Instr) : ∃ t, exec i s = .next t := by
  cases he : effect s.cfg i s.img with
  | ok m => exact ⟨_, exec_of_effect_ok h he⟩
  | error e => exact ⟨_, exec_of_effect_error h he⟩

/-- After VALIDATE a word that does not decode is never met (30_encoding.md R112). -/
theorem walkStep_next {s : State} (hs : s.Inv) {k : CmdClass} (hp : s.phase = phaseOf k) (p : Phase) :
    ∃ t, walkStep k p s = .next t := by
  obtain ⟨-, -, ⟨-, hscan⟩, -⟩ := hs.walkingIn hp
  obtain ⟨hwf, -⟩ := hs.image
  by_cases hi : s.opIdx < s.cmdLen.toNat
  · obtain ⟨i, rest, hf, -⟩ := scan_none_step hscan hi
    rw [walkStep_command hi hf]
    split
    · exact exec_next hwf i
    · exact ⟨_, rfl⟩
  · exact ⟨_, walkStep_end (not_lt.1 hi) k p⟩

/-- A valid Header has sizes that are not negative and rows that hold their pixels (45_arithmetic.md R272, 10_state.md
R29). -/
theorem decodePixels_next {s : State} (hs : s.Inv) (hp : s.phase = .decPix) : ∃ t, decodePixels s = .next t := by
  obtain ⟨-, -, -, -, -, hhdr⟩ := hs.clauses hp
  obtain ⟨hsizes, -⟩ := hhdr.sizes
  obtain ⟨-, -, hbpp, -⟩ := hhdr
  obtain ⟨t, ht, -⟩ := decodePixels_cases hs.position hsizes hbpp
  exact ⟨t, ht⟩

theorem encodeHeader_next {s : State} (hs : s.Inv) (hp : s.phase = .encHdr) : ∃ t, encodeHeader s = .next t := by
  obtain ⟨-, -, -, -, hhdr, -⟩ := hs.clauses hp
  obtain ⟨t, ht, -⟩ := encodeHeader_cases hhdr.sizes.1
  exact ⟨t, ht⟩

/-- The Header's sizes are the Image's, and the Image is whole, so every pixel the encoder reads is there (20_memory.md
R64). -/
theorem encodePixels_next {s : State} (hs : s.Inv) (hp : s.phase = .encPix) : ∃ t, encodePixels s = .next t := by
  obtain ⟨-, -, -, hhdr, ⟨hw, hh⟩, -⟩ := hs.clauses hp
  obtain ⟨hwf, -⟩ := hs.image
  obtain ⟨t, ht, -⟩ := encodePixels_cases hhdr.sizes.1 hwf hw hh
  exact ⟨t, ht⟩

theorem coreStep_next {s : State} (hs : s.Inv) : ∃ t, coreStep s = .next t := by
  cases hr : s.stalled with
  | true => exact ⟨s, coreStep_stalled hr⟩
  | false =>
    rw [coreStep_running hr]
    cases hp : s.phase with
    | idle | done | error | validate | decHdr | resync => exact ⟨_, rfl⟩
    | decPix => exact decodePixels_next hs hp
    | crop => exact walkStep_next (k := .crop) hs hp .mirror
    | mirror => exact walkStep_next (k := .mirror) hs hp .rotate
    | rotate => exact walkStep_next (k := .rotate) hs hp .resync
    | filter => exact walkStep_next (k := .filter) hs hp .encHdr
    | encHdr => exact encodeHeader_next hs hp
    | encPix => exact encodePixels_next hs hp

/-- Settles O54: a host move always gives a next state, and the core's step does by the invariant, which does not speak
of the schedule the move was taken from. -/
theorem noStepStopsUnderTheInvariant : Obligations.NoStepStopsUnderTheInvariant := by
  intro s hs
  cases hhost : s.host with
  | nil =>
    rw [step_nil hhost]
    exact coreStep_next hs
  | cons m rest =>
    rw [step_cons hhost]
    cases m with
    | tick => exact coreStep_next (hs.setHostFields rest s.rdata s.fresh s.pixAddr)
    | write off v => exact ⟨_, rfl⟩
    | read off => exact ⟨_, rfl⟩
    | resetPin => exact ⟨_, rfl⟩

/-! ### A write the sink cannot take whole (20_memory.md R70) -/

/-- A sink of capacity `cap` that cannot take all bytes offered takes them up to `cap`. -/
theorem accepted_length {s : State} {bs : List Byte} {cap : Nat} (hle : s.out.length ≤ cap)
    (hlt : cap < s.out.length + bs.length) : (s.out ++ bs.take (cap - s.out.length)).length = cap := by
  rw [List.length_append, List.length_take]
  omega

/-- The run ends in a SHORT_WRITE that reports `OLEN` after the bytes taken, which is `cap`. -/
theorem outWrite_short {s : State} {bs : List Byte} {cap : Nat} (hc : s.cfg.outCap = some cap)
    (hle : s.out.length ≤ cap) (hf : s.cfg.ioFault = []) (hh : s.cfg.ioHang = [])
    (hlt : cap < s.out.length + bs.length) :
    outWrite bs s = .stop (raise .shortWrite (infoOfNat cap) (acceptBytes (bs.take (cap - s.out.length)) s)) := by
  have hfull : ¬ fitsCap (some cap) s.olen bs.length = true := fun h => absurd (of_decide_eq_true h) (not_le.2 hlt)
  unfold outWrite
  rw [ioCall_quiet hf hh, hc, if_neg hfull]
  simp only [roomLeft, State.olen, acceptBytes_out, accepted_length hle hlt]

/-- Settles O43: `OUT` ends as the old `OUT` and a prefix of the bytes offered, `cap` bytes in all. -/
theorem shortWriteKeepsTheAcceptedBytes : Obligations.ShortWriteKeepsTheAcceptedBytes := by
  intro s bs cap hc hle hf hh hlt
  exact ⟨_, outWrite_short hc hle hf hh hlt, rfl, accepted_length hle hlt, List.prefix_append ..,
    (List.prefix_append_right_inj s.out).2 (List.take_prefix ..)⟩

/-! ### A call the oracle fails (20_memory.md R72) -/

/-- A call that returns and that the oracle fails raises, whatever its body would do. -/
theorem ioCall_failed {α : Type} {s : State} {kind : IoKind} {pos n : Nat} (hh : s.cfg.ioHang = [])
    (hf : ⟨kind, pos, n⟩ ∈ s.cfg.ioFault) (failure : Cause) (body : State → Io α) :
    ioCall kind pos n failure body s = .stop (raise failure (infoOfNat pos) s) := by
  unfold ioCall
  rw [if_neg (by simp [hh]), if_pos hf]

/-- Settles O46: the three calls differ in kind, position and cause alone. -/
theorem oracleFailureIsReportedFirst : Obligations.OracleFailureIsReportedFirst := by
  intro s n o bs hh
  exact ⟨fun hf => ioCall_failed hh hf .streamClosed _, fun hf => ioCall_failed hh hf .seekFail _,
    fun hf => ioCall_failed hh hf .streamClosed _⟩

end Sys2Proof.Machine
end

section
/-! Decoder and encoder agree: what the decoder reads at each of the seventeen command words, and at every other word
(30_encoding.md R101 to R112). -/

namespace Sys2Proof.Machine

/-! ### The command words -/

/-- The class and selector bits and the reserved bits make up the word (30_encoding.md R101). -/
theorem word_of_fields {w : Word} {n : Nat} (hz : w.extractLsb' 0 24 = 0#24) (ho : (w.extractLsb' 24 8).toNat = n) :
    w = BitVec.ofNat 32 (n * 2 ^ 24) := by
  have hz := congrArg BitVec.toNat hz
  have hw := w.isLt
  simp only [BitVec.extractLsb'_toNat, BitVec.toNat_ofNat, Nat.shiftRight_eq_div_pow] at hz ho
  apply BitVec.eq_of_toNat_eq
  rw [BitVec.toNat_ofNat]
  omega

/-- Every word of the table is the word of a command. -/
theorem exists_commandWord {w : Word} (h : w ∈ commandWords) : ∃ i : Instr, i.commandWord = w := by
  have hmap : commandWords = [Instr.keepb, .keepr, .keepg, .gray, .neg, .pixelate 0, .blur 0, .rot90, .rot180, .rot270,
      .rotm90, .rotm180, .rotm270, .mirh, .mirv, .crop2 0 0, .crop4 0 0 0 0].map Instr.commandWord := rfl
  rw [hmap] at h
  obtain ⟨i, -, hi⟩ := List.mem_map.1 h
  exact ⟨i, hi⟩

/-- The table of operand counts lists the commands that have operands (30_encoding.md R102). -/
theorem mem_operandCounts (i : Instr) (n : Nat) :
    (i.commandWord, n) ∈ operandCounts ↔ n = i.operands.length ∧ 0 < n := by
  cases i <;> simp [operandCounts, Instr.commandWord, Instr.operands] <;> omega

theorem mem_commandWords_of_operandCounts {w : Word} {n : Nat} (h : (w, n) ∈ operandCounts) : w ∈ commandWords :=
  (show ∀ e ∈ operandCounts, e.1 ∈ commandWords by decide) _ h

/-! ### The decoder on a word that is none of the seventeen -/

/-- A non-zero reserved bit (30_encoding.md R107). -/
theorem decode_reserved {w : Word} (h : w.extractLsb' 0 24 ≠ 0#24) (rest : List Word) :
    decode (w :: rest) = .illegal := if_pos h

/-- A word outside the opcode map (30_encoding.md R108): the map's opcodes with zero reserved bits are the seventeen. -/
theorem decode_unlisted {w : Word} (hw : w ∉ commandWords) (rest : List Word) : decode (w :: rest) = .illegal := by
  by_cases hz : w.extractLsb' 0 24 = 0#24
  · have hunlisted : ∀ n, (w.extractLsb' 24 8).toNat = n → BitVec.ofNat 32 (n * 2 ^ 24) ∉ commandWords :=
      fun n hn hmem => hw (word_of_fields hz hn ▸ hmem)
    rw [decode, if_neg (not_not.2 hz)]
    unfold decodeOpcode
    split
    case h_18 => rfl
    all_goals next ho => exact absurd (by decide) (hunlisted _ ho)
  · exact decode_reserved hz rest

/-! ### The decoder on a command word -/

/-- How the operand words of a command's format are read; the command's own operands play no part (30_encoding.md
R102). -/
def readOperands : Instr → List Word → Decoded
  | .pixelate _ => takeC1 .pixelate
  | .blur _ => takeC1 .blur
  | .crop2 _ _ => takeC2 .crop2
  | .crop4 _ _ _ _ => takeC4 .crop4
  | i => takeC0 i

theorem decode_commandWord (i : Instr) (rest : List Word) :
    decode (i.commandWord :: rest) = readOperands i rest := by
  cases i <;> simp only [Instr.commandWord] <;> rfl

/-- A command with its operand words is read back, whatever follows. -/
theorem readOperands_encoded {i : Instr} (h : i.wellFormed = true) (rest : List Word) :
    readOperands i (i.operands.map encodeOperand ++ rest) = .command i rest := by
  cases i
  case pixelate | blur | crop2 | crop4 =>
    simp only [Instr.wellFormed, Bool.and_eq_true] at h
    simp [readOperands, takeC1, takeC2, takeC4, Instr.operands, operandValue_encodeOperand, h]
  all_goals rfl

/-- Either the operand words run out, or what is read is a well-formed command whose encoding stands there. -/
theorem readOperands_cases (i : Instr) (ws : List Word) :
    (ws.length < i.operands.length ∧ readOperands i ws = .truncated) ∨
      (i.operands.length ≤ ws.length ∧ ∃ j rest, readOperands i ws = .command j rest ∧
        i.commandWord :: ws = encode j ++ rest ∧ j.wellFormed = true) := by
  cases i
  case pixelate | blur =>
    match ws with
    | [] => exact .inl ⟨Nat.one_pos, rfl⟩
    | a :: rest =>
      exact .inr ⟨by simp [Instr.operands], _, rest, rfl,
        by simp [encode, Instr.commandWord, Instr.operands], fitsI32_operandValue a⟩
  case crop2 =>
    match ws with
    | [] | [_] => exact .inl ⟨by simp [Instr.operands], rfl⟩
    | a :: b :: rest =>
      exact .inr ⟨by simp [Instr.operands], _, rest, rfl,
        by simp [encode, Instr.commandWord, Instr.operands], by simp [Instr.wellFormed]⟩
  case crop4 =>
    match ws with
    | [] | [_] | [_, _] | [_, _, _] => exact .inl ⟨by simp [Instr.operands], rfl⟩
    | a :: b :: c :: d :: rest =>
      exact .inr ⟨by simp [Instr.operands], _, rest, rfl,
        by simp [encode, Instr.commandWord, Instr.operands], by simp [Instr.wellFormed]⟩
  all_goals exact .inr ⟨Nat.zero_le _, _, ws, rfl, rfl, rfl⟩

/-! ### The statements about the encoding -/

/-- Settles O2: on the command's own word the decoder reads the command's operands back. -/
theorem decodeOfEncodeGivesTheCommandBack : Obligations.DecodeOfEncodeGivesTheCommandBack := by
  intro i rest hwf
  rw [encode, List.cons_append, decode_commandWord, readOperands_encoded hwf]

/-- Settles O3: only the seventeen words decode, and each reads its operands from their own words. -/
theorem encodeOfDecodeGivesTheWordsBack : Obligations.EncodeOfDecodeGivesTheWordsBack := by
  intro ws i rest h
  cases ws with
  | nil => cases h
  | cons w ws =>
    by_cases hw : w ∈ commandWords
    · obtain ⟨c, rfl⟩ := exists_commandWord hw
      rw [decode_commandWord] at h
      obtain ⟨-, ht⟩ | ⟨-, j, r, hj, henc, hwf⟩ := readOperands_cases c ws
      · cases ht.symm.trans h
      · cases hj.symm.trans h
        exact ⟨henc, hwf⟩
    · cases (decode_unlisted hw ws).symm.trans h

/-- Settles O4: a command word decodes to a command or is truncated, every other word is illegal. -/
theorem reservedBitsAndUnknownWordsAreIllegal : Obligations.ReservedBitsAndUnknownWordsAreIllegal := by
  refine ⟨fun w rest h => decode_reserved h rest, fun w rest => ⟨fun h hw => ?_, fun hw => decode_unlisted hw rest⟩⟩
  obtain ⟨i, rfl⟩ := exists_commandWord hw
  rw [decode_commandWord] at h
  obtain ⟨-, ht⟩ | ⟨-, j, r, hj, -⟩ := readOperands_cases i rest
  · cases ht.symm.trans h
  · cases hj.symm.trans h

/-- A command word is truncated exactly when fewer words follow than the command has operands. -/
theorem decode_commandWord_truncated (i : Instr) (rest : List Word) :
    decode (i.commandWord :: rest) = .truncated ↔ rest.length < i.operands.length := by
  rw [decode_commandWord]
  obtain ⟨hlt, ht⟩ | ⟨hle, j, r, hj, -⟩ := readOperands_cases i rest
  · exact iff_of_true ht hlt
  · exact iff_of_false (fun h => nomatch hj.symm.trans h) hle.not_gt

/-- Settles O5: at a command word by the length of its format; no other word has a format. -/
theorem truncatedExactlyWhenOperandWordsRunOut : Obligations.TruncatedExactlyWhenOperandWordsRunOut := by
  intro w rest
  by_cases hw : w ∈ commandWords
  · obtain ⟨i, rfl⟩ := exists_commandWord hw
    simp only [decode_commandWord_truncated, mem_operandCounts]
    exact ⟨fun h => ⟨_, ⟨rfl, Nat.zero_lt_of_lt h⟩, h⟩, fun ⟨_, ⟨hn, _⟩, h⟩ => hn ▸ h⟩
  · rw [decode_unlisted hw]
    exact iff_of_false Decoded.noConfusion fun ⟨_, hmem, _⟩ => hw (mem_commandWords_of_operandCounts hmem)

/-- Settles O1: the words are encodings, words outside the map, and a format cut short. -/
theorem decodesWordsOfTheOpcodeMap : Obligations.DecodesWordsOfTheOpcodeMap := by
  have back := decodeOfEncodeGivesTheCommandBack
  have hpix : encode (.pixelate (-3)) = [0x15000000, 0xFFFFFFFD] := by decide
  exact ⟨back .neg [] rfl, hpix ▸ back (.pixelate (-3)) [] rfl, back .rotm270 [] rfl, back .mirv [0x10000000] rfl,
    back (.crop4 1 0 2 2) [] rfl, decode_reserved (by decide) _, decode_unlisted (by decide) _,
    (decode_commandWord_truncated (.crop4 0 0 0 0) _).2 (by decide)⟩

end Sys2Proof.Machine
end

section
/-! The command at OPIDX: an encoding in the command memory is fetched and executed, and each executing phase walks the
list (30_encoding.md R113, 44_pipeline.md R257). -/

namespace Sys2Proof.Machine

/-- The words of a well-formed command inside `CMDLEN` are fetched as that command (30_encoding.md R112). -/
theorem fetch_encoded {s : State} {i : Instr} {n : Nat} (hwf : i.wellFormed = true)
    (hlen : n + i.words ≤ s.cmdLen.toNat) (hw : ∀ k w, (encode i)[k]? = some w → s.cmdWord (n + k) = w) :
    ∃ rest, fetch s n = .command i rest := by
  have hprefix : encode i <+: cmdWindow s n := by
    rw [List.prefix_iff_getElem?]
    intro k hk
    have hword := hw k _ (List.getElem?_eq_getElem hk)
    have hmax := i.words_le
    rw [encode_length] at hk
    have hin : k < min maxWords (s.cmdLen.toNat - n) := by omega
    rw [cmdWindow, List.getElem?_map, List.getElem?_range hin, Option.map_some, hword]
  obtain ⟨rest, hrest⟩ := hprefix
  exact ⟨rest, by rw [fetch, ← hrest, decodeOfEncodeGivesTheCommandBack i rest hwf]⟩

/-- Settles O48: the encoding at `OPIDX` is fetched as the command, and a step executes what is fetched. -/
theorem stepExecutesTheEncodedCommand : Obligations.StepExecutesTheEncodedCommand := by
  intro s i hhost hst hphase hwf hlen hw
  obtain ⟨rest, hf⟩ := fetch_encoded hwf hlen hw
  have hpos := i.words_pos
  exact stepExecutesTheFetchedCommand s i rest hhost hst hphase (by omega) hf

/-- The table of the walks lists each class with its phase and the phase after it (44_pipeline.md R257). -/
theorem walk_of_mem {p q : Phase} {k : CmdClass}
    (h : (p, k, q) ∈ [(Phase.crop, CmdClass.crop, Phase.mirror), (.mirror, .mirror, .rotate),
      (.rotate, .rotate, .resync), (.filter, .filter, .encHdr)]) : p = phaseOf k ∧ q = phaseAfter k := by
  cases k <;> simpa [phaseOf, phaseAfter] using h

/-- Settles O49: the step is the walk of the phase's class, read off at the end of the list and at a command. -/
theorem executingPhasesWalkTheList : Obligations.ExecutingPhasesWalkTheList := by
  intro s k p q hmem hhost hst hp
  obtain ⟨rfl, rfl⟩ := walk_of_mem hmem
  rw [step_nil hhost, coreStep_phaseOf hst hp]
  refine ⟨fun hend => walkStep_end hend k _, fun i rest hidx hf => ?_⟩
  rw [walkStep_command hidx hf]
  exact ⟨fun hk => if_pos hk, fun hk => if_neg hk⟩

end Sys2Proof.Machine
end

section
/-! The row stride (40_header_codec.md R157), and decodeHeader, which reads field after field, against the layout of the
file (20_memory.md R76, 40_header_codec.md R143 to R153). -/

namespace Sys2Proof.Machine

/-- Settles O37, by the rules that say the stride is one number and how it exceeds the pixels. -/
theorem strideFormulasAgree : Obligations.StrideFormulasAgree := fun w =>
  ⟨strideBits_24 w, Nat.mul_mod_left .., strideOf_eq w⟩

/-! ### decodeHeader with a collaborator that never fails (40_header_codec.md R143) -/

/-- The state in which decodeHeader has read the first `k` bytes of the file. -/
def State.headerReadTo (s : State) (k : Nat) : State := { s with hdr := headerUpTo s.hdr s.inp k, ipos := k }

/-- What decodeHeader comes to for an answer of `headerOf`. -/
def State.headerOutcome (s : State) : Except (Cause × Word) Header → State
  | .ok h => enter .decPix { s with hdr := h, ipos := 54 }
  | .error (c, v) => raise c v (s.headerReadTo (stopAt c v))

/-- At `IPOS = 0` no byte has been read (40_header_codec.md R142). -/
theorem headerReadTo_start {s : State} (h : s.ipos = 0) : s.headerReadTo 0 = s := by
  obtain ⟨⟩ := s
  cases h
  rfl

/-! A check or a short read ends what follows it. -/

theorem Io.bind_ite {α β : Type} (p : Prop) [Decidable p] (t : State) (x : Io α) (f : α → State → Io β) :
    (if p then .stop t else x).bind f = if p then .stop t else x.bind f := by split <;> rfl

theorem Io.finish_ite (p : Prop) [Decidable p] (t : State) (x : Io Unit) (after : State → State) :
    (if p then .stop t else x).finish after = if p then t else x.finish after := by split <;> rfl

section
variable {s : State} (hf : s.cfg.ioFault = []) (hh : s.cfg.ioHang = [])
include hf hh

/-- The next field of the header: a short read leaves `IPOS`, else what follows runs on the field (20_memory.md R68). -/
theorem inRead_bind_header {α : Type} (k n : Nat) {f : List Byte → State → Io α} {x : Io α}
    (hx : f (field s.inp k n) { s.headerReadTo k with ipos := k + n } = x) :
    (inRead n (s.headerReadTo k)).bind f =
      if s.inp.length < k + n then .stop (raise .shortRead (infoOfNat k) (s.headerReadTo k)) else x := by
  rw [inRead_quiet (s := s.headerReadTo k) hf hh, Io.bind_ite, Io.bind_ok, ← hx]
  rfl

theorem readSignature_quiet :
    readSignature (s.headerReadTo 0) =
      if s.inp.length < 2 then .stop (raise .shortRead 0 (s.headerReadTo 0))
      else check (field s.inp 0 2 ≠ [0x42, 0x4D]) .badSignature ((headerFields s.inp).sig.setWidth 32)
        (s.headerReadTo 2) :=
  inRead_bind_header hf hh 0 2 rfl

theorem readFileFields_quiet :
    readFileFields (s.headerReadTo 2) =
      if s.inp.length < 6 then .stop (raise .shortRead 2 (s.headerReadTo 2))
      else if s.inp.length < 10 then .stop (raise .shortRead 6 (s.headerReadTo 6))
      else if s.inp.length < 14 then .stop (raise .shortRead 10 (s.headerReadTo 10))
      else .ok () (s.headerReadTo 14) :=
  inRead_bind_header hf hh 2 4 <| inRead_bind_header hf hh 6 4 <| inRead_bind_header hf hh 10 4 rfl

theorem readDibSize_quiet :
    readDibSize (s.headerReadTo 14) =
      if s.inp.length < 18 then .stop (raise .shortRead 14 (s.headerReadTo 14))
      else check ((headerFields s.inp).dibSize ≠ 40) .badDibSize (headerFields s.inp).dibSize (s.headerReadTo 18) :=
  inRead_bind_header hf hh 14 4 rfl

theorem readDimensions_quiet :
    readDimensions (s.headerReadTo 18) =
      if s.inp.length < 22 then .stop (raise .shortRead 18 (s.headerReadTo 18))
      else if s.inp.length < 26 then .stop (raise .shortRead 22 (s.headerReadTo 22))
      else .ok () (s.headerReadTo 26) :=
  inRead_bind_header hf hh 18 4 <| inRead_bind_header hf hh 22 4 rfl

theorem readBitDepth_quiet :
    readBitDepth (s.headerReadTo 26) =
      if s.inp.length < 28 then .stop (raise .shortRead 26 (s.headerReadTo 26))
      else if s.inp.length < 30 then .stop (raise .shortRead 28 (s.headerReadTo 28))
      else check ((headerFields s.inp).bpp ≠ 24) .badBitDepth ((headerFields s.inp).bpp.setWidth 32)
        (s.headerReadTo 30) :=
  inRead_bind_header hf hh 26 2 <| inRead_bind_header hf hh 28 2 rfl

theorem readCompression_quiet :
    readCompression (s.headerReadTo 30) =
      if s.inp.length < 34 then .stop (raise .shortRead 30 (s.headerReadTo 30))
      else check (le32 (field s.inp 30 4) ≠ 0) .compressed (le32 (field s.inp 30 4)) (s.headerReadTo 34) :=
  inRead_bind_header hf hh 30 4 rfl

theorem readImageSize_quiet :
    readImageSize (s.headerReadTo 34) =
      if s.inp.length < 38 then .stop (raise .shortRead 34 (s.headerReadTo 34))
      else if s.inp.length < 54 then .stop (raise .shortRead 38 (s.headerReadTo 38))
      else .ok () (s.headerReadTo 54) :=
  inRead_bind_header hf hh 34 4 <| inRead_bind_header hf hh 38 16 rfl

/-- decodeHeader, read field after field, comes to what the layout table says (40_header_codec.md R143, R152). -/
theorem decodeHeader_quiet : decodeHeader (s.headerReadTo 0) = s.headerOutcome (headerOf s.cfg s.inp) := by
  rw [decodeHeader, readSignature_quiet hf hh]
  simp only [check, Io.bind_ite, Io.bind_ok, readFileFields_quiet hf hh, readDibSize_quiet hf hh,
    readDimensions_quiet hf hh, readBitDepth_quiet hf hh, readCompression_quiet hf hh, readImageSize_quiet hf hh,
    checkDimensions, Io.finish_ite, Io.finish_ok, headerOf, apply_ite s.headerOutcome]
  rfl

end

/-- Settles O38: the step is decodeHeader, which comes to what `headerOf` says of the file. -/
theorem headerDecodesByTheFileLayout : Obligations.HeaderDecodesByTheFileLayout := by
  intro s hhost hst hp hpos hf hh
  have hstep : step s = .next (s.headerOutcome (headerOf s.cfg s.inp)) := by
    rw [step_nil hhost, coreStep_running hst, hp, ← decodeHeader_quiet hf hh, headerReadTo_start hpos]
  refine ⟨fun h hok => ?_, fun c v herr => ?_⟩
  · rw [hstep, hok]; rfl
  · rw [hstep, herr]; rfl

end Sys2Proof.Machine
end

section
/-! encodeHeader and encodePixels with collaborators that never fail, and the layout of the header they write
(40_header_codec.md R155 to R161, 41_pixel_codec.md R178). -/

namespace Sys2Proof.Machine

/-! ### Fields of a file (20_memory.md R76) -/

/-- A field of the front part is read from it alone. -/
theorem field_append_left {as : List Byte} {off n : Nat} (h : off + n ≤ as.length) (bs : List Byte) :
    field (as ++ bs) off n = field as off n := by
  rw [field, List.drop_append_of_le_length (by omega), List.take_append_of_le_length (by rw [List.length_drop]; omega)]
  rfl

theorem getElem?_field {inp : List Byte} {off n j : Nat} (hj : j < n) : (field inp off n)[j]? = inp[off + j]? := by
  rw [field, List.getElem?_take_of_lt hj, List.getElem?_drop]

/-- A word is read back from its four bytes (00_scope.md R15). -/
theorem leNat_toLe_word (w : Word) : leNat (toLe 4 w.toNat) = w.toNat :=
  (leNat_toLe 4 w.toNat).trans (Nat.mod_eq_of_lt w.isLt)

/-! ### The layout of the 54 bytes of encodeHeader (20_memory.md R76, 40_header_codec.md R155) -/

section
variable (h : Header)

theorem headerBytes_sig : field (headerBytes h) 0 2 = [0x42, 0x4D] := rfl
theorem headerBytes_fileSize : leNat (field (headerBytes h) 2 4) = h.fileSize.toNat := leNat_toLe_word _
theorem headerBytes_reserved : leNat (field (headerBytes h) 6 4) = 0 := rfl
theorem headerBytes_dataOffset : leNat (field (headerBytes h) 10 4) = 54 := rfl
theorem headerBytes_dibSize : leNat (field (headerBytes h) 14 4) = 40 := rfl
theorem headerBytes_width : leNat (field (headerBytes h) 18 4) = h.width.toNat := leNat_toLe_word _
theorem headerBytes_height : leNat (field (headerBytes h) 22 4) = h.height.toNat := leNat_toLe_word _
theorem headerBytes_planes : leNat (field (headerBytes h) 26 2) = 1 := rfl
theorem headerBytes_bpp : leNat (field (headerBytes h) 28 2) = 24 := rfl
theorem headerBytes_compression : leNat (field (headerBytes h) 30 4) = 0 := rfl
theorem headerBytes_imgSize : leNat (field (headerBytes h) 34 4) = h.imgSize.toNat := leNat_toLe_word _
theorem headerBytes_rest : field (headerBytes h) 38 16 = List.replicate 16 0 := rfl

end

/-! ### The encoder with collaborators that never fail and an unbounded sink -/

/-- encodeHeader writes the header of the sizes it computes (40_header_codec.md R155). -/
theorem encodeHeader_quiet {s : State} (hs : s.hdr.sizesNonneg) (hq : s.QuietIo) :
    encodeHeader s = .next (enter .encPix { s with
      hdr := sizedHeader s.hdr, out := s.out ++ headerBytes (sizedHeader s.hdr) }) := by
  obtain ⟨hf, hh, hc⟩ := hq
  rw [encodeHeader, if_pos hs]
  simp only [outWrite_quiet (s := { s with hdr := sizedHeader s.hdr }) hf hh hc]
  rfl

/-- encodePixels writes the rows and the padding of the Image (41_pixel_codec.md R178). -/
theorem encodePixels_quiet {s : State} (hs : s.hdr.sizesNonneg) (hm : s.img.wf) (hsync : s.Synced) (hq : s.QuietIo) :
    encodePixels s = .next (enter .done { s with out := s.out ++ pixelBytes s.hdr s.img }) := by
  obtain ⟨hf, hh, hc⟩ := hq
  obtain ⟨hw, hht⟩ := hsync
  have hrows := writeRows_quiet hf hh hc s.img s.img.w (strideOf s.img.w) s.img.h s.out
  have hbuf : ¬ s.img.pix.length < s.img.w * s.img.h := by rw [show s.img.pix.length = _ from hm]; omega
  simp only [encodePixels, if_pos hs, hw, hht, strideBits_24, if_neg hbuf]
  rw [hrows, Io.bind_ok, writeTrailer_quiet, pixelBytes, ← List.append_assoc]
  · rfl
  · exact hf
  · exact hh
  · exact hc

/-- The size encodeHeader computes does not wrap (00_scope.md R12, 40_header_codec.md R158). -/
theorem sizedHeader_imgSize {h : Header} (hw : h.width.toNat ≤ 32767) (hh : h.height.toNat ≤ 32767) :
    (sizedHeader h).imgSize.toNat = max h.imgSize.toNat (strideOf h.width.toNat * h.height.toNat) := by
  have hfit := rows_fit hw hh
  have hsize := h.imgSize.isLt
  exact Nat.mod_eq_of_lt (by omega)

theorem sizedHeader_fileSize (h : Header) :
    (sizedHeader h).fileSize.toNat =
      (54 + max h.imgSize.toNat (strideOf h.width.toNat * h.height.toNat)) % 2 ^ 32 := BitVec.toNat_ofNat ..

theorem step_encHdr {s : State} (hs : s.Inv) (hq : s.QuietIo) (hhost : s.host = []) (hp : s.phase = .encHdr)
    (hst : s.stalled = false) : step s = .next (enter .encPix { s with
      hdr := sizedHeader s.hdr, out := s.out ++ headerBytes (sizedHeader s.hdr) }) := by
  obtain ⟨-, -, -, -, hhdr, -⟩ := hs.clauses hp
  rw [step_nil hhost, coreStep_running hst, hp]
  exact encodeHeader_quiet hhdr.sizes.1 hq

theorem step_encPix {s : State} (hs : s.Inv) (hq : s.QuietIo) (hhost : s.host = []) (hp : s.phase = .encPix)
    (hst : s.stalled = false) :
    step s = .next (enter .done { s with out := s.out ++ pixelBytes s.hdr s.img }) := by
  obtain ⟨-, -, -, hhdr, hsync, -⟩ := hs.clauses hp
  obtain ⟨hwf, -⟩ := hs.image
  rw [step_nil hhost, coreStep_running hst, hp]
  exact encodePixels_quiet hhdr.sizes.1 hwf hsync hq

/-- Settles O40: the step writes the bytes of the sized Header, whose fields are read off by the layout. -/
theorem headerEncodesToTheFileLayout : Obligations.HeaderEncodesToTheFileLayout := by
  intro s hs hq hhost hp hst size
  obtain ⟨-, -, -, -, hhdr, hw, hh⟩ := hs.clauses hp
  obtain ⟨-, hdim, -⟩ := hs.config
  obtain ⟨-, hwle, hhle, -⟩ := hhdr.sizes
  have hsize : max s.hdr.imgSize.toNat (strideOf s.hdr.width.toNat * s.hdr.height.toNat) = size := by rw [hw, hh]
  have himg : (sizedHeader s.hdr).imgSize.toNat = size :=
    (sizedHeader_imgSize (hwle.trans hdim) (hhle.trans hdim)).trans hsize
  have hfile : (sizedHeader s.hdr).fileSize.toNat = (54 + size) % 2 ^ 32 := hsize ▸ sizedHeader_fileSize s.hdr
  exact ⟨sizedHeader s.hdr, headerBytes (sizedHeader s.hdr), step_encHdr hs hq hhost hp hst, himg, hfile, rfl,
    headerBytes_length _, headerBytes_sig _, (headerBytes_fileSize _).trans hfile, headerBytes_reserved _,
    headerBytes_dataOffset _, headerBytes_dibSize _, (headerBytes_width _).trans hw, (headerBytes_height _).trans hh,
    headerBytes_planes _, headerBytes_bpp _, headerBytes_compression _, (headerBytes_imgSize _).trans himg,
    headerBytes_rest _⟩

end Sys2Proof.Machine
end

section
/-! A file a run writes decodes to the Header and the Image it was written from (40_header_codec.md R165,
41_pixel_codec.md R186). -/

namespace Sys2Proof.Machine

/-! ### Pieces laid end to end -/

/-- Pieces of one length laid end to end: position `i·k + j` is position `j` of piece `i`. -/
theorem getElem?_flatMap_pieces {α β : Type} {l : List α} {f : α → List β} {k : Nat}
    (hk : ∀ a ∈ l, (f a).length = k) (i : Nat) {j : Nat} (hj : j < k) :
    (l.flatMap f)[i * k + j]? = l[i]?.bind fun a => (f a)[j]? := by
  induction l generalizing i with
  | nil => simp
  | cons a l ih =>
    have ha : (f a).length = k := hk a (by simp)
    rw [List.flatMap_cons]
    cases i with
    | zero => rw [List.getElem?_append_left (by omega)]; simp
    | succ i =>
      have hi : (i + 1) * k + j - (f a).length = i * k + j := by rw [Nat.succ_mul]; omega
      rw [List.getElem?_append_right (by rw [Nat.succ_mul]; omega), hi,
        ih (fun b hb => hk b (List.mem_cons_of_mem a hb)) i]
      rfl

/-- The rows in file order, the bottom row first (20_memory.md R77). -/
theorem reverse_range (n : Nat) : (List.range n).reverse = (List.range n).map (n - 1 - ·) := by
  rw [List.range_eq_range', List.reverse_range', List.range_eq_range']
  simp

/-! ### decodePixels reads the pixels by their offsets (20_memory.md R77, 41_pixel_codec.md R173) -/

/-- Pixel `x` of a row of the file (41_pixel_codec.md R174). -/
theorem rowPixels_field {inp : List Byte} {w stride : Nat} (h : 3 * w ≤ stride) (r : Nat) :
    rowPixels w (field inp (54 + r * stride) stride) = (List.range w).map fun x => filePixel inp stride r x := by
  refine List.map_congr_left fun x hx => ?_
  have hx : x < w := List.mem_range.1 hx
  have hbyte {j : Nat} (hj : j < stride) :
      (field inp (54 + r * stride) stride).getD j 0 = inp.getD (54 + r * stride + j) 0 := by
    rw [List.getD_eq_getElem?_getD, List.getD_eq_getElem?_getD, getElem?_field hj]
  rw [hbyte (by omega), hbyte (by omega), hbyte (by omega)]
  rfl

/-- File row `r` is memory row `h − 1 − r` (41_pixel_codec.md R174). -/
theorem imageOfRows_fields {inp : List Byte} {w stride : Nat} (h : 3 * w ≤ stride) (n : Nat) :
    imageOfRows w n ((List.range n).map fun r => field inp (54 + r * stride) stride) =
      Image.build w n fun x y => filePixel inp stride (n - 1 - y) x := by
  rw [imageOfRows, Image.build, ← List.map_reverse, reverse_range, List.map_map, List.map_map, List.flatMap_def]
  congr 2
  exact List.map_congr_left fun y _ => rowPixels_field h (n - 1 - y)

/-- With a valid Header and all rows there decodePixels takes the Image of the file (41_pixel_codec.md R173). -/
theorem decodePixels_quiet {s : State} {m : Image} (hs : s.hdr.sizesNonneg) (hb : s.hdr.bpp = 24)
    (hf : s.cfg.ioFault = []) (hh : s.cfg.ioHang = []) (hm : imageOf s.inp s.hdr = .ok m) :
    decodePixels s = .next (enter .crop { s with
      img := m, ipos := 54 + strideOf s.hdr.width.toNat * s.hdr.height.toNat }) := by
  have hstride : strideBits s.hdr.bpp.toNat s.hdr.width.toNat = strideOf s.hdr.width.toNat := by
    rw [hb]; exact strideBits_24 _
  have hle := le_strideOf s.hdr.width.toNat
  simp only [imageOf] at hm
  split at hm
  · cases hm
  · next hlen =>
    cases hm
    have hrows := readRows_quiet hf hh (strideOf s.hdr.width.toNat) s.hdr.height.toNat 54 (not_lt.1 hlen)
    have hseek : inSeek pixelDataOffset s = .ok () { s with ipos := 54 } :=
      inSeek_quiet hf hh (show 54 ≤ s.inp.length by omega)
    simp only [decodePixels, if_pos hs, hstride, if_neg (not_lt.2 hle)]
    rw [readImage, hseek, Io.bind_ok, hrows, Io.bind_ok, imageOfRows_fields hle]
    rfl

theorem step_decPix {s : State} {m : Image} (hhost : s.host = []) (hst : s.stalled = false) (hp : s.phase = .decPix)
    (hhdr : s.HeaderOk) (hf : s.cfg.ioFault = []) (hh : s.cfg.ioHang = []) (hm : imageOf s.inp s.hdr = .ok m) :
    step s = .next (enter .crop { s with
      img := m, ipos := 54 + strideOf s.hdr.width.toNat * s.hdr.height.toNat }) := by
  have ⟨_, _, hbpp, _⟩ := hhdr
  rw [step_nil hhost, coreStep_running hst, hp]
  exact decodePixels_quiet hhdr.sizes.1 hbpp hf hh hm

/-! ### The header of a file a run writes (40_header_codec.md R165) -/

theorem field_fileBytes {h : Header} {m : Image} {off n : Nat} (hle : off + n ≤ 54) :
    field (fileBytes h m) off n = field (headerBytes h) off n :=
  field_append_left (by rwa [headerBytes_length]) (pixelBytes h m)

theorem headerFields_fileBytes {h : Header} (hsig : h.sig = 0x4D42) (hdib : h.dibSize = 40) (hbpp : h.bpp = 24)
    (m : Image) : headerFields (fileBytes h m) = h := by
  obtain ⟨sig, fileSize, dibSize, width, height, bpp, imgSize⟩ := h
  cases hsig; cases hdib; cases hbpp
  simp only [headerFields, field_fileBytes, Nat.reduceAdd, Nat.reduceLeDiff, le16, le32, headerBytes_sig,
    headerBytes_fileSize, headerBytes_dibSize, headerBytes_width, headerBytes_height, headerBytes_bpp,
    headerBytes_imgSize, BitVec.ofNat_toNat, BitVec.setWidth_eq]
  rfl

/-- A header whose 54 bytes are there and that passes every check is accepted (40_header_codec.md R152). -/
theorem headerOf_ok {c : Config} {inp : List Byte} (hlen : 54 ≤ inp.length) (hsig : field inp 0 2 = [0x42, 0x4D])
    (hdib : (headerFields inp).dibSize = 40) (hbpp : (headerFields inp).bpp = 24) (hcomp : le32 (field inp 30 4) = 0)
    (hdim : ¬ badDimensions c (headerFields inp)) : headerOf c inp = .ok (headerFields inp) := by
  have long {k : Nat} (hk : k ≤ 54) : ¬ inp.length < k := by omega
  simp only [headerOf, long, Nat.reduceLeDiff, hsig, hdib, hbpp, hcomp, hdim, if_false, ne_eq, not_true]

/-- decodeHeader accepts the file and takes the Header (40_header_codec.md R165). -/
theorem headerOf_fileBytes {c : Config} {h : Header} (hsig : h.sig = 0x4D42) (hdib : h.dibSize = 40)
    (hbpp : h.bpp = 24) (hdim : ¬ badDimensions c h) (m : Image) : headerOf c (fileBytes h m) = .ok h := by
  have hfields := headerFields_fileBytes hsig hdib hbpp m
  have hlen : 54 ≤ (fileBytes h m).length := by rw [fileBytes, List.length_append, headerBytes_length]; omega
  rw [headerOf_ok hlen (field_fileBytes (by decide)) (by rw [hfields, hdib]) (by rw [hfields, hbpp])
    (by rw [field_fileBytes (by decide), le32, headerBytes_compression]; rfl) (by rwa [hfields]), hfields]

/-! ### The pixels of a file a run writes (41_pixel_codec.md R186) -/

/-- Byte `j` of file row `n − 1 − y` is byte `j` of image row `y` (41_pixel_codec.md R178). -/
theorem rows_getElem? (m : Image) {w stride n y j : Nat} (h : 3 * w ≤ stride) (hy : y < n) (hj : j < stride) :
    ((List.range n).reverse.flatMap (rowBytes m w stride))[(n - 1 - y) * stride + j]? =
      (rowBytes m w stride y)[j]? := by
  have hrow : (List.range n).reverse[n - 1 - y]? = some y := by
    rw [reverse_range, List.getElem?_map, List.getElem?_range (by omega), Option.map_some,
      show n - 1 - (n - 1 - y) = y by omega]
  rw [getElem?_flatMap_pieces (fun y _ => by rw [rowBytes_length]; omega) _ hj, hrow]
  rfl

/-- Byte `c` of pixel `x` of a row: B, G, R (41_pixel_codec.md R178). -/
theorem rowBytes_getElem? (m : Image) {w x c : Nat} (stride y : Nat) (hx : x < w) (hc : c < 3) :
    (rowBytes m w stride y)[3 * x + c]? =
      (let p := m.pix.getD (y * w + x) default; [p.b, p.g, p.r])[c]? := by
  rw [rowBytes, List.getElem?_append_left (by simp [List.length_flatMap]; omega), Nat.mul_comm 3 x,
    getElem?_flatMap_pieces (k := 3) (fun _ _ => rfl) x hc, List.getElem?_range hx]
  rfl

/-- Byte `c` of the pixel at column `x` of image row `y`, in the file (20_memory.md R77). -/
theorem fileBytes_pixel (h : Header) {m : Image} {x y c : Nat} (hx : x < m.w) (hy : y < m.h) (hc : c < 3) :
    (fileBytes h m)[54 + (m.h - 1 - y) * strideOf m.w + 3 * x + c]? =
      [(m.get x y).b, (m.get x y).g, (m.get x y).r][c]? := by
  have hle := le_strideOf m.w
  have hin : (m.h - 1 - y) * strideOf m.w + (3 * x + c) < strideOf m.w * m.h := by
    rw [Nat.mul_comm (strideOf m.w)]
    calc (m.h - 1 - y) * strideOf m.w + (3 * x + c) < (m.h - 1 - y) * strideOf m.w + strideOf m.w := by omega
      _ = (m.h - 1 - y + 1) * strideOf m.w := (Nat.succ_mul ..).symm
      _ ≤ m.h * strideOf m.w := Nat.mul_le_mul_right _ (by omega)
  rw [fileBytes, List.getElem?_append_right (by rw [headerBytes_length]; omega), headerBytes_length,
    show 54 + (m.h - 1 - y) * strideOf m.w + 3 * x + c - 54 = (m.h - 1 - y) * strideOf m.w + (3 * x + c) by omega,
    pixelBytes, List.getElem?_append_left (by rw [rows_length _ _ _ hle]; exact hin),
    rows_getElem? m hle hy (by omega), rowBytes_getElem? m _ _ hx hc]
  rfl

/-- The file's pixels are the Image's. -/
theorem filePixel_fileBytes (h : Header) {m : Image} {x y : Nat} (hx : x < m.w) (hy : y < m.h) :
    filePixel (fileBytes h m) (strideOf m.w) (m.h - 1 - y) x = m.get x y := by
  have hb := fileBytes_pixel h hx hy (c := 0) (by decide)
  have hg := fileBytes_pixel h hx hy (c := 1) (by decide)
  have hr := fileBytes_pixel h hx hy (c := 2) (by decide)
  simp only [filePixel, List.getD_eq_getElem?_getD]
  rw [hg, hr, ← Nat.add_zero (54 + (m.h - 1 - y) * strideOf m.w + 3 * x), hb]
  rfl

/-- decodePixels accepts the file and takes the Image (41_pixel_codec.md R186). -/
theorem imageOf_fileBytes {h : Header} {m : Image} (hm : m.wf) (hw : h.width.toNat = m.w) (hh : h.height.toNat = m.h)
    (hsz : strideOf m.w * m.h ≤ h.imgSize.toNat) : imageOf (fileBytes h m) h = .ok m := by
  have himg : (Image.build m.w m.h fun x y => filePixel (fileBytes h m) (strideOf m.w) (m.h - 1 - y) x) = m :=
    Image.ext_get (Image.build_wf ..) hm rfl rfl fun x y hx hy =>
      (Image.get_build hx hy).trans (filePixel_fileBytes h hx hy)
  have hlen : ¬ (fileBytes h m).length < 54 + strideOf m.w * m.h := by rw [fileBytes_length hsz]; omega
  simp only [imageOf, hw, hh, if_neg hlen, himg]

/-! ### The round trip -/

/-- A run that reads a complete file goes on with its Image and its Header (41_pixel_codec.md R186). -/
theorem decode_fileBytes {s v : State} (hs : s.Inv) (hp : s.phase = .done) (hcfg : v.cfg = s.cfg)
    (hinp : v.inp = s.out) (hf : v.cfg.ioFault = []) (hh : v.cfg.ioHang = []) (hhost : v.host = [])
    (hst : v.stalled = false) (hv : v.phase = .decHdr) (hpos : v.ipos = 0) :
    ∃ v1 v2, step v = .next v1 ∧ step v1 = .next v2 ∧ v2.phase = .crop ∧ v2.img = s.img ∧ v2.hdr = s.hdr := by
  obtain ⟨-, -, -, hhdr, ⟨hw, hht⟩, hsized, hout, -⟩ := hs.clauses hp
  have ⟨hsig, hdib, hbpp, hdim⟩ := hhdr
  obtain ⟨hwf, -⟩ := hs.image
  rw [State.Sized, hw, hht] at hsized
  rw [hout] at hinp
  have hheader : headerOf v.cfg v.inp = .ok s.hdr := by
    rw [hinp]; exact headerOf_fileBytes hsig hdib hbpp (hcfg ▸ hdim) s.img
  have himage : imageOf v.inp s.hdr = .ok s.img := by rw [hinp]; exact imageOf_fileBytes hwf hw hht hsized
  obtain ⟨hdecoded, -⟩ := headerDecodesByTheFileLayout v hhost hst hv hpos hf hh
  exact ⟨{ v with hdr := s.hdr, ipos := 54, phase := .decPix, opIdx := 0 }, _, hdecoded _ hheader,
    step_decPix hhost hst rfl ⟨hsig, hdib, hbpp, hcfg ▸ hdim⟩ hf hh himage, rfl, rfl, rfl⟩

/-- Settles O42: by the invariant the run is DONE with `OUT` the file of its Header and Image, and that file decodes. -/
theorem encodedFileDecodesToTheSameImage : Obligations.EncodedFileDecodesToTheSameImage := by
  intro s t u v hs hq hhost hp hst ht hu hv hvq hvhost hvp hvst hcfg hinp
  have htinv := everyStepKeepsTheInvariant s t hs ht
  have huinv := everyStepKeepsTheInvariant t u htinv hu
  rw [step_encHdr hs hq hhost hp hst] at ht
  cases ht
  rw [step_encPix htinv hq hhost rfl hst] at hu
  cases hu
  obtain ⟨-, -, -, -, -, hpos⟩ := hv.clauses hvp
  obtain ⟨hf, hh, -⟩ := hvq
  exact ⟨rfl, decode_fileBytes huinv rfl hcfg hinp hf hh hvhost hvst hvp (hpos hvst)⟩

end Sys2Proof.Machine
end

section
/-! The rows of the pixel area, one by one: what decodePixels does at the first short row (41_pixel_codec.md R176, R177),
and where encodePixels puts each pixel and each byte of padding (R178 to R181). -/

namespace Sys2Proof.Machine

/-! ### decodePixels (41_pixel_codec.md R173) -/

/-- decodePixels at the first short row: the read raises and no Image is installed (41_pixel_codec.md R176, R177). -/
theorem decodePixels_short {s : State} {r : Nat} (hs : s.hdr.sizesNonneg) (hb : s.hdr.bpp = 24)
    (hf : s.cfg.ioFault = []) (hh : s.cfg.ioHang = []) (hr : r < s.hdr.height.toNat)
    (hle : 54 + r * strideOf s.hdr.width.toNat ≤ s.inp.length)
    (hlt : s.inp.length < 54 + (r + 1) * strideOf s.hdr.width.toNat) :
    decodePixels s = .next (raise .shortRead (infoOfNat (54 + r * strideOf s.hdr.width.toNat))
      { s with ipos := 54 + r * strideOf s.hdr.width.toNat }) := by
  have hstride : strideBits s.hdr.bpp.toNat s.hdr.width.toNat = strideOf s.hdr.width.toNat := by
    rw [hb]; exact strideBits_24 _
  have hseek : inSeek pixelDataOffset s = .ok () { s with ipos := 54 } :=
    inSeek_quiet hf hh (show 54 ≤ s.inp.length by omega)
  simp only [decodePixels, if_pos hs, hstride, if_neg (not_lt.2 (le_strideOf _))]
  rw [readImage, hseek, Io.bind_ok, readRows_short hf hh _ _ 54 r hr hle hlt]
  rfl

/-- A file with all its rows gives the Image of the Header's size (20_memory.md R77). -/
theorem imageOf_ok {inp : List Byte} {h : Header}
    (hlen : 54 + strideOf h.width.toNat * h.height.toNat ≤ inp.length) :
    imageOf inp h = .ok (Image.build h.width.toNat h.height.toNat fun x y =>
      filePixel inp (strideOf h.width.toNat) (h.height.toNat - 1 - y) x) :=
  if_neg (not_lt.2 hlen)

/-- Settles O39: the Image of the file when its rows are there, else the stop at the first short row. -/
theorem pixelRowsDecodeBottomUp : Obligations.PixelRowsDecodeBottomUp := by
  intro s hhost hst hp hhdr hf hh _ w h stride
  refine ⟨fun hlen => ?_, fun r hr hle hlt => ?_⟩
  · exact ⟨_, step_decPix hhost hst hp hhdr hf hh (imageOf_ok hlen), rfl, Image.build_wf .., rfl, rfl,
      fun x y hx hy => Image.get_build hx hy⟩
  · have ⟨_, _, hbpp, _⟩ := hhdr
    rw [step_nil hhost, coreStep_running hst, hp]
    exact decodePixels_short hhdr.sizes.1 hbpp hf hh hr hle hlt

/-! ### encodePixels (41_pixel_codec.md R178) -/

/-- The bytes of `n` rows take the first `stride · n` positions (20_memory.md R77). -/
theorem row_offset_lt {r n j stride : Nat} (hr : r < n) (hj : j < stride) : r * stride + j < stride * n :=
  calc r * stride + j < (r + 1) * stride := by rw [Nat.succ_mul]; omega
    _ ≤ n * stride := Nat.mul_le_mul_right _ hr
    _ = stride * n := Nat.mul_comm ..

/-- Byte `j` of file row `r` is byte `j` of image row `h − 1 − r` (41_pixel_codec.md R178). -/
theorem pixelBytes_row (h : Header) {m : Image} {r j : Nat} (hr : r < m.h) (hj : j < strideOf m.w) :
    (pixelBytes h m)[r * strideOf m.w + j]? = (rowBytes m m.w (strideOf m.w) (m.h - 1 - r))[j]? := by
  have hle := le_strideOf m.w
  rw [pixelBytes, List.getElem?_append_left (by rw [rows_length _ _ _ hle]; exact row_offset_lt hr hj),
    ← rows_getElem? m hle (show m.h - 1 - r < m.h by omega) hj, show m.h - 1 - (m.h - 1 - r) = r by omega]

/-- Byte `c` of pixel `x` of file row `r`: B, G, R of the pixel of image row `h − 1 − r` (41_pixel_codec.md R178). -/
theorem pixelBytes_pixel (h : Header) {m : Image} {r x c : Nat} (hr : r < m.h) (hx : x < m.w) (hc : c < 3) :
    (pixelBytes h m)[r * strideOf m.w + 3 * x + c]? =
      [(m.get x (m.h - 1 - r)).b, (m.get x (m.h - 1 - r)).g, (m.get x (m.h - 1 - r)).r][c]? := by
  have hle := le_strideOf m.w
  rw [Nat.add_assoc, pixelBytes_row h hr (by omega)]
  exact rowBytes_getElem? m _ _ hx hc

/-- After the pixels of a row come zeros up to the stride (41_pixel_codec.md R180). -/
theorem rowBytes_padding (m : Image) {w stride j : Nat} (y : Nat) (hle : 3 * w ≤ j) (hlt : j < stride) :
    (rowBytes m w stride y)[j]? = some 0 := by
  rw [rowBytes, List.getElem?_append_right (by simp [List.length_flatMap]; omega), List.getElem?_replicate,
    if_pos (by simp [List.length_flatMap]; omega)]

/-- After the rows come zeros up to the declared size (41_pixel_codec.md R181). -/
theorem pixelBytes_trailer {h : Header} {m : Image} {k : Nat} (hle : strideOf m.w * m.h ≤ k)
    (hlt : k < h.imgSize.toNat) : (pixelBytes h m)[k]? = some 0 := by
  have hrows := rows_length m m.w (strideOf m.w) (le_strideOf _) m.h
  rw [pixelBytes, List.getElem?_append_right (by rw [hrows]; exact hle), hrows, List.getElem?_replicate,
    if_pos (by omega)]

/-- Settles O41: the step writes the rows and the padding of the Image, whose bytes are read off row by row. -/
theorem pixelRowsEncodeBottomUp : Obligations.PixelRowsEncodeBottomUp := by
  intro s hs hq hhost hp hst w h stride
  obtain ⟨-, -, -, -, ⟨hw, hh⟩, hsized, -⟩ := hs.clauses hp
  rw [State.Sized, hw, hh] at hsized
  exact ⟨pixelBytes s.hdr s.img, step_encPix hs hq hhost hp hst, pixelBytes_length hsized,
    fun r x hr hx => ⟨pixelBytes_pixel s.hdr hr hx (c := 0) (by decide),
      pixelBytes_pixel s.hdr hr hx (c := 1) (by decide), pixelBytes_pixel s.hdr hr hx (c := 2) (by decide)⟩,
    fun r j hr hle hlt => (pixelBytes_row s.hdr hr hlt).trans (rowBytes_padding s.img _ hle hlt),
    fun k hle hlt => pixelBytes_trailer hle hlt⟩

end Sys2Proof.Machine
end

section
/-! The outcome of a command: the Image its effect gives is installed, or the error its effect gives is raised
(42_geometric.md R190, R191; 43_filters.md R220; 60_exceptions.md R290, R291). -/

namespace Sys2Proof.Machine

theorem install_framed {m : Image} (hm : m.wf) (n : Nat) (s : State) : s.Framed (install m n s) n :=
  ⟨rfl, fun _ => rfl, hm⟩

/-- A command that leaves PHASE out of ERROR has installed the Image of its effect (60_exceptions.md R290). -/
theorem exec_installed {i : Instr} {s t : State} (h : exec i s = .next t) (ht : t.phase ≠ .error) :
    s.img.wf ∧ ∃ m, effect s.cfg i s.img = .ok m ∧ t = install m i.words s := by
  obtain ⟨hwf, hok | ⟨c, v, -, rfl⟩⟩ := exec_cases h
  · exact ⟨hwf, hok⟩
  · exact absurd (raise_phase c v s) ht

theorem exec_of_not_wf {s : State} (h : ¬ s.img.wf) (i : Instr) : exec i s = .fault .pixOutOfRange := by
  rw [exec_eq_runCommand, runCommand_of_not_wf h]

/-- Settles O16: the effect of a command gives a whole Image or a RangeError. -/
theorem commandInstallsOrRaises : Obligations.CommandInstallsOrRaises := by
  intro i s t h
  obtain ⟨hwf, ⟨m, hm, rfl⟩ | ⟨c, v, he, rfl⟩⟩ := exec_cases h
  · exact .inl (install_framed (effect_shape hwf hm).1 _ _)
  · have hkind : c.kind = .rangeError := effect_error_kind he
    exact .inr ⟨c, v, hkind, by rw [raise, hkind]; rfl⟩

/-- Settles O17: the effect is a function of the configuration and the Image, and it decides the outcome. -/
theorem commandsReadOnlyTheImage : Obligations.CommandsReadOnlyTheImage := by
  intro i s s' himg hcfg
  have heffect : effect s'.cfg i s'.img = effect s.cfg i s.img := by rw [himg, hcfg]
  by_cases hwf : s.img.wf
  · have hwf' : s'.img.wf := himg ▸ hwf
    cases he : effect s.cfg i s.img with
    | ok m => exact .inl ⟨m, exec_of_effect_ok hwf he, exec_of_effect_ok hwf' (heffect.trans he)⟩
    | error e =>
      exact .inr (.inl ⟨e.1, e.2, exec_of_effect_error hwf he, exec_of_effect_error hwf' (heffect.trans he)⟩)
  · exact .inr (.inr ⟨exec_of_not_wf hwf i, exec_of_not_wf (himg ▸ hwf) i, hwf⟩)

end Sys2Proof.Machine
end

section
/-! Turns and mirrors: where each pixel goes, and the laws of 42_geometric.md R201 and R205. A turn gathers: its pixel at
an output position is the input's pixel at the position the inverse turn sends it to (R212). -/

namespace Sys2Proof.Machine

/-! ### Images built pixel by pixel -/

theorem Image.build_congr {w h : Nat} {f g : Nat → Nat → Pixel} (hfg : ∀ x y, x < w → y < h → f x y = g x y) :
    Image.build w h f = Image.build w h g :=
  Image.ext_get (Image.build_wf ..) (Image.build_wf ..) rfl rfl fun x y hx hy =>
    (Image.get_build hx hy).trans ((hfg x y hx hy).trans (Image.get_build hx hy).symm)

/-- An image built from the pixels of a whole one, each in its place, is that one. -/
theorem Image.build_eq_self {m : Image} (h : m.wf) {f : Nat → Nat → Pixel}
    (hf : ∀ x y, x < m.w → y < m.h → f x y = m.get x y) : Image.build m.w m.h f = m :=
  (Image.build_congr hf).trans (Image.build_get h)

/-- A position counted from the far end, and counted from there again. -/
theorem reflect_reflect {n x : Nat} (h : x < n) : n - 1 - (n - 1 - x) = x := Nat.sub_sub_self (Nat.le_sub_one_of_lt h)

/-! ### Where a turn or a mirror puts a pixel (42_geometric.md R193, R203, R204) -/

theorem quarterTurn_moves (m : Image) {x y : Nat} (hx : x < m.w) (hy : y < m.h) :
    (quarterTurn m).get (m.h - 1 - y) x = m.get x y := by
  rw [quarterTurn, Image.get_build (Nat.sub_one_sub_lt_of_lt hy) hx, reflect_reflect hy]

theorem halfTurn_moves (m : Image) {x y : Nat} (hx : x < m.w) (hy : y < m.h) :
    (halfTurn m).get (m.w - 1 - x) (m.h - 1 - y) = m.get x y := by
  rw [halfTurn, Image.get_build (Nat.sub_one_sub_lt_of_lt hx) (Nat.sub_one_sub_lt_of_lt hy), reflect_reflect hx,
    reflect_reflect hy]

theorem threeQuarterTurn_moves (m : Image) {x y : Nat} (hx : x < m.w) (hy : y < m.h) :
    (threeQuarterTurn m).get y (m.w - 1 - x) = m.get x y := by
  rw [threeQuarterTurn, Image.get_build hy (Nat.sub_one_sub_lt_of_lt hx), reflect_reflect hx]

theorem mirrorColumns_moves (m : Image) {x y : Nat} (hx : x < m.w) (hy : y < m.h) :
    (mirrorColumns m).get (m.w - 1 - x) y = m.get x y := by
  rw [mirrorColumns, Image.get_build (Nat.sub_one_sub_lt_of_lt hx) hy, reflect_reflect hx]

theorem mirrorRows_moves (m : Image) {x y : Nat} (hx : x < m.w) (hy : y < m.h) :
    (mirrorRows m).get x (m.h - 1 - y) = m.get x y := by
  rw [mirrorRows, Image.get_build hx (Nat.sub_one_sub_lt_of_lt hy), reflect_reflect hy]

/-- Settles O28: one mapping for each angle, and two commands for each mapping. -/
theorem rotateCommandsMoveEveryPixel : Obligations.RotateCommandsMoveEveryPixel := by
  intro s hwf
  refine ⟨?_, ?_, ?_⟩
  · rintro i (rfl | rfl) <;>
      exact ⟨_, exec_of_effect_ok hwf rfl, install_framed (Image.build_wf ..) _ _, rfl, rfl,
        fun _ _ => quarterTurn_moves s.img⟩
  · rintro i (rfl | rfl) <;>
      exact ⟨_, exec_of_effect_ok hwf rfl, install_framed (Image.build_wf ..) _ _, rfl, rfl,
        fun _ _ => halfTurn_moves s.img⟩
  · rintro i (rfl | rfl) <;>
      exact ⟨_, exec_of_effect_ok hwf rfl, install_framed (Image.build_wf ..) _ _, rfl, rfl,
        fun _ _ => threeQuarterTurn_moves s.img⟩

/-! ### Turns after turns (42_geometric.md R201) -/

theorem quarterTurn_quarterTurn (m : Image) : quarterTurn (quarterTurn m) = halfTurn m :=
  Image.build_congr fun _ _ hx hy => Image.get_build hy (Nat.sub_one_sub_lt_of_lt hx)

theorem quarterTurn_halfTurn (m : Image) : quarterTurn (halfTurn m) = threeQuarterTurn m :=
  Image.build_congr fun _ _ hx hy =>
    (Image.get_build hy (Nat.sub_one_sub_lt_of_lt hx)).trans (congrArg (m.get _) (reflect_reflect hx))

theorem quarterTurn_threeQuarterTurn {m : Image} (h : m.wf) : quarterTurn (threeQuarterTurn m) = m :=
  Image.build_eq_self h fun _ _ hx hy => threeQuarterTurn_moves m hx hy

theorem threeQuarterTurn_quarterTurn {m : Image} (h : m.wf) : threeQuarterTurn (quarterTurn m) = m :=
  Image.build_eq_self h fun _ _ hx hy => quarterTurn_moves m hx hy

theorem halfTurn_halfTurn {m : Image} (h : m.wf) : halfTurn (halfTurn m) = m :=
  Image.build_eq_self h fun _ _ hx hy => halfTurn_moves m hx hy

/-- Settles O29: the angles of a whole Image as turns, and each turn after another. -/
theorem rotationsFormACyclicGroup : Obligations.RotationsFormACyclicGroup := by
  intro m h
  simp only [rotate_90, rotate_180, rotate_270, Option.bind_some, quarterTurn_quarterTurn, quarterTurn_halfTurn,
    quarterTurn_threeQuarterTurn h, threeQuarterTurn_quarterTurn h, halfTurn_halfTurn h, and_self]

/-! ### Angles (42_geometric.md R192, R200, R202) -/

/-- The normal form is the angle modulo 360, between 0 and 359 (42_geometric.md R192). -/
theorem normalAngle_eq_emod (angle : Int) : normalAngle angle = angle % 360 := by
  have hdiv : 360 * angle.tdiv 360 + angle.tmod 360 = angle := Int.mul_tdiv_add_tmod angle 360
  have hlow : -360 < angle.tmod 360 := Int.lt_tmod_of_pos angle (by decide)
  rw [normalAngle, Int.tmod_eq_emod_of_nonneg (by omega)]
  omega

theorem rotate_eq_none_iff (angle : Int) (m : Image) :
    rotate angle m = none ↔ angle % 360 ≠ 0 ∧ angle % 360 ≠ 90 ∧ angle % 360 ≠ 180 ∧ angle % 360 ≠ 270 := by
  rw [rotate, normalAngle_eq_emod]
  split_ifs <;> simp [*]

theorem rotate_add_360 (angle : Int) (m : Image) : rotate (angle + 360) m = rotate angle m := by
  simp only [rotate, normalAngle_eq_emod, Int.add_emod_right]

theorem rotate_0 {m : Image} (h : m.wf) : rotate 0 m = some m := congrArg some (Image.build_get h)

theorem runRotate_of_none {angle : Int} {s : State} (h : rotate angle s.img = none) (i : Instr) :
    runRotate i angle s = .refused (.angleNotQuarterTurn angle) := by
  rw [runRotate, h]

/-- Settles O30: the normal form alone decides the result, and 360 is one turn past 0. -/
theorem rotateRefusesAnglesWithoutAMapping : Obligations.RotateRefusesAnglesWithoutAMapping := by
  intro angle m
  refine ⟨normalAngle_eq_emod angle, rotate_eq_none_iff angle m, rotate_add_360 angle m, fun h => ?_, ?_⟩
  · exact ⟨rotate_0 h, (rotate_add_360 0 m).trans (rotate_0 h)⟩
  · rintro hnone i s rfl
    exact runRotate_of_none hnone i

/-! ### Mirrors (42_geometric.md R203 to R205) -/

theorem mirrorColumns_mirrorColumns {m : Image} (h : m.wf) : mirrorColumns (mirrorColumns m) = m :=
  Image.build_eq_self h fun _ _ hx hy => mirrorColumns_moves m hx hy

theorem mirrorRows_mirrorRows {m : Image} (h : m.wf) : mirrorRows (mirrorRows m) = m :=
  Image.build_eq_self h fun _ _ hx hy => mirrorRows_moves m hx hy

theorem mirrorRows_mirrorColumns (m : Image) : mirrorRows (mirrorColumns m) = halfTurn m :=
  Image.build_congr fun _ _ hx hy => Image.get_build hx (Nat.sub_one_sub_lt_of_lt hy)

/-- Settles O31: the new Image is built from the pixels counted from the far end. -/
theorem mirrorCommandsReverseColumnsOrRows : Obligations.MirrorCommandsReverseColumnsOrRows := fun _ hwf =>
  ⟨⟨_, exec_of_effect_ok hwf (i := .mirh) rfl, install_framed (Image.build_wf ..) _ _, ⟨rfl, rfl⟩,
      fun _ _ hx hy => Image.get_build hx hy⟩,
    ⟨_, exec_of_effect_ok hwf (i := .mirv) rfl, install_framed (Image.build_wf ..) _ _, ⟨rfl, rfl⟩,
      fun _ _ hx hy => Image.get_build hx hy⟩⟩

/-- Settles O32: the laws of the mirrors, with each command completing on the whole Image before it. -/
theorem mirrorLaws : Obligations.MirrorLaws := fun s hwf =>
  ⟨⟨_, _, exec_of_effect_ok hwf rfl, exec_of_effect_ok (Image.build_wf ..) rfl, mirrorColumns_mirrorColumns hwf⟩,
    ⟨_, _, exec_of_effect_ok hwf rfl, exec_of_effect_ok (Image.build_wf ..) rfl, mirrorRows_mirrorRows hwf⟩,
    ⟨_, _, _, exec_of_effect_ok hwf rfl, exec_of_effect_ok (Image.build_wf ..) rfl, exec_of_effect_ok hwf rfl,
      mirrorRows_mirrorColumns s.img⟩⟩

end Sys2Proof.Machine
end

section
/-! Crops: the checks of 42_geometric.md R206 in their order, the rectangle that is copied (R209), and crops after crops
(R210). -/

namespace Sys2Proof.Machine

/-! ### The checks, in order (42_geometric.md R206) -/

theorem crop_of_offsetX_outside {ox : Int} {m : Image} (h : ox < 0 ∨ (m.w : Int) ≤ ox) (oy : Int)
    (size : Option (Int × Int)) : crop ox oy size m = .error (.cropOffsetX, infoOfOperand ox) := if_pos h

theorem crop_of_offsetY_outside {ox oy : Int} {m : Image} (hx0 : 0 ≤ ox) (hxw : ox < m.w)
    (h : oy < 0 ∨ (m.h : Int) ≤ oy) (size : Option (Int × Int)) :
    crop ox oy size m = .error (.cropOffsetY, infoOfOperand oy) := by
  unfold crop
  rw [if_neg (by omega), if_pos h]

section
variable {ox oy : Int} {m : Image} (hx0 : 0 ≤ ox) (hxw : ox < m.w) (hy0 : 0 ≤ oy) (hyh : oy < m.h)
include hx0 hxw hy0 hyh

/-- Without a size the crop reaches to the edges (42_geometric.md R207). -/
theorem crop_none_inside :
    crop ox oy none m = .ok (m.rect ox.toNat oy.toNat (m.w - ox.toNat) (m.h - oy.toNat)) := by
  rw [crop, if_neg (by omega), if_neg (by omega)]

/-- With offsets inside the image the checks of the size are left. -/
theorem crop_some_inside (cw ch : Int) : crop ox oy (some (cw, ch)) m = cropSized ox oy cw ch m := by
  rw [crop, if_neg (by omega), if_neg (by omega)]

end

section
variable {ox oy cw ch : Int} {m : Image}

theorem cropSized_of_width_nonpos (hw : cw ≤ 0) :
    cropSized ox oy cw ch m = .error (.cropWidthNonpos, infoOfOperand cw) := if_pos hw

theorem cropSized_of_height_nonpos (hw : 0 < cw) (hh : ch ≤ 0) :
    cropSized ox oy cw ch m = .error (.cropHeightNonpos, infoOfOperand ch) := by
  rw [cropSized, if_neg (by omega), if_pos hh]

theorem cropSized_of_width_beyond (hw : 0 < cw) (hh : 0 < ch) (hx : (m.w : Int) < ox + cw) :
    cropSized ox oy cw ch m = .error (.cropXExtent, infoOfOperand cw) := by
  rw [cropSized, if_neg (by omega), if_neg (by omega), if_pos hx]

theorem cropSized_of_height_beyond (hw : 0 < cw) (hh : 0 < ch) (hx : ox + cw ≤ m.w) (hy : (m.h : Int) < oy + ch) :
    cropSized ox oy cw ch m = .error (.cropYExtent, infoOfOperand ch) := by
  rw [cropSized, if_neg (by omega), if_neg (by omega), if_neg (by omega), if_pos hy]

theorem cropSized_inside (hw : 0 < cw) (hh : 0 < ch) (hx : ox + cw ≤ m.w) (hy : oy + ch ≤ m.h) :
    cropSized ox oy cw ch m = .ok (m.rect ox.toNat oy.toNat cw.toNat ch.toNat) := by
  rw [cropSized, if_neg (by omega), if_neg (by omega), if_neg (by omega), if_neg (by omega)]

end

/-- Settles O34: each check that fails, after those before it have passed. -/
theorem cropChecksInOrder : Obligations.CropChecksInOrder := by
  intro s a b c d hwf raised
  refine ⟨fun ha => ?_, fun ha0 haw => ⟨fun hb => ?_, fun hb0 hbh => ?_⟩⟩
  · exact ⟨exec_of_effect_error hwf (i := .crop2 a b) (crop_of_offsetX_outside ha b none),
      exec_of_effect_error hwf (i := .crop4 a b c d) (crop_of_offsetX_outside ha b (some (c, d)))⟩
  · exact ⟨exec_of_effect_error hwf (i := .crop2 a b) (crop_of_offsetY_outside ha0 haw hb none),
      exec_of_effect_error hwf (i := .crop4 a b c d) (crop_of_offsetY_outside ha0 haw hb (some (c, d)))⟩
  · have hsized : effect s.cfg (.crop4 a b c d) s.img = cropSized a b c d s.img :=
      crop_some_inside ha0 haw hb0 hbh c d
    exact ⟨fun hc => exec_of_effect_error hwf (hsized.trans (cropSized_of_width_nonpos hc)),
      fun hc hd => exec_of_effect_error hwf (hsized.trans (cropSized_of_height_nonpos hc hd)),
      fun hc hd hac => exec_of_effect_error hwf (hsized.trans (cropSized_of_width_beyond hc hd hac)),
      fun hc hd hac hbd => exec_of_effect_error hwf (hsized.trans (cropSized_of_height_beyond hc hd hac hbd))⟩

/-! ### The rectangle (42_geometric.md R209) -/

/-- Settles O33: with every check passed the command installs the rectangle. -/
theorem cropCommandsCopyTheRectangle : Obligations.CropCommandsCopyTheRectangle := by
  intro s a b hwf ha0 haw hb0 hbh
  refine ⟨?_, fun c d hc hd hac hbd => ?_⟩
  · have hw : ((s.img.w - a.toNat : Nat) : Int) = s.img.w - a := by omega
    have hh : ((s.img.h - b.toNat : Nat) : Int) = s.img.h - b := by omega
    exact ⟨_, exec_of_effect_ok hwf (crop_none_inside ha0 haw hb0 hbh), install_framed (Image.rect_wf ..) _ _, hw, hh,
      fun _ _ hx hy => Image.get_rect _ _ _ hx hy⟩
  · exact ⟨_, exec_of_effect_ok hwf ((crop_some_inside ha0 haw hb0 hbh c d).trans (cropSized_inside hc hd hac hbd)),
      install_framed (Image.rect_wf ..) _ _, Int.toNat_of_nonneg hc.le, Int.toNat_of_nonneg hd.le,
      fun _ _ hx hy => Image.get_rect _ _ _ hx hy⟩

/-! ### Crops after crops (42_geometric.md R210) -/

/-- The effect of a command of class CROP is a crop. -/
theorem effect_of_cls_crop {i : Instr} (h : i.cls = .crop) :
    ∃ ox oy size, ∀ c m, effect c i m = crop ox oy size m := by
  cases i with
  | crop2 a b => exact ⟨a, b, none, fun _ _ => rfl⟩
  | crop4 a b c d => exact ⟨a, b, some (c, d), fun _ _ => rfl⟩
  | _ => cases h

/-- A crop without a size that succeeds has its offsets inside the image and reaches to the edges. -/
theorem crop_none_ok {ox oy : Int} {m m' : Image} (h : crop ox oy none m = .ok m') :
    0 ≤ ox ∧ ox < m.w ∧ 0 ≤ oy ∧ oy < m.h ∧
      m' = m.rect ox.toNat oy.toNat (m.w - ox.toNat) (m.h - oy.toNat) := by
  obtain ⟨hx0, hxw, hy0, hyh, -⟩ := crop_ok h
  rw [crop_none_inside hx0 hxw hy0 hyh] at h
  cases h
  exact ⟨hx0, hxw, hy0, hyh, rfl⟩

/-- A rectangle of a rectangle is a rectangle, its offsets added. -/
theorem Image.rect_rect (m : Image) {ox oy cw ch px py pw ph : Nat} (hw : px + pw ≤ cw) (hh : py + ph ≤ ch) :
    (m.rect ox oy cw ch).rect px py pw ph = m.rect (ox + px) (oy + py) pw ph :=
  Image.build_congr fun x y hx hy => by
    rw [Image.get_rect _ _ _ (by omega) (by omega), Nat.add_assoc, Nat.add_assoc]

/-- Crops without a size compose by adding offsets. -/
theorem crop_none_crop_none {a b c d : Int} {m m' m'' : Image} (h : crop a b none m = .ok m')
    (h' : crop c d none m' = .ok m'') : crop (a + c) (b + d) none m = .ok m'' := by
  obtain ⟨ha0, haw, hb0, hbh, rfl⟩ := crop_none_ok h
  obtain ⟨hc0, hcw, hd0, hdh, rfl⟩ := crop_none_ok h'
  simp only [Image.rect_w, Image.rect_h] at hcw hdh
  have hx : (a + c).toNat = a.toNat + c.toNat := Int.toNat_add ha0 hc0
  have hy : (b + d).toNat = b.toNat + d.toNat := Int.toNat_add hb0 hd0
  rw [crop_none_inside (by omega) (by omega) (by omega) (by omega), Image.rect_w, Image.rect_h,
    Image.rect_rect m (by omega) (by omega), hx, hy, Nat.sub_add_eq, Nat.sub_add_eq]

/-- Settles O35: a crop that succeeds copies a rectangle that fits, and rectangles compose. -/
theorem cropsComposeByAddingOffsets : Obligations.CropsComposeByAddingOffsets := by
  refine ⟨fun i s t hcls _ hexec ht => ?_, fun s t u a b c d hs hst ht htu hu => ?_⟩
  · obtain ⟨-, m, hm, rfl⟩ := exec_installed hexec ht
    obtain ⟨ox, oy, size, heffect⟩ := effect_of_cls_crop hcls
    obtain ⟨-, -, -, -, cw, ch, rfl, hcw, hch, hxw, hyh⟩ := crop_ok ((heffect ..).symm.trans hm)
    simp only [install_img, Image.rect_w, Image.rect_h]
    omega
  · obtain ⟨hwf, m, hm, rfl⟩ := exec_installed hst ht
    obtain ⟨-, m', hm', rfl⟩ := exec_installed htu hu
    obtain ⟨-, hcw, -, hdh, -⟩ := crop_none_ok hm'
    exact ⟨hcw, hdh, _, exec_of_effect_ok hwf (crop_none_crop_none hm hm'), hs, rfl⟩

end Sys2Proof.Machine
end

section
/-! Geometric commands move pixels whole (42_geometric.md R211): the pixels of an image as a multiset, which turns and
mirrors keep, and as a list, of which a crop keeps a sublist. -/

namespace Sys2Proof.Machine

/-! ### Turns and mirrors permute -/

/-- The pixels of a built image, row by row, their order forgotten. -/
theorem Image.coe_pix_build (w h : Nat) (f : Nat → Nat → Pixel) :
    ((Image.build w h f).pix : Multiset Pixel) = ∑ y ∈ Finset.range h, ∑ x ∈ Finset.range w, {f x y} := by
  change _ = (Multiset.range h).bind fun y => (Multiset.range w).bind fun x => {f x y}
  simp only [Multiset.bind_singleton]
  exact (Multiset.coe_bind ..).symm

theorem Image.coe_pix {m : Image} (h : m.wf) :
    (m.pix : Multiset Pixel) = ∑ y ∈ Finset.range m.h, ∑ x ∈ Finset.range m.w, {m.get x y} := by
  rw [← Image.coe_pix_build, Image.build_get h]

theorem quarterTurn_perm {m : Image} (h : m.wf) : (quarterTurn m).pix.Perm m.pix := by
  rw [← Multiset.coe_eq_coe, Image.coe_pix h, quarterTurn, Image.coe_pix_build, Finset.sum_comm]
  exact Finset.sum_range_reflect (fun y => ∑ x ∈ Finset.range m.w, {m.get x y}) m.h

theorem mirrorColumns_perm {m : Image} (h : m.wf) : (mirrorColumns m).pix.Perm m.pix := by
  rw [← Multiset.coe_eq_coe, Image.coe_pix h, mirrorColumns, Image.coe_pix_build]
  exact Finset.sum_congr rfl fun y _ => Finset.sum_range_reflect (fun x => {m.get x y}) m.w

theorem mirrorRows_perm {m : Image} (h : m.wf) : (mirrorRows m).pix.Perm m.pix := by
  rw [← Multiset.coe_eq_coe, Image.coe_pix h, mirrorRows, Image.coe_pix_build]
  exact Finset.sum_range_reflect (fun y => ∑ x ∈ Finset.range m.w, {m.get x y}) m.h

theorem halfTurn_perm {m : Image} (h : m.wf) : (halfTurn m).pix.Perm m.pix :=
  quarterTurn_quarterTurn m ▸ (quarterTurn_perm (Image.build_wf ..)).trans (quarterTurn_perm h)

theorem threeQuarterTurn_perm {m : Image} (h : m.wf) : (threeQuarterTurn m).pix.Perm m.pix :=
  quarterTurn_halfTurn m ▸ (quarterTurn_perm (Image.build_wf ..)).trans (halfTurn_perm h)

theorem effect_perm {c : Config} {i : Instr} {m m' : Image} (hwf : m.wf) (hcls : i.cls = .rotate ∨ i.cls = .mirror)
    (h : effect c i m = .ok m') : m'.pix.Perm m.pix := by
  cases i with
  | rot90 | rotm270 => cases h; exact quarterTurn_perm hwf
  | rot180 | rotm180 => cases h; exact halfTurn_perm hwf
  | rot270 | rotm90 => cases h; exact threeQuarterTurn_perm hwf
  | mirh => cases h; exact mirrorColumns_perm hwf
  | mirv => cases h; exact mirrorRows_perm hwf
  | _ => rcases hcls with hcls | hcls <;> cases hcls

/-! ### Crops select -/

theorem map_add_range_sublist {o n k : Nat} (h : o + n ≤ k) :
    ((List.range n).map (o + ·)).Sublist (List.range k) := by
  obtain ⟨r, rfl⟩ := Nat.exists_eq_add_of_le h
  rw [List.range_add, List.range_add]
  exact (List.sublist_append_right ..).trans (List.sublist_append_left ..)

/-- The pixels of a rectangle that fits are some of the image's, in order. -/
theorem Image.rect_sublist {m : Image} (hwf : m.wf) {ox oy cw ch : Nat} (hw : ox + cw ≤ m.w) (hh : oy + ch ≤ m.h) :
    (m.rect ox oy cw ch).pix.Sublist m.pix := by
  have hrow : ∀ y, ((List.range cw).map fun x => m.get (ox + x) y).Sublist
      ((List.range m.w).map fun x => m.get x y) := fun y => by
    simpa [Function.comp_def] using (map_add_range_sublist hw).map fun x => m.get x y
  calc (m.rect ox oy cw ch).pix
      = ((List.range ch).map (oy + ·)).flatMap fun y => (List.range cw).map fun x => m.get (ox + x) y := by
        rw [List.flatMap_map]; rfl
    List.Sublist _ ((List.range m.h).flatMap fun y => (List.range cw).map fun x => m.get (ox + x) y) :=
        (map_add_range_sublist hh).flatMap _
    List.Sublist _ ((List.range m.h).flatMap fun y => (List.range m.w).map fun x => m.get x y) :=
        List.Sublist.flatMap_right _ fun y _ => hrow y
    _ = m.pix := congrArg Image.pix (Image.build_get hwf)

/-- Settles O36: a turn or a mirror permutes, a crop keeps a sublist, and an error keeps the Image. -/
theorem geometricCommandsMovePixelsWhole : Obligations.GeometricCommandsMovePixelsWhole := by
  intro i s t hexec
  obtain ⟨hwf, ⟨m, hm, rfl⟩ | ⟨c, v, -, rfl⟩⟩ := exec_cases hexec
  · refine ⟨fun hcls => effect_perm hwf hcls hm, fun hcls => ?_⟩
    obtain ⟨ox, oy, size, heffect⟩ := effect_of_cls_crop hcls
    obtain ⟨-, -, -, -, cw, ch, rfl, -, -, hxw, hyh⟩ := crop_ok ((heffect ..).symm.trans hm)
    exact Image.rect_sublist hwf hxw hyh
  · exact ⟨fun _ => List.Perm.refl _, fun _ => List.Sublist.refl _⟩

end Sys2Proof.Machine
end

section
/-! Filters that give each pixel a new value from that pixel alone (43_filters.md R221 to R227). -/

namespace Sys2Proof.Machine

/-- What a command does whose effect is a pointwise map (43_filters.md R220, R221). -/
theorem exec_of_effect_mapPix {s : State} (hwf : s.img.wf) {i : Instr} {f : Pixel → Pixel}
    (h : effect s.cfg i s.img = .ok (s.img.mapPix f)) :
    ∃ t, exec i s = .next t ∧ s.Framed t i.words ∧ s.SameSize t ∧
      ∀ x y, x < s.img.w → y < s.img.h → t.img.get x y = f (s.img.get x y) :=
  ⟨_, exec_of_effect_ok hwf h, install_framed (Image.mapPix_wf hwf f) _ _, ⟨rfl, rfl⟩,
    fun _ _ hx hy => Image.get_mapPix hwf f hx hy⟩

/-- Settles O20: each keep filter is a pointwise map. -/
theorem keepFiltersPassOneChannel : Obligations.KeepFiltersPassOneChannel := fun _ hwf =>
  ⟨exec_of_effect_mapPix hwf (i := .keepb) rfl, exec_of_effect_mapPix hwf (i := .keepr) rfl,
    exec_of_effect_mapPix hwf (i := .keepg) rfl⟩

/-! ### Grayscale (43_filters.md R225, R226) -/

theorem luma_default {c : Config} (h : c.luma = []) (p : Pixel) : luma c p = exactLuma p := by
  rw [luma, h, List.find?_nil]

/-- The weights sum to 1000, so the exact value is a byte and never wraps (43_filters.md R226). -/
theorem exactLuma_toNat (p : Pixel) :
    (exactLuma p).toNat = (299 * p.r.toNat + 587 * p.g.toNat + 114 * p.b.toNat) / 1000 := by
  have hb := p.b.isLt
  have hg := p.g.isLt
  have hr := p.r.isLt
  exact (BitVec.toNat_ofNat ..).trans (Nat.mod_eq_of_lt (by omega))

theorem exactLuma_gray (v : Byte) : exactLuma { b := v, g := v, r := v } = v := by
  apply BitVec.eq_of_toNat_eq
  rw [exactLuma_toNat]
  change (299 * v.toNat + 587 * v.toNat + 114 * v.toNat) / 1000 = v.toNat
  omega

/-- Settles O21: `GRAY` is a pointwise map, and the default luma is the exact formula. -/
theorem grayscaleSetsTheLuminance : Obligations.GrayscaleSetsTheLuminance := by
  refine ⟨fun s hwf => ?_, fun c p hc => ?_⟩
  · obtain ⟨t, hexec, hframe, hsize, hpix⟩ := exec_of_effect_mapPix hwf (i := .gray) rfl
    refine ⟨t, hexec, hframe, hsize, fun x y hx hy => ?_⟩
    rw [hpix x y hx hy]
    exact ⟨rfl, rfl, rfl⟩
  · simp only [luma_default hc]
    exact ⟨exactLuma_toNat p, exactLuma_gray⟩

/-! ### Negative (43_filters.md R227) -/

/-- 255 is the byte of all ones, so 255 minus a channel is its complement. -/
theorem negPixel_eq_not (p : Pixel) : negPixel p = { b := ~~~p.b, g := ~~~p.g, r := ~~~p.r } := by
  have hnot : ∀ v : Byte, 255 - v = ~~~v := fun _ => BitVec.allOnes_sub_eq_not _
  rw [negPixel, hnot, hnot, hnot]

theorem negPixel_negPixel (p : Pixel) : negPixel (negPixel p) = p := by
  simp only [negPixel_eq_not, BitVec.not_not]

theorem Image.mapPix_negPixel_negPixel (m : Image) : (m.mapPix negPixel).mapPix negPixel = m := by
  simp [Image.mapPix, Function.comp_def, negPixel_negPixel]

/-- Settles O22: `NEG` is a pointwise complement, done again on the whole Image it leaves. -/
theorem negativeComplementsEveryChannel : Obligations.NegativeComplementsEveryChannel := by
  intro s hwf
  have hwf' : (s.img.mapPix negPixel).wf := Image.mapPix_wf hwf negPixel
  refine ⟨_, exec_of_effect_ok hwf rfl, install_framed hwf' _ _, ⟨rfl, rfl⟩, fun x y hx hy => ?_,
    _, exec_of_effect_ok hwf' rfl, Image.mapPix_negPixel_negPixel s.img⟩
  rw [install_img, Image.get_mapPix hwf negPixel hx hy, negPixel_eq_not]
  exact ⟨BitVec.toNat_not, BitVec.toNat_not, BitVec.toNat_not, rfl⟩

end Sys2Proof.Machine
end

section
/-! Means over a rectangle of pixels (43_filters.md R228, R235): their channels are exact, since a mean of bytes is a byte
(45_arithmetic.md R275), and a rectangle of one colour keeps it. -/

namespace Sys2Proof.Machine

/-! ### Sums over a rectangle -/

theorem Image.sum_pix_build (g : Pixel → Nat) (w h : Nat) (f : Nat → Nat → Pixel) :
    ((Image.build w h f).pix.map g).sum = ∑ y ∈ Finset.range h, ∑ x ∈ Finset.range w, g (f x y) := by
  simp only [Image.build, List.flatMap_def, List.map_flatten, List.sum_flatten, List.map_map, Finset.sum,
    Finset.range_val, Multiset.range, Multiset.map_coe, Multiset.sum_coe, Function.comp_def]

theorem Image.sum_pix_rect (f : Pixel → Byte) (m : Image) (x0 x1 y0 y1 : Nat) :
    ((m.rect x0 y0 (x1 - x0) (y1 - y0)).pix.map fun p => (f p).toNat).sum = channelSum f m x0 x1 y0 y1 := by
  simp only [Image.rect, Image.sum_pix_build, channelSum, Finset.sum_Ico_eq_sum_range]

theorem Image.pix_build_const (w h : Nat) (p : Pixel) :
    (Image.build w h fun _ _ => p).pix = List.replicate (w * h) p := by
  refine List.eq_replicate_iff.2 ⟨Image.build_length .., fun q hq => ?_⟩
  obtain ⟨_, _, hrow⟩ := List.mem_flatMap.1 hq
  obtain ⟨_, _, rfl⟩ := List.mem_map.1 hrow
  rfl

theorem sum_bytes_le (f : Pixel → Byte) (ps : List Pixel) : (ps.map fun p => (f p).toNat).sum ≤ ps.length * 255 := by
  have h := List.sum_le_card_nsmul (ps.map fun p => (f p).toNat) 255 fun n hn => by
    obtain ⟨p, -, rfl⟩ := List.mem_map.1 hn
    exact Nat.le_of_lt_succ (f p).isLt
  rwa [List.length_map] at h

/-! ### The mean's channels -/

/-- What makes a function of a sum and a count a mean of bytes: a mean of numbers up to 255 is at most 255, and the mean
of equal numbers is that number. -/
structure IsByteMean (avg : Nat → Nat → Nat) : Prop where
  le_255 : ∀ {sum count}, sum ≤ count * 255 → avg sum count ≤ 255
  const : ∀ {count} (v), 0 < count → avg (count * v) count = v

/-- Division truncates (43_filters.md R230). -/
theorem isByteMean_truncMean : IsByteMean truncMean where
  le_255 h := Nat.div_le_of_le_mul h
  const v hc := Nat.mul_div_cancel_left v hc

/-- On a whole mean the half that `rnd` adds is cut off again (43_filters.md R238). -/
theorem isByteMean_rnd : IsByteMean rnd where
  le_255 {sum count} h := by
    rcases Nat.eq_zero_or_pos count with rfl | hc
    · exact (Nat.div_zero _).trans_le (Nat.zero_le _)
    · exact Nat.le_of_lt_succ (Nat.div_lt_of_lt_mul (by omega))
  const {count} v hc := by
    have h2 : 0 < 2 * count := by omega
    rw [rnd, ← Nat.mul_assoc, Nat.mul_add_div h2, Nat.div_eq_of_lt (by omega), Nat.add_zero]

/-- Each channel of `p` is the mean of that channel over columns `x0 ≤ u < x1` and rows `y0 ≤ v < y1` of `m`. -/
def IsMeanOver (avg : Nat → Nat → Nat) (m : Image) (x0 x1 y0 y1 : Nat) (p : Pixel) : Prop :=
  p.b.toNat = avg (channelSum Pixel.b m x0 x1 y0 y1) ((x1 - x0) * (y1 - y0)) ∧
  p.g.toNat = avg (channelSum Pixel.g m x0 x1 y0 y1) ((x1 - x0) * (y1 - y0)) ∧
  p.r.toNat = avg (channelSum Pixel.r m x0 x1 y0 y1) ((x1 - x0) * (y1 - y0))

section
variable {avg : Nat → Nat → Nat} (havg : IsByteMean avg)
include havg

/-- The mean over a rectangle does not wrap in any channel (45_arithmetic.md R275, R278). -/
theorem averagePixel_isMeanOver (m : Image) (x0 x1 y0 y1 : Nat) :
    IsMeanOver avg m x0 x1 y0 y1
      (averagePixel avg ((x1 - x0) * (y1 - y0)) (m.rect x0 y0 (x1 - x0) (y1 - y0)).pix) := by
  have hchannel : ∀ f : Pixel → Byte,
      (BitVec.ofNat 8 (avg ((m.rect x0 y0 (x1 - x0) (y1 - y0)).pix.map fun p => (f p).toNat).sum
        ((x1 - x0) * (y1 - y0)))).toNat = avg (channelSum f m x0 x1 y0 y1) ((x1 - x0) * (y1 - y0)) := fun f => by
    have hle := sum_bytes_le f (m.rect x0 y0 (x1 - x0) (y1 - y0)).pix
    rw [Image.sum_pix_rect, Image.rect_wf, Image.rect_w, Image.rect_h] at hle
    rw [Image.sum_pix_rect, BitVec.toNat_ofNat, Nat.mod_eq_of_lt (Nat.lt_succ_of_le (havg.le_255 hle))]
  exact ⟨hchannel Pixel.b, hchannel Pixel.g, hchannel Pixel.r⟩

/-- The mean over a rectangle of one colour is that colour. -/
theorem averagePixel_rect_const {m : Image} {x0 y0 cw ch : Nat} {p : Pixel} (hw : 0 < cw) (hh : 0 < ch)
    (h : ∀ u v, u < cw → v < ch → m.get (x0 + u) (y0 + v) = p) :
    averagePixel avg (cw * ch) (m.rect x0 y0 cw ch).pix = p := by
  have hchannel : ∀ f : Pixel → Byte, BitVec.ofNat 8
      (avg ((List.replicate (cw * ch) p).map fun q => (f q).toNat).sum (cw * ch)) = f p := fun f => by
    rw [List.map_replicate, List.sum_replicate, smul_eq_mul, havg.const _ (Nat.mul_pos hw hh), BitVec.ofNat_toNat,
      BitVec.setWidth_eq]
  rw [averagePixel, Image.rect, Image.build_congr h, Image.pix_build_const, hchannel, hchannel, hchannel]

end

end Sys2Proof.Machine
end

section
/-! `PIXELATE` (43_filters.md R228 to R231). -/

namespace Sys2Proof.Machine

/-! ### The three ranges of the operand (43_filters.md R228) -/

theorem exec_pixelate_of_neg {s : State} (hwf : s.img.wf) {a : Int} (ha : a < 0) :
    exec (.pixelate a) s = .next (raise .pixelateNeg (infoOfOperand a) s) :=
  exec_of_effect_error hwf (if_pos ha)

/-- Size 0 installs the Image that is there. -/
theorem exec_pixelate_zero {s : State} (hwf : s.img.wf) :
    exec (.pixelate 0) s = .next { s with opIdx := s.opIdx + 2 } :=
  exec_of_effect_ok hwf rfl

theorem exec_pixelate_of_pos {s : State} (hwf : s.img.wf) {a : Int} (ha : 0 < a) :
    exec (.pixelate a) s = .next (install (pixelateBy a.toNat s.img) 2 s) :=
  exec_of_effect_ok hwf ((if_neg (by omega)).trans (if_neg (by omega)))

/-! ### Tiles (43_filters.md R228 to R230) -/

theorem get_pixelateBy {a x y : Nat} (m : Image) (hx : x < m.w) (hy : y < m.h) :
    (pixelateBy a m).get x y = tileMean a m (x / a * a) (y / a * a) := Image.get_build hx hy

theorem tileMean_isMeanOver (a : Nat) (m : Image) (tx ty : Nat) :
    IsMeanOver truncMean m tx (min (tx + a) m.w) ty (min (ty + a) m.h) (tileMean a m tx ty) :=
  averagePixel_isMeanOver isByteMean_truncMean ..

/-- A tile of one colour keeps it. -/
theorem tileMean_const {a tx ty : Nat} {m : Image} {p : Pixel} (ha : 0 < a) (htx : tx < m.w) (hty : ty < m.h)
    (h : ∀ u v, u < a → v < a → tx + u < m.w → ty + v < m.h → m.get (tx + u) (ty + v) = p) :
    tileMean a m tx ty = p :=
  averagePixel_rect_const isByteMean_truncMean (by omega) (by omega) fun u v hu hv =>
    h u v (by omega) (by omega) (by omega) (by omega)

/-- Settles O23: tile `(i, j)` is the tile its pixels are built from. -/
theorem pixelateFlattensEveryTile : Obligations.PixelateFlattensEveryTile := by
  intro s a hwf
  refine ⟨fun ha => ?_, ?_⟩
  · refine ⟨_, exec_pixelate_of_pos hwf ha, install_framed (Image.build_wf ..) _ _, ⟨rfl, rfl⟩, ?_⟩
    intro i j x y hxlo hxhi hylo hyhi
    obtain ⟨hxtile, hxw⟩ := lt_min_iff.1 hxhi
    obtain ⟨hytile, hyh⟩ := lt_min_iff.1 hyhi
    rw [install_img, get_pixelateBy s.img hxw hyh, Nat.div_eq_of_lt_le hxlo hxtile, Nat.div_eq_of_lt_le hylo hytile,
      Nat.add_one_mul, Nat.add_one_mul]
    exact tileMean_isMeanOver ..
  · rintro rfl
    exact exec_pixelate_zero hwf

/-! ### Corner sizes (43_filters.md R231) -/

theorem pixelateBy_one {m : Image} (h : m.wf) : pixelateBy 1 m = m :=
  Image.build_eq_self h fun x y hx hy => by
    rw [Nat.div_one, Nat.mul_one, Nat.div_one, Nat.mul_one]
    refine tileMean_const Nat.one_pos hx hy fun u v hu hv _ _ => ?_
    rw [Nat.lt_one_iff.1 hu, Nat.lt_one_iff.1 hv, Nat.add_zero, Nat.add_zero]

/-- With a size of at least the width and the height every pixel lies in the one tile at the origin. -/
theorem get_pixelateBy_of_size_le {a x y : Nat} {m : Image} (hw : m.w ≤ a) (hh : m.h ≤ a) (hx : x < m.w)
    (hy : y < m.h) :
    (pixelateBy a m).get x y = tileMean a m 0 0 := by
  rw [get_pixelateBy m hx hy, Nat.div_eq_of_lt (hx.trans_le hw), Nat.div_eq_of_lt (hy.trans_le hh), Nat.zero_mul]

/-- A position in a tile has the tile's corner. -/
theorem tile_corner {a k u : Nat} (hu : u < a) : (k * a + u) / a * a = k * a := by
  rw [Nat.div_eq_of_lt_le (Nat.le_add_right ..) (by rw [Nat.add_one_mul]; omega)]

/-- Every tile of a pixelated image has one colour, so its mean is that colour. -/
theorem pixelateBy_pixelateBy {a : Nat} (ha : 0 < a) (m : Image) : pixelateBy a (pixelateBy a m) = pixelateBy a m :=
  Image.build_eq_self (Image.build_wf ..) fun x y hx hy => by
    refine Eq.trans ?_ (get_pixelateBy m hx hy).symm
    refine tileMean_const ha ((Nat.div_mul_le_self x a).trans_lt hx) ((Nat.div_mul_le_self y a).trans_lt hy)
      fun u v hu hv hxu hyv => ?_
    rw [get_pixelateBy m hxu hyv, tile_corner hu, tile_corner hv]

/-- Settles O24: tiles of one pixel, one tile, and tiles of one colour. -/
theorem pixelateCornerSizes : Obligations.PixelateCornerSizes := by
  refine ⟨fun s hwf => ?_, fun s t a hwf hw hh ha hexec x y x' y' hx hy hx' hy' => ?_, fun s t a hwf ha hexec => ?_⟩
  · rw [exec_pixelate_of_pos hwf Int.one_pos, Int.toNat_one, pixelateBy_one hwf]
    rfl
  · cases (exec_pixelate_of_pos hwf ha).symm.trans hexec
    have hw' : s.img.w ≤ a.toNat := by omega
    have hh' : s.img.h ≤ a.toNat := by omega
    rw [install_img, get_pixelateBy_of_size_le hw' hh' hx hy, get_pixelateBy_of_size_le hw' hh' hx' hy']
  · rcases ha.eq_or_lt with rfl | ha
    · cases (exec_pixelate_zero hwf).symm.trans hexec
      exact exec_pixelate_zero hwf
    · cases (exec_pixelate_of_pos hwf ha).symm.trans hexec
      rw [exec_pixelate_of_pos (Image.build_wf ..) ha, install_img, pixelateBy_pixelateBy (by omega)]
      rfl

end Sys2Proof.Machine
end

section
/-! `BLUR` (43_filters.md R235 to R239), and the negative sizes of both `PIXELATE` and `BLUR`. -/

namespace Sys2Proof.Machine

/-! ### The two ranges of the operand (43_filters.md R235) -/

theorem exec_blur_of_neg {s : State} (hwf : s.img.wf) {a : Int} (ha : a < 0) :
    exec (.blur a) s = .next (raise .blurNeg (infoOfOperand a) s) :=
  exec_of_effect_error hwf (if_pos ha)

theorem exec_blur_of_nonneg {s : State} (hwf : s.img.wf) {a : Int} (ha : 0 ≤ a) :
    exec (.blur a) s = .next (install (blurBy (halfKernel a.toNat) s.img) 2 s) :=
  exec_of_effect_ok hwf (if_neg (not_lt.2 ha))

/-! ### The window (43_filters.md R237) -/

/-- The positions near one inside the range, as an interval clipped at both ends. -/
theorem nearby_eq_Ico {x n : Nat} (hx : x < n) (half : Nat) :
    nearby half x n = Finset.Ico (x - half) (min (n - 1) (x + half) + 1) := by
  ext u
  rw [nearby, Finset.mem_filter, Finset.mem_range, Finset.mem_Ico]
  omega

/-- A window around a position inside the image is a rectangle whose sides are not empty. -/
theorem windowMean_isMeanOver {x y : Nat} {m : Image} (hx : x < m.w) (hy : y < m.h) (half : Nat) :
    IsMeanOver rnd m (x - half) (min (m.w - 1) (x + half) + 1) (y - half) (min (m.h - 1) (y + half) + 1)
      (windowMean half m x y) := by
  have hcols : x - half ≤ min (m.w - 1) (x + half) := by omega
  have hrows : y - half ≤ min (m.h - 1) (y + half) := by omega
  simp only [windowMean]
  rw [← Nat.sub_add_comm hcols, ← Nat.sub_add_comm hrows]
  exact averagePixel_isMeanOver isByteMean_rnd ..

/-- Settles O25: the clipped rectangle is the window, as a set of positions. -/
theorem blurAveragesTheClippedWindow : Obligations.BlurAveragesTheClippedWindow := by
  intro s a hwf ha
  refine ⟨_, exec_blur_of_nonneg hwf ha, install_framed (Image.build_wf ..) _ _, ⟨rfl, rfl⟩, ?_⟩
  intro x y hx hy
  simp only [windowCount, windowSum, nearby_eq_Ico hx, nearby_eq_Ico hy, Nat.card_Ico]
  rw [install_img, blurBy, Image.get_build hx hy]
  exact windowMean_isMeanOver hx hy _

/-! ### Kernel sizes (43_filters.md R239) -/

/-- With half-width 0 the window of a position is that position. -/
theorem blurBy_zero {m : Image} (h : m.wf) : blurBy 0 m = m :=
  Image.build_eq_self h fun x y hx hy => by
    have hcol : min (m.w - 1) (x + 0) - (x - 0) + 1 = 1 := by omega
    have hrow : min (m.h - 1) (y + 0) - (y - 0) + 1 = 1 := by omega
    simp only [windowMean, hcol, hrow]
    refine averagePixel_rect_const isByteMean_rnd Nat.one_pos Nat.one_pos fun u v hu hv => ?_
    rw [Nat.lt_one_iff.1 hu, Nat.lt_one_iff.1 hv]
    rfl

theorem exec_blur_of_halfKernel_zero {s : State} (hwf : s.img.wf) {a : Int} (ha : 0 ≤ a)
    (hhalf : halfKernel a.toNat = 0) : exec (.blur a) s = .next { s with opIdx := s.opIdx + 2 } := by
  rw [exec_blur_of_nonneg hwf ha, hhalf, blurBy_zero hwf]
  rfl

theorem oddKernel_of_even {n : Nat} (h : n % 2 = 0) : oddKernel n = oddKernel (n + 1) := by
  rw [oddKernel, if_pos h, oddKernel, if_neg (by omega)]

/-- Settles O26: both small sizes have half-width 0, and an even size and the next odd one the same half-width. -/
theorem blurKernelSizes : Obligations.BlurKernelSizes := by
  refine ⟨?_, fun s a hwf ha heven => ?_, fun a hfits ha => ?_⟩
  · rintro s a hwf (rfl | rfl)
    · exact exec_blur_of_halfKernel_zero hwf le_rfl rfl
    · exact exec_blur_of_halfKernel_zero hwf Int.one_nonneg rfl
  · have hhalf : halfKernel a.toNat = halfKernel (a + 1).toNat := by
      rw [Int.toNat_add ha Int.one_nonneg, halfKernel, halfKernel, oddKernel_of_even (by omega)]
      rfl
    rw [exec_blur_of_nonneg hwf ha, exec_blur_of_nonneg hwf (by omega), hhalf]
  · have hmax : a ≤ 2147483647 := by
      rw [fitsI32, Bool.and_eq_true, decide_eq_true_iff, decide_eq_true_iff] at hfits
      exact hfits.2
    rw [oddKernel]
    split <;> omega

/-! ### Negative sizes (43_filters.md R228, R235) -/

/-- Settles O27: the check of the sign comes first, and raising writes the error registers and PHASE. -/
theorem negativeSizesRaiseRangeErrors : Obligations.NegativeSizesRaiseRangeErrors := fun _ _ hwf ha =>
  ⟨exec_pixelate_of_neg hwf ha, exec_blur_of_neg hwf ha⟩

end Sys2Proof.Machine
end

section
/-! Every run ends (44_pipeline.md R259): with calls that return, each step of a busy machine leaves fewer steps to
take. -/

namespace Sys2Proof.Machine

theorem CoreFrame.host {s t : State} (h : CoreFrame s t) : t.host = s.host := by rw [h.1]

/-- With no host move pending and calls that return, a run under the invariant takes at most this many steps more: a
step for each phase that is one, and for each walk one for every word left and one to leave the phase (44_pipeline.md
R257, R266; log 10). -/
def State.stepsLeft (s : State) : Nat :=
  match s.phase with
  | .idle => 0
  | .validate => 4 * s.cmdLen.toNat + 10
  | .decHdr => 4 * s.cmdLen.toNat + 9
  | .decPix => 4 * s.cmdLen.toNat + 8
  | .crop => 3 * s.cmdLen.toNat + 7 + (s.cmdLen.toNat - s.opIdx)
  | .mirror => 2 * s.cmdLen.toNat + 6 + (s.cmdLen.toNat - s.opIdx)
  | .rotate => s.cmdLen.toNat + 5 + (s.cmdLen.toNat - s.opIdx)
  | .resync => s.cmdLen.toNat + 4
  | .filter => 3 + (s.cmdLen.toNat - s.opIdx)
  | .encHdr => 2
  | .encPix => 1
  | .done => 0
  | .error => 0

theorem stepsLeft_le (s : State) : s.stepsLeft ≤ 4 * s.cmdLen.toNat + 10 := by
  unfold State.stepsLeft
  split <;> omega

theorem stepsLeft_pos {s : State} (h : s.busy = true) : 0 < s.stepsLeft := by
  cases hp : s.phase <;> simp_all [State.busy, State.stepsLeft]

/-- A machine that is neither busy nor in IDLE has ended its run (10_state.md R35). -/
theorem ended_of_not_busy {s : State} (hb : s.busy = false) (hi : s.phase ≠ .idle) : s.ended := by
  cases hp : s.phase <;> simp_all [State.busy, State.ended]

/-- A command that advances `OPIDX` in its phase leaves fewer words to walk. -/
theorem stepsLeft_walk {s t : State} {k : CmdClass} (hp : s.phase = phaseOf k) (ht : t.phase = s.phase)
    (hlen : t.cmdLen = s.cmdLen) (hi : s.opIdx < s.cmdLen.toNat) (hlt : s.opIdx < t.opIdx) :
    t.stepsLeft < s.stepsLeft := by
  unfold State.stepsLeft
  rw [ht, hp, hlen]
  cases k <;> simp only [phaseOf] <;> omega

/-- The end of the list leaves the walk of one phase behind. -/
theorem stepsLeft_endOfList {s : State} {k : CmdClass} (hp : s.phase = phaseOf k) :
    (enter (phaseAfter k) s).stepsLeft < s.stepsLeft := by
  unfold State.stepsLeft
  rw [hp]
  cases k <;> simp only [phaseOf, phaseAfter, enter_phase, enter_cmdLen, enter_opIdx] <;> omega

/-- The run goes on, with fewer steps to take, or has ended. -/
def Advances (s t : State) : Prop := t.stalled = false ∧ t.phase ≠ .idle ∧ t.stepsLeft < s.stepsLeft

/-- An error ends the run. -/
theorem advances_raise {s u : State} (hb : s.busy = true) (hr : u.stalled = false) (c : Cause) (v : Word) :
    Advances s (raise c v u) := ⟨hr, nofun, stepsLeft_pos hb⟩

section
variable {s t : State} (hb : s.busy = true) (hr : s.stalled = false)
include hb hr

/-- With calls that return, a codec that reads ends early in an error alone. -/
theorem ReadStops.advances {P : Header → Prop} (h : ReadStops s P t) (hh : s.cfg.ioHang = []) : Advances s t := by
  obtain ⟨hdr, pos, -, -, ⟨hne, -⟩ | ⟨c, v, -, rfl⟩⟩ := h
  · exact absurd hh hne
  · exact advances_raise hb hr c v

theorem walkStep_advances {k : CmdClass} (hp : s.phase = phaseOf k)
    (h : walkStep k (phaseAfter k) s = .next t) : Advances s t := by
  have hidle : s.phase ≠ .idle := by rw [hp]; cases k <;> nofun
  obtain ⟨-, rfl⟩ | ⟨i, rest, hi, -, ⟨-, h⟩ | ⟨-, rfl⟩⟩ := walkStep_cases h
  · exact ⟨hr, by cases k <;> nofun, stepsLeft_endOfList hp⟩
  · obtain ⟨-, ⟨m, -, rfl⟩ | ⟨c, v, -, rfl⟩⟩ := exec_cases h
    · exact ⟨hr, hidle, stepsLeft_walk hp rfl rfl hi (Nat.lt_add_of_pos_right i.words_pos)⟩
    · exact advances_raise hb hr c v
  · exact ⟨hr, hidle, stepsLeft_walk hp rfl rfl hi (Nat.lt_add_of_pos_right i.words_pos)⟩

theorem validateList_advances (hp : s.phase = .validate) : Advances s (validateList s) := by
  rcases validateList_cases s with ⟨-, h⟩ | ⟨-, c, i, -, -, h⟩ | ⟨-, -, h⟩ <;> rw [h]
  · exact advances_raise hb hr ..
  · exact advances_raise (u := { s with opIdx := i }) hb hr ..
  · exact ⟨hr, nofun, by simp [State.stepsLeft, hp]⟩

theorem decodeHeader_advances (hh : s.cfg.ioHang = []) (hs : s.Inv) (hp : s.phase = .decHdr) :
    Advances s (decodeHeader s) := by
  rcases decodeHeader_cases hs.position with ⟨u, ⟨hu, -⟩, h⟩ | h
  · rw [h, hu]
    exact ⟨hr, nofun, by simp [State.stepsLeft, hp]⟩
  · exact h.advances hb hr hh

theorem decodePixels_advances (hh : s.cfg.ioHang = []) (hs : s.Inv) (hp : s.phase = .decPix)
    (h : decodePixels s = .next t) : Advances s t := by
  obtain ⟨-, -, -, -, -, hhdr⟩ := hs.clauses hp
  have ⟨_, _, hbpp, _⟩ := hhdr
  obtain ⟨t', ht', hcases⟩ := decodePixels_cases hs.position hhdr.sizes.1 hbpp
  obtain rfl := Host.Outcome.next.inj (ht'.symm.trans h)
  rcases hcases with ⟨m, pos, -, -, -, -, rfl⟩ | hstop
  · exact ⟨hr, nofun, by simp [State.stepsLeft, hp]; omega⟩
  · exact hstop.advances hb hr hh

theorem encodeHeader_advances (hh : s.cfg.ioHang = []) (hs : s.Inv) (hp : s.phase = .encHdr)
    (h : encodeHeader s = .next t) : Advances s t := by
  obtain ⟨-, -, -, -, hhdr, -⟩ := hs.clauses hp
  obtain ⟨t', ht', hcases⟩ := encodeHeader_cases hhdr.sizes.1
  obtain rfl := Host.Outcome.next.inj (ht'.symm.trans h)
  rcases hcases with ⟨u, ⟨rfl, -⟩, rfl⟩ | ⟨hne, -⟩ | ⟨bs, u, c, v, -, -, ⟨rfl, -⟩, -, rfl⟩
  · exact ⟨hr, nofun, by simp [State.stepsLeft, hp]⟩
  · exact absurd hh hne
  · exact advances_raise hb hr c v

theorem encodePixels_advances (hh : s.cfg.ioHang = []) (hs : s.Inv) (hp : s.phase = .encPix)
    (h : encodePixels s = .next t) : Advances s t := by
  obtain ⟨-, -, -, hhdr, ⟨hw, hht⟩, -⟩ := hs.clauses hp
  obtain ⟨hwf, -⟩ := hs.image
  obtain ⟨t', ht', hcases⟩ := encodePixels_cases hhdr.sizes.1 hwf hw hht
  obtain rfl := Host.Outcome.next.inj (ht'.symm.trans h)
  rcases hcases with ⟨u, ⟨rfl, -⟩, rfl⟩ | ⟨bs, u, -, ⟨rfl, -⟩, ⟨hne, -⟩ | ⟨c, v, -, -, rfl⟩⟩
  · exact ⟨hr, nofun, by simp [State.stepsLeft, hp]⟩
  · exact absurd hh hne
  · exact advances_raise hb hr c v

/-- Every step of a busy machine brings its end nearer. -/
theorem coreStep_advances (hh : s.cfg.ioHang = []) (hs : s.Inv) (h : coreStep s = .next t) : Advances s t := by
  rw [coreStep_running hr] at h
  cases hp : s.phase <;> rw [hp] at h
  case idle | done | error => simp [State.busy, hp] at hb
  case validate => cases h; exact validateList_advances hb hr hp
  case decHdr => cases h; exact decodeHeader_advances hb hr hh hs hp
  case decPix => exact decodePixels_advances hb hr hh hs hp h
  case crop => exact walkStep_advances (k := .crop) hb hr hp h
  case mirror => exact walkStep_advances (k := .mirror) hb hr hp h
  case rotate => exact walkStep_advances (k := .rotate) hb hr hp h
  case filter => exact walkStep_advances (k := .filter) hb hr hp h
  case resync => cases h; exact ⟨hr, nofun, by simp [State.stepsLeft, hp, resync]; omega⟩
  case encHdr => exact encodeHeader_advances hb hr hh hs hp h
  case encPix => exact encodePixels_advances hb hr hh hs hp h

end

/-- From a state under the invariant the run ends within the steps left. -/
theorem run_ends {s : State} (hs : s.Inv) (hhost : s.host = []) (hh : s.cfg.ioHang = []) (hr : s.stalled = false)
    (hi : s.phase ≠ .idle) :
    ∃ (n : Nat) (t : State), n ≤ s.stepsLeft ∧ Host.Core.run Sys2Proof.core n s = .next t ∧ t.ended := by
  induction hn : s.stepsLeft using Nat.strong_induction_on generalizing s with
  | _ n ih =>
    cases hb : s.busy with
    | false => exact ⟨0, s, Nat.zero_le _, rfl, ended_of_not_busy hb hi⟩
    | true =>
      obtain ⟨u, hu⟩ := coreStep_next hs
      have hframe := coreStep_frame hu
      have hstep : step s = .next u := (step_nil hhost).trans hu
      obtain ⟨hur, hui, hlt⟩ := coreStep_advances hb hr hh hs hu
      obtain ⟨m, t, hm, hrun, ht⟩ := ih u.stepsLeft (hn ▸ hlt) (everyStepKeepsTheInvariant s u hs hstep)
        (hframe.host.trans hhost) (by rw [hframe.cfg, hh]) hur hui rfl
      exact ⟨m + 1, t, by omega, (run_succ hstep m).trans hrun, ht⟩

/-- Settles O55: the steps left of a busy machine are at most four walks and ten more. -/
theorem everyRunEnds : Obligations.EveryRunEnds := by
  intro s hs hhost hh hr hb
  have hidle : s.phase ≠ .idle := fun hp => by simp [State.busy, hp] at hb
  obtain ⟨n, t, hn, hrun, ht⟩ := run_ends hs hhost hh hr hidle
  exact ⟨n, t, hn.trans (stepsLeft_le s), hrun, ht⟩

end Sys2Proof.Machine
end

section
/-! The program in the command memory: what VALIDATE and the walks find in the encodings of a list of commands
(30_encoding.md R112, 44_pipeline.md R253, R257). -/

namespace Sys2Proof.Machine

theorem flatMap_encode_ne_nil {is : List Instr} (h : is ≠ []) : is.flatMap encode ≠ [] := by
  cases is with
  | nil => exact absurd rfl h
  | cons i is => simp [encode]

section
variable {s : State} {before : List Word}

/-- The fetch where a part of the program ends reads the words after it. -/
theorem fetch_after {after : List Word} (h : s.programWords = before ++ after) :
    fetch s before.length = decode (after.take maxWords) := by
  rw [fetch_eq, h, List.drop_left]

/-- A well-formed command's encoding is fetched as that command (30_encoding.md R112). -/
theorem fetch_command {i : Instr} {after : List Word} (hwf : i.wellFormed = true)
    (h : s.programWords = before ++ (encode i ++ after)) : ∃ rest, fetch s before.length = .command i rest := by
  rw [fetch_after h, List.take_append, List.take_of_length_le (by rw [encode_length]; exact i.words_le)]
  exact ⟨_, decodeOfEncodeGivesTheCommandBack i _ hwf⟩

/-- A word that is no command is illegal (30_encoding.md R108). -/
theorem fetch_unlisted {w : Word} {after : List Word} (hw : w ∉ commandWords)
    (h : s.programWords = before ++ w :: after) : fetch s before.length = .illegal := by
  rw [fetch_after h, maxWords, List.take_succ_cons, decode_unlisted hw]

/-- A command cut short is truncated (30_encoding.md R109). -/
theorem fetch_truncated {i : Instr} {n : Nat} (hpos : 0 < n) (hlt : n < i.words)
    (h : s.programWords = before ++ (encode i).take n) : fetch s before.length = .truncated := by
  obtain ⟨n, rfl⟩ : ∃ k, n = k + 1 := ⟨n - 1, by omega⟩
  rw [Instr.words] at hlt
  rw [fetch_after h, encode, List.take_succ_cons, maxWords, List.take_succ_cons, decode_commandWord_truncated,
    List.length_take, List.length_take, List.length_map]
  omega

end

/-! ### VALIDATE (44_pipeline.md R253) -/

/-- Fuel for the whole program leaves fuel for one command more. -/
theorem scan_eq_succ (s : State) (i : Nat) : scan s s.cmdLen.toNat i = scan s (s.cmdLen.toNat + 1) i :=
  scan_fuel (by omega) (by omega)

/-- The walk passes the encodings of well-formed commands (30_encoding.md R112). -/
theorem scan_encoded {s : State} {is : List Instr} {before after : List Word} (hwf : ∀ i ∈ is, i.wellFormed = true)
    (h : s.programWords = before ++ (is.flatMap encode ++ after)) :
    scan s s.cmdLen.toNat before.length = scan s s.cmdLen.toNat (before.length + (is.flatMap encode).length) := by
  induction is generalizing before with
  | nil => rfl
  | cons i is ih =>
    rw [List.flatMap_cons, List.append_assoc] at h
    have hlen := congrArg List.length h
    have hpos := i.words_pos
    simp only [programWords_length, List.length_append, encode_length] at hlen
    obtain ⟨rest, hf⟩ := fetch_command (hwf i List.mem_cons_self) h
    have hnext := ih (before := before ++ encode i) (fun j hj => hwf j (List.mem_cons_of_mem i hj))
      (by rw [h, List.append_assoc])
    rw [List.length_append, encode_length] at hnext
    rw [scan_eq_succ s before.length, scan_succ (by omega), hf, List.flatMap_cons, List.length_append, encode_length,
      ← Nat.add_assoc]
    exact hnext

/-- From the start of the program the walk comes to what stands after the encodings. -/
theorem scan_program {s : State} {is : List Instr} {after : List Word} (hwf : ∀ i ∈ is, i.wellFormed = true)
    (h : s.programWords = is.flatMap encode ++ after) :
    scan s s.cmdLen.toNat 0 = scan s s.cmdLen.toNat (is.flatMap encode).length := by
  have hscan := scan_encoded (before := []) hwf h
  rwa [List.length_nil, Nat.zero_add] at hscan

theorem validateList_of_scan_none {s : State} (hlen : s.cmdLen ≠ 0) (h : scan s s.cmdLen.toNat 0 = none) :
    validateList s = enter .decHdr s := by
  rw [validateList, if_neg hlen, h]

theorem validateList_of_scan_some {s : State} {c : Cause} {i : Nat} (hlen : s.cmdLen ≠ 0)
    (h : scan s s.cmdLen.toNat 0 = some (c, i)) :
    validateList s = raise c (infoOfNat i) { s with opIdx := i } := by
  rw [validateList, if_neg hlen, h]

/-- A program with a word in it is not empty. -/
theorem cmdLen_ne_zero {s : State} (h : s.programWords ≠ []) : s.cmdLen ≠ 0 := by
  intro h0
  exact h (List.eq_nil_of_length_eq_zero (by rw [programWords_length, h0]; rfl))

/-- A list of whole commands passes (44_pipeline.md R253). -/
theorem validateList_legal {s : State} {is : List Instr} (hne : is ≠ []) (hwf : ∀ i ∈ is, i.wellFormed = true)
    (h : s.programWords = is.flatMap encode) : validateList s = enter .decHdr s := by
  have hlen := congrArg List.length h
  rw [programWords_length] at hlen
  refine validateList_of_scan_none (cmdLen_ne_zero (h ▸ flatMap_encode_ne_nil hne)) ?_
  rw [scan_program (after := []) hwf (by rw [h, List.append_nil]), scan_end hlen.le]

/-- The first word that is no command is reported. -/
theorem validateList_unlisted {s : State} {is : List Instr} {w : Word} {rest : List Word}
    (hwf : ∀ i ∈ is, i.wellFormed = true) (hw : w ∉ commandWords)
    (h : s.programWords = is.flatMap encode ++ w :: rest) :
    validateList s = raise .unknownToken (infoOfNat (is.flatMap encode).length)
      { s with opIdx := (is.flatMap encode).length } := by
  have hlen := congrArg List.length h
  rw [programWords_length, List.length_append, List.length_cons] at hlen
  refine validateList_of_scan_some (cmdLen_ne_zero (by simp [h])) ?_
  rw [scan_program hwf h, scan_eq_succ, scan_succ (by omega), fetch_unlisted hw h]

/-- The first command cut short is reported. -/
theorem validateList_truncated {s : State} {is : List Instr} {i : Instr} {n : Nat}
    (hwf : ∀ i ∈ is, i.wellFormed = true) (hpos : 0 < n) (hlt : n < i.words)
    (h : s.programWords = is.flatMap encode ++ (encode i).take n) :
    validateList s = raise .truncatedCommand (infoOfNat (is.flatMap encode).length)
      { s with opIdx := (is.flatMap encode).length } := by
  have hlen := congrArg List.length h
  rw [programWords_length, List.length_append, List.length_take, encode_length] at hlen
  have hne : s.programWords ≠ [] := List.ne_nil_of_length_pos (by rw [programWords_length]; omega)
  refine validateList_of_scan_some (cmdLen_ne_zero hne) ?_
  rw [scan_program hwf h, scan_eq_succ, scan_succ (by omega), fetch_truncated hpos hlt h]

theorem step_validate {s : State} (hhost : s.host = []) (hr : s.stalled = false) (hp : s.phase = .validate) :
    step s = .next (validateList s) := by
  rw [step_nil hhost, coreStep_running hr, hp]

/-- Settles O50: the walk passes the whole commands, and what stands after them decides. -/
theorem validateReportsTheFirstOffender : Obligations.ValidateReportsTheFirstOffender := by
  intro s hhost hr hp raised
  rw [step_validate hhost hr hp]
  refine ⟨fun hlen => ?_, fun is hwf => ⟨fun hne h => ?_, fun w rest hw h => ?_, fun i n _ hpos hlt h => ?_⟩⟩
  · rw [validateList, if_pos hlen]; rfl
  · rw [validateList_legal hne hwf h]; rfl
  · rw [validateList_unlisted hwf hw h]; rfl
  · rw [validateList_truncated hwf hpos hlt h]; rfl

end Sys2Proof.Machine
end

section
/-! The run as one function (44_pipeline.md R265): phase by phase, from the last one back, a machine that is left alone
ends with what the rest of the function gives. -/

namespace Sys2Proof.Machine

/-! ### The function, in the order of the phases -/

/-- An answer of the run function, or the cause and information of its error. -/
abbrev Answer := Except (Cause × Word)

theorem applyAll_append (c : Config) (is js : List Instr) (m : Image) :
    applyAll c (is ++ js) m = (applyAll c is m).bind (applyAll c js) := by
  induction is generalizing m with
  | nil => rfl
  | cons i is ih =>
    rw [List.cons_append, applyAll, applyAll]
    cases effect c i m with
    | ok m' => exact ih m'
    | error e => rfl

/-- What a run that wrote the file of a Header and an Image ends with. -/
def finished (h : Header) (m : Image) : RunResult := { hdr := h, img := m, out := fileBytes h m }

/-- The function from ENC_HDR on (44_pipeline.md R264). -/
def encodeAnswer (h : Header) (m : Image) : Answer RunResult := .ok (finished (sizedHeader h) m)

/-- The function from FILTER on. -/
def filterAnswer (c : Config) (is : List Instr) (h : Header) (m : Image) : Answer RunResult :=
  (applyAll c (ofClass .filter is) m).bind (encodeAnswer h)

/-- The function from RESYNC on (44_pipeline.md R262). -/
def resyncAnswer (c : Config) (is : List Instr) (h : Header) (m : Image) : Answer RunResult :=
  filterAnswer c is { h with width := BitVec.ofNat 32 m.w, height := BitVec.ofNat 32 m.h } m

/-- The function from CROP on (44_pipeline.md R256). -/
def cropAnswer (c : Config) (is : List Instr) (h : Header) (m : Image) : Answer RunResult :=
  (applyAll c (ofClass .crop is) m).bind fun m => (applyAll c (ofClass .mirror is) m).bind fun m =>
    (applyAll c (ofClass .rotate is) m).bind (resyncAnswer c is h)

theorem cropAnswer_eq (c : Config) (is : List Instr) (h : Header) (m : Image) :
    cropAnswer c is h m = (applyAll c (geometricPart is) m).bind (resyncAnswer c is h) := by
  rw [geometricPart, applyAll_append, applyAll_append, cropAnswer]
  cases applyAll c (ofClass .crop is) m with
  | error e => rfl
  | ok m1 =>
    simp only [Except.bind]
    cases applyAll c (ofClass .mirror is) m1 <;> rfl

/-- The run function is its phases, one after the other (44_pipeline.md R265). -/
theorem runFunction_eq (c : Config) (inp : List Byte) (is : List Instr) :
    runFunction c inp is =
      (headerOf c inp).bind fun h => (imageOf inp h).bind (cropAnswer c is h) := by
  unfold runFunction
  cases headerOf c inp with
  | error e => rfl
  | ok h =>
    simp only [Except.bind]
    cases imageOf inp h with
    | error e => rfl
    | ok m =>
      simp only [cropAnswer_eq]
      cases applyAll c (geometricPart is) m with
      | error e => rfl
      | ok m1 =>
        simp only [Except.bind, resyncAnswer, filterAnswer]
        cases applyAll c (ofClass .filter is) m1 <;> rfl

/-- Commands of different classes may be listed in any order (44_pipeline.md R256). -/
theorem runFunction_ofClass {is is' : List Instr} (h : ∀ k, ofClass k is = ofClass k is') (c : Config)
    (inp : List Byte) : runFunction c inp is = runFunction c inp is' := by
  simp only [runFunction, geometricPart, h]

/-- A file that ends inside the pixel area has a first row that is short (41_pixel_codec.md R177). -/
theorem imageOf_short {inp : List Byte} {h : Header} (hlen : 54 ≤ inp.length)
    (hrows : inp.length < 54 + strideOf h.width.toNat * h.height.toNat) :
    ∃ r, r < h.height.toNat ∧ 54 + r * strideOf h.width.toNat ≤ inp.length ∧
      inp.length < 54 + (r + 1) * strideOf h.width.toNat ∧
      imageOf inp h = .error (.shortRead, infoOfNat (54 + r * strideOf h.width.toNat)) := by
  have hin : inp.length - 54 < strideOf h.width.toNat * h.height.toNat := by omega
  have hstride : 0 < strideOf h.width.toNat := Nat.pos_of_mul_pos_right (Nat.zero_lt_of_lt hin)
  have hle := Nat.div_mul_le_self (inp.length - 54) (strideOf h.width.toNat)
  have hlt := Nat.lt_div_mul_add (a := inp.length - 54) hstride
  exact ⟨_, Nat.div_lt_of_lt_mul hin, by omega, by rw [Nat.succ_mul]; omega, if_pos hrows⟩

/-! ### A machine that is left alone -/

/-- No host move is pending, the collaborators never fail, and nothing stalls. -/
structure Undisturbed (s : State) : Prop where
  inv : s.Inv
  quiet : s.QuietIo
  host : s.host = []
  running : s.stalled = false

/-- A step that does not stall leaves the machine so. -/
theorem Undisturbed.step {s t : State} (h : Undisturbed s) (ht : step s = .next t) (hr : t.stalled = false) :
    Undisturbed t := by
  have hframe := coreStep_frame ((step_nil h.host).symm.trans ht)
  exact ⟨everyStepKeepsTheInvariant s t h.inv ht, by rw [State.QuietIo, hframe.cfg]; exact h.quiet,
    hframe.host.trans h.host, hr⟩

/-- The state in which a run ends with an answer (44_pipeline.md R264, R265). -/
def State.Shows (t : State) : Answer RunResult → Prop
  | .ok r => t.phase = .done ∧ t.hdr = r.hdr ∧ t.img = r.img ∧ t.out = r.out ∧ t.NoErrors
  | .error (c, v) => t.phase = .error ∧ t.errKind = c.kind.code ∧ t.errCause = c.code ∧ t.errInfo = v ∧ t.out = []

/-- The answer is all a host sees of the end of a run, but for the Header and the Image after an error. -/
theorem State.Shows.same {t t' : State} {a : Answer RunResult} (h : t.Shows a) (h' : t'.Shows a) :
    t.ended ∧ t.phase = t'.phase ∧ t.out = t'.out ∧ t.errKind = t'.errKind ∧ t.errCause = t'.errCause ∧
      t.errInfo = t'.errInfo ∧ (t.phase = .done → t.hdr = t'.hdr ∧ t.img = t'.img) := by
  cases a with
  | ok r =>
    obtain ⟨hp, hhdr, himg, ho, hk, hc, hv⟩ := h
    obtain ⟨hp', hhdr', himg', ho', hk', hc', hv'⟩ := h'
    exact ⟨.inl hp, hp.trans hp'.symm, ho.trans ho'.symm, hk.trans hk'.symm, hc.trans hc'.symm, hv.trans hv'.symm,
      fun _ => ⟨hhdr.trans hhdr'.symm, himg.trans himg'.symm⟩⟩
  | error e =>
    obtain ⟨hp, hk, hc, hv, ho⟩ := h
    obtain ⟨hp', hk', hc', hv', ho'⟩ := h'
    exact ⟨.inr hp, hp.trans hp'.symm, ho.trans ho'.symm, hk.trans hk'.symm, hc.trans hc'.symm, hv.trans hv'.symm,
      fun hd => nomatch hp.symm.trans hd⟩

/-- The machine ends with an answer. -/
def State.EndsWith (s : State) (a : Answer RunResult) : Prop :=
  ∃ (n : Nat) (t : State), Host.Core.run Sys2Proof.core n s = .next t ∧ t.Shows a

theorem endsWith_of_shows {s : State} {a : Answer RunResult} (h : s.Shows a) : s.EndsWith a := ⟨0, s, rfl, h⟩

theorem endsWith_of_step {s t : State} {a : Answer RunResult} (h : step s = .next t) (ht : t.EndsWith a) :
    s.EndsWith a := by
  obtain ⟨n, u, hrun, hu⟩ := ht
  exact ⟨n + 1, u, (run_succ h n).trans hrun, hu⟩

/-- A step that raises an error with nothing written ends the run with it. -/
theorem endsWith_of_raise {s u : State} {c : Cause} {v : Word} (h : step s = .next (raise c v u)) (ho : u.out = []) :
    s.EndsWith (.error (c, v)) :=
  endsWith_of_step h (endsWith_of_shows ⟨rfl, rfl, rfl, rfl, ho⟩)

/-! ### The encoder (44_pipeline.md R263, R264) -/

theorem endsWith_encPix {s : State} (hs : Undisturbed s) (hp : s.phase = .encPix) :
    s.EndsWith (.ok (finished s.hdr s.img)) := by
  obtain ⟨hno, -, -, -, -, -, hout⟩ := hs.inv.clauses hp
  refine endsWith_of_step (step_encPix hs.inv hs.quiet hs.host hp hs.running)
    (endsWith_of_shows ⟨rfl, rfl, rfl, ?_, hno⟩)
  rw [enter_out, hout hs.running]
  rfl

theorem endsWith_encHdr {s : State} (hs : Undisturbed s) (hp : s.phase = .encHdr) :
    s.EndsWith (encodeAnswer s.hdr s.img) :=
  have hstep := step_encHdr hs.inv hs.quiet hs.host hp hs.running
  endsWith_of_step hstep (endsWith_encPix (hs.step hstep hs.running) rfl)

/-! ### The walks and RESYNC (44_pipeline.md R257, R262) -/

theorem step_resync {s : State} (hhost : s.host = []) (hr : s.stalled = false) (hp : s.phase = .resync) :
    step s = .next (resync s) := by
  rw [step_nil hhost, coreStep_running hr, hp]

theorem step_phaseOf {s : State} (hs : Undisturbed s) {k : CmdClass} (hp : s.phase = phaseOf k) :
    step s = walkStep k (phaseAfter k) s :=
  (step_nil hs.host).trans (coreStep_phaseOf hs.running hp)

/-- Where the encoding of a command starts, that command is fetched. -/
theorem fetch_head {s : State} {before : List Word} {i : Instr} {is : List Instr} (hwf : i.wellFormed = true)
    (hprog : s.programWords = before ++ (i :: is).flatMap encode) (hat : s.opIdx = before.length) :
    s.opIdx < s.cmdLen.toNat ∧ ∃ rest, fetch s s.opIdx = .command i rest := by
  obtain ⟨rest, hf⟩ := fetch_command hwf hprog
  rw [← hat] at hf
  exact ⟨(Nat.lt_add_of_pos_right i.words_pos).trans_le (fetch_bound hf), rest, hf⟩

theorem ofClass_cons_of_eq {k : CmdClass} {i : Instr} (h : i.cls = k) (is : List Instr) :
    ofClass k (i :: is) = i :: ofClass k is := List.filter_cons_of_pos (by simpa using h)

theorem ofClass_cons_of_ne {k : CmdClass} {i : Instr} (h : i.cls ≠ k) (is : List Instr) :
    ofClass k (i :: is) = ofClass k is := List.filter_cons_of_neg (by simpa using h)

/-- The walk of a phase applies the commands of its class that are left, in order, and goes on in the next phase, or
ends with the first error. -/
theorem endsWith_walk {k : CmdClass} {F : Image → Answer RunResult} {is : List Instr} {s : State} {before : List Word}
    (hs : Undisturbed s) (hp : s.phase = phaseOf k) (hwf : ∀ i ∈ is, i.wellFormed = true)
    (hprog : s.programWords = before ++ is.flatMap encode) (hat : s.opIdx = before.length)
    (hF : ∀ m, Undisturbed (enter (phaseAfter k) { s with img := m }) →
      (enter (phaseAfter k) { s with img := m }).EndsWith (F m)) :
    s.EndsWith ((applyAll s.cfg (ofClass k is) s.img).bind F) := by
  induction is generalizing s before with
  | nil =>
    have hend : s.cmdLen.toNat ≤ s.opIdx := by
      rw [hat, ← programWords_length, hprog, List.flatMap_nil, List.append_nil]
    have hstep := (step_phaseOf hs hp).trans (walkStep_end hend ..)
    exact endsWith_of_step hstep (hF s.img (hs.step hstep hs.running))
  | cons i is ih =>
    obtain ⟨hi, rest, hf⟩ := fetch_head (hwf i List.mem_cons_self) hprog hat
    have hstep := (step_phaseOf hs hp).trans (walkStep_command hi hf k (phaseAfter k))
    have hwf' : ∀ j ∈ is, j.wellFormed = true := fun j hj => hwf j (List.mem_cons_of_mem i hj)
    have hprog' : s.programWords = (before ++ encode i) ++ is.flatMap encode := by
      rw [hprog, List.flatMap_cons, List.append_assoc]
    have hat' : s.opIdx + i.words = (before ++ encode i).length := by
      rw [List.length_append, encode_length, hat]
    obtain ⟨himg, -⟩ := hs.inv.image
    by_cases hk : i.cls = k
    · rw [if_pos hk] at hstep
      rw [ofClass_cons_of_eq hk, applyAll]
      cases he : effect s.cfg i s.img with
      | ok m =>
        rw [exec_of_effect_ok himg he] at hstep
        exact endsWith_of_step hstep (ih (hs.step hstep hs.running) hp hwf' hprog' hat' hF)
      | error e =>
        obtain ⟨-, -, -, ho, -⟩ := hs.inv.walkingIn hp
        rw [exec_of_effect_error himg he] at hstep
        exact endsWith_of_raise hstep ho
    · rw [if_neg hk] at hstep
      rw [ofClass_cons_of_ne hk]
      exact endsWith_of_step hstep (ih (hs.step hstep hs.running) hp hwf' hprog' hat' hF)

section
variable {is : List Instr} (hwf : ∀ i ∈ is, i.wellFormed = true)
include hwf

/-- A walk from the start of the list. -/
theorem endsWith_phase {s : State} {k : CmdClass} {F : Image → Answer RunResult} (hs : Undisturbed s)
    (hp : s.phase = phaseOf k) (hprog : s.programWords = is.flatMap encode) (hi : s.opIdx = 0)
    (hF : ∀ m, Undisturbed (enter (phaseAfter k) { s with img := m }) →
      (enter (phaseAfter k) { s with img := m }).EndsWith (F m)) :
    s.EndsWith ((applyAll s.cfg (ofClass k is) s.img).bind F) :=
  endsWith_walk (before := []) hs hp hwf hprog hi hF

theorem endsWith_filter {s : State} (hs : Undisturbed s) (hp : s.phase = .filter)
    (hprog : s.programWords = is.flatMap encode) (hi : s.opIdx = 0) :
    s.EndsWith (filterAnswer s.cfg is s.hdr s.img) :=
  endsWith_phase (k := .filter) hwf hs hp hprog hi fun _ ht => endsWith_encHdr ht rfl

theorem endsWith_resync {s : State} (hs : Undisturbed s) (hp : s.phase = .resync)
    (hprog : s.programWords = is.flatMap encode) : s.EndsWith (resyncAnswer s.cfg is s.hdr s.img) :=
  have hstep := step_resync hs.host hs.running hp
  endsWith_of_step hstep (endsWith_filter hwf (hs.step hstep hs.running) rfl hprog rfl)

theorem endsWith_crop {s : State} (hs : Undisturbed s) (hp : s.phase = .crop)
    (hprog : s.programWords = is.flatMap encode) (hi : s.opIdx = 0) :
    s.EndsWith (cropAnswer s.cfg is s.hdr s.img) :=
  endsWith_phase (k := .crop) hwf hs hp hprog hi fun _ h1 =>
    endsWith_phase (k := .mirror) hwf h1 rfl hprog rfl fun _ h2 =>
      endsWith_phase (k := .rotate) hwf h2 rfl hprog rfl fun _ h3 => endsWith_resync hwf h3 rfl hprog

/-! ### The decoder (44_pipeline.md R255) -/

theorem endsWith_decPix {s : State} (hs : Undisturbed s) (hp : s.phase = .decPix) (hlen : 54 ≤ s.inp.length)
    (hprog : s.programWords = is.flatMap encode) :
    s.EndsWith ((imageOf s.inp s.hdr).bind (cropAnswer s.cfg is s.hdr)) := by
  obtain ⟨hf, hh, -⟩ := hs.quiet
  obtain ⟨-, -, ho, -, -, hhdr⟩ := hs.inv.clauses hp
  by_cases hrows : s.inp.length < 54 + strideOf s.hdr.width.toNat * s.hdr.height.toNat
  · obtain ⟨hsizes, -⟩ := hhdr.sizes
    obtain ⟨-, -, hbpp, -⟩ := hhdr
    obtain ⟨r, hr, hle, hlt, herr⟩ := imageOf_short hlen hrows
    have hstep : step s = decodePixels s := by rw [step_nil hs.host, coreStep_running hs.running, hp]
    rw [herr]
    exact endsWith_of_raise (hstep.trans (decodePixels_short hsizes hbpp hf hh hr hle hlt)) ho
  · have himg := imageOf_ok (not_lt.1 hrows)
    have hstep := step_decPix hs.host hs.running hp hhdr hf hh himg
    rw [himg]
    exact endsWith_of_step hstep (endsWith_crop hwf (hs.step hstep hs.running) rfl hprog rfl)

theorem endsWith_decHdr {s : State} (hs : Undisturbed s) (hp : s.phase = .decHdr)
    (hprog : s.programWords = is.flatMap encode) : s.EndsWith (runFunction s.cfg s.inp is) := by
  obtain ⟨hf, hh, -⟩ := hs.quiet
  obtain ⟨-, -, ho, -, -, hpos⟩ := hs.inv.clauses hp
  have hstep : step s = .next (s.headerOutcome (headerOf s.cfg s.inp)) := by
    rw [step_nil hs.host, coreStep_running hs.running, hp, ← decodeHeader_quiet hf hh,
      headerReadTo_start (hpos hs.running)]
  rw [runFunction_eq]
  cases hheader : headerOf s.cfg s.inp with
  | ok h =>
    rw [hheader] at hstep
    have ht := hs.step hstep hs.running
    exact endsWith_of_step hstep (endsWith_decPix hwf ht rfl ht.inv.position hprog)
  | error e =>
    rw [hheader] at hstep
    exact endsWith_of_raise hstep ho

end

/-- A run from VALIDATE with a legal list ends with what the function gives (44_pipeline.md R265). -/
theorem run_endsWith {s : State} {is : List Instr} (hs : s.Inv) (hq : s.QuietIo) (hhost : s.host = [])
    (hp : s.phase = .validate) (hne : is ≠ []) (hwf : ∀ i ∈ is, i.wellFormed = true)
    (hprog : s.programWords = is.flatMap encode) : s.EndsWith (runFunction s.cfg s.inp is) := by
  obtain ⟨⟨-, hr, -⟩, -⟩ := hs.clauses hp
  have hstep := (step_validate hhost hr hp).trans (congrArg _ (validateList_legal hne hwf hprog))
  have ht : Undisturbed (enter .decHdr s) := Undisturbed.step ⟨hs, hq, hhost, hr⟩ hstep hr
  exact endsWith_of_step hstep (endsWith_decHdr hwf ht rfl hprog)

/-- Settles O56: the state the run ends in shows the function's answer. -/
theorem theRunIsTheFunction : Obligations.TheRunIsTheFunction := by
  intro s is hs hq hhost hp hne hwf hprog
  obtain ⟨n, t, hrun, ht⟩ := run_endsWith hs hq hhost hp hne hwf hprog
  refine ⟨n, t, hrun, fun r hr => ?_, fun c v he => ?_⟩
  · rw [hr] at ht
    obtain ⟨hphase, hhdr, himg, hout, hkind, -⟩ := ht
    exact ⟨hphase, hhdr, himg, hout, hkind⟩
  · rwa [he] at ht

/-- Settles O57: both runs end with the answer of the function, which is one for both lists. -/
theorem orderAcrossClassesHasNoEffect : Obligations.OrderAcrossClassesHasNoEffect := by
  intro s s' is is' hs hs' hq hhost hhost' hp hp' hcfg hinp hne hne' hwf hwf' hprog hprog' hclass
  have hq' : s'.QuietIo := by rwa [State.QuietIo, ← hcfg]
  obtain ⟨n, t, hrun, ht⟩ := run_endsWith hs hq hhost hp hne hwf hprog
  obtain ⟨n', t', hrun', ht'⟩ := run_endsWith hs' hq' hhost' hp' hne' hwf' hprog'
  rw [← hcfg, ← hinp, ← runFunction_ofClass hclass] at ht'
  exact ⟨n, n', t, t', hrun, hrun', ht.same ht'⟩

end Sys2Proof.Machine
end

section
/-! START, the phases in which the core rests, and RESYNC (44_pipeline.md R250, R251, R262, R264). -/

namespace Sys2Proof.Machine

/-! ### START -/

/-- A write of `CTRL` with START and without RESET is START in IDLE and DONE, and nothing elsewhere (44_pipeline.md
R250). -/
theorem hostStep_starts {m : HostMove} (h : m.starts = true) (s : State) :
    hostStep m s = .next (if s.phase = .idle ∨ s.phase = .done then startRun s else s) := by
  cases m with
  | tick | read _ | resetPin => cases h
  | write off v =>
    simp only [HostMove.starts, Bool.and_eq_true, decide_eq_true_eq, Bool.not_eq_true'] at h
    obtain ⟨⟨rfl, hstart⟩, hreset⟩ := h
    have hctrl : hostWrite 0 v s = writeCtrl v s := rfl
    simp only [hostStep, hctrl, writeCtrl, hstart, hreset, Bool.false_eq_true, if_false, true_and]

/-- Settles O9: the step is START, which writes the registers of the run alone. -/
theorem startClearsTheRunAndKeepsTheProgram : Obligations.StartClearsTheRunAndKeepsTheProgram := by
  intro s m rest hhost hm hp
  have hstep : step s = .next (startRun { s with host := rest }) := by
    rw [step_cons hhost, hostStep_starts hm, if_pos hp]
  refine ⟨_, hstep, ?_⟩
  and_intros <;> intros <;> rfl

/-- Settles O10: elsewhere the write of START changes nothing. -/
theorem startIsIgnoredOutsideIdleAndDone : Obligations.StartIsIgnoredOutsideIdleAndDone := by
  intro s m rest hhost hm hidle hdone
  rw [step_cons hhost, hostStep_starts hm, if_neg (not_or.2 ⟨hidle, hdone⟩)]

/-! ### The core at rest -/

/-- In IDLE, DONE and ERROR a step of the core is the state itself (44_pipeline.md R264; log 11). -/
theorem coreStep_resting {s : State} (h : s.phase = .idle ∨ s.phase = .done ∨ s.phase = .error) :
    coreStep s = .next s := by
  unfold coreStep
  split
  · rfl
  · obtain hp | hp | hp := h <;> rw [hp]

/-- What a run leaves is as before (70_reset_and_hazards.md R321). -/
def SameRun (s t : State) : Prop :=
  t.phase = s.phase ∧ t.opIdx = s.opIdx ∧ t.hdr = s.hdr ∧ t.img = s.img ∧ t.ipos = s.ipos ∧ t.out = s.out ∧
    t.errKind = s.errKind ∧ t.errCause = s.errCause ∧ t.errInfo = s.errInfo

theorem SameRun.setHost (s : State) (ms : List HostMove) : SameRun s { s with host := ms } :=
  ⟨rfl, rfl, rfl, rfl, rfl, rfl, rfl, rfl, rfl⟩

theorem hostRead_sameRun (off : Nat) (s : State) : SameRun s (hostRead off s) := by
  obtain ⟨v, n, h⟩ := hostRead_eq off s
  rw [h]
  exact ⟨rfl, rfl, rfl, rfl, rfl, rfl, rfl, rfl, rfl⟩

/-- A host write leaves a run as it is, but for a reset, and START in IDLE and DONE. -/
theorem hostWrite_sameRun (off : Nat) (v : Word) (s : State) :
    SameRun s (hostWrite off v s) ∨ (HostMove.write off v).resets = true ∨
      (HostMove.write off v).starts = true ∧ s.phase ≠ .error := by
  rcases hostWrite_cases off v s with
    h | ⟨rfl, hr, -⟩ | ⟨rfl, hr, hs, hp, -⟩ | ⟨-, n, -, h⟩ | ⟨-, h⟩ | ⟨-, i, -, h⟩
  case inr.inl => exact .inr (.inl (by rw [HostMove.resets, hr]; decide))
  case inr.inr.inl =>
    refine .inr (.inr ⟨by rw [HostMove.starts, hr, hs]; decide, fun he => ?_⟩)
    simp [he] at hp
  all_goals
    rw [h]
    exact .inl ⟨rfl, rfl, rfl, rfl, rfl, rfl, rfl, rfl, rfl⟩

/-- Settles O19: the core does nothing, and the host's moves one by one. -/
theorem theCoreRestsInIdleDoneAndError : Obligations.TheCoreRestsInIdleDoneAndError := by
  intro s hrest
  have core (ms : List HostMove) : coreStep { s with host := ms } = .next { s with host := ms } :=
    coreStep_resting hrest
  refine ⟨fun hhost => (step_nil hhost).trans (coreStep_resting hrest),
    fun rest hhost => (step_cons hhost).trans (core rest), fun t h => ?_⟩
  obtain ⟨rest, h⟩ | ⟨off, v, rest, hhost, rfl⟩ | ⟨off, rest, -, rfl⟩ | ⟨rest, hhost, rfl⟩ := step_cases h
  · cases (core rest).symm.trans h
    exact .inl (SameRun.setHost s rest)
  · exact (hostWrite_sameRun off v { s with host := rest }).imp_right fun hm => ⟨_, rest, hhost, hm⟩
  · exact .inl (hostRead_sameRun off { s with host := rest })
  · exact .inr ⟨_, rest, hhost, .inl rfl⟩

/-! ### RESYNC -/

/-- A dimension that fits an `i32` is read back from its register (45_arithmetic.md R271). -/
theorem toInt_ofNat_of_fits {n : Nat} (h : n < 2 ^ 31) : (BitVec.ofNat 32 n).toInt = n := by
  rw [BitVec.toInt_ofNat', Int.bmod_eq_of_le (by omega) (by omega)]

/-- Settles O51: the step is RESYNC, which writes the two registers and enters FILTER. -/
theorem resyncCopiesTheImageSize : Obligations.ResyncCopiesTheImageSize := by
  intro s hhost hr hp
  exact ⟨_, step_resync hhost hr hp, rfl, toInt_ofNat_of_fits, toInt_ofNat_of_fits⟩

end Sys2Proof.Machine
end

section
/-! A call that never returns holds the run until a reset (93_implementation_defined.md U33; log 5). -/

namespace Sys2Proof.Machine

/-- PHASE and the error registers are as before. -/
def SameStatus (s t : State) : Prop :=
  t.phase = s.phase ∧ t.errKind = s.errKind ∧ t.errCause = s.errCause ∧ t.errInfo = s.errInfo

/-- A listed call does not return, whatever it would have done. -/
theorem ioCall_hung {α : Type} {s : State} {kind : IoKind} {pos n : Nat} (h : ⟨kind, pos, n⟩ ∈ s.cfg.ioHang)
    (failure : Cause) (body : State → Io α) : ioCall kind pos n failure body s = .stop (stall s) := if_pos h

/-! ### A step that ends in a call that does not return -/

/-- If a call of a running machine did not return, the step left PHASE and the error registers alone. -/
def KeepsStatusIfStalled (s t : State) : Prop := t.stalled = true → SameStatus s t

theorem keepsStatus_of_running {s t : State} (h : t.stalled = false) : KeepsStatusIfStalled s t :=
  fun ht => absurd ht (by simp [h])

/-- A codec whose calls return, or end the step so, and the phase after it. -/
theorem keepsStatus_finish {s : State} {x : Io Unit}
    (hx : x.Ends (fun _ u => u.stalled = false) (KeepsStatusIfStalled s)) (p : Phase) :
    KeepsStatusIfStalled s (x.finish (enter p)) :=
  hx.finish (fun _ hu => keepsStatus_of_running hu) fun _ hu => hu

section
variable {s t : State} (hr : s.stalled = false)
include hr

theorem ReadStops.keepsStatus {P : Header → Prop} (h : ReadStops s P t) : KeepsStatusIfStalled s t := by
  obtain ⟨hdr, pos, -, -, ⟨-, rfl⟩ | ⟨c, v, -, rfl⟩⟩ := h
  · exact fun _ => ⟨rfl, rfl, rfl, rfl⟩
  · exact keepsStatus_of_running hr

theorem Written.running {bs : List Byte} (h : Written s bs t) : t.stalled = false := by
  obtain ⟨rfl, -⟩ := h
  exact hr

theorem WriteStops.keepsStatus {bs : List Byte} (h : WriteStops s bs t) : KeepsStatusIfStalled s t := by
  obtain ⟨cs, v, -, ⟨rfl, -⟩, ⟨-, rfl⟩ | ⟨c, i, -, -, rfl⟩⟩ := h
  · exact fun _ => ⟨rfl, rfl, rfl, rfl⟩
  · exact keepsStatus_of_running hr

/-- decodeHeader from any `IPOS`: past the end of `IN` its first read ends it. -/
theorem decodeHeader_keepsStatus : KeepsStatusIfStalled s (decodeHeader s) := by
  by_cases hpos : s.ipos ≤ s.inp.length
  · rcases decodeHeader_cases hpos with ⟨u, ⟨hu, -⟩, h⟩ | h
    · rw [h, hu]
      exact keepsStatus_of_running hr
    · exact h.keepsStatus hr
  · unfold decodeHeader readSignature
    rcases inRead_cases 2 s with ⟨-, e⟩ | ⟨c, -, e⟩ | ⟨hle, -⟩
    · rw [e]; exact fun _ => ⟨rfl, rfl, rfl, rfl⟩
    · rw [e]; exact keepsStatus_of_running hr
    · omega

theorem readImage_keepsStatus (w h stride : Nat) :
    (readImage w h stride s).Ends (fun _ u => u.stalled = false) (KeepsStatusIfStalled s) := by
  unfold readImage
  rcases inSeek_cases pixelDataOffset s with ⟨-, e⟩ | e | ⟨hle, e⟩ <;> rw [e]
  · exact fun _ => ⟨rfl, rfl, rfl, rfl⟩
  · exact keepsStatus_of_running hr
  · rw [Io.bind_ok]
    refine Io.Ends.bind ((readRows_ends stride h (s := { s with ipos := pixelDataOffset }) hle).mono (fun _ _ hu => hu)
      fun u hu => ?_) fun rows u hu => ?_
    · exact hu.keepsStatus (s := { s with ipos := pixelDataOffset }) hr
    · obtain ⟨⟨pos, -, rfl⟩, -⟩ := hu
      exact hr

theorem decodePixels_keepsStatus (h : decodePixels s = .next t) : KeepsStatusIfStalled s t := by
  unfold decodePixels at h
  split at h
  · dsimp only at h
    split at h
    · cases h
    · cases h
      exact keepsStatus_finish (readImage_keepsStatus hr _ _ _) .crop
  · cases h

theorem encodeHeader_keepsStatus (h : encodeHeader s = .next t) : KeepsStatusIfStalled s t := by
  by_cases hs : s.hdr.sizesNonneg
  · obtain ⟨t', ht', hcases⟩ := encodeHeader_cases hs
    obtain rfl := Host.Outcome.next.inj (ht'.symm.trans h)
    rcases hcases with ⟨u, ⟨rfl, -⟩, rfl⟩ | ⟨-, rfl⟩ | ⟨bs, u, c, v, -, -, ⟨rfl, -⟩, -, rfl⟩
    · exact keepsStatus_of_running hr
    · exact fun _ => ⟨rfl, rfl, rfl, rfl⟩
    · exact keepsStatus_of_running hr
  · rw [encodeHeader, if_neg hs] at h
    cases h

theorem encodePixels_keepsStatus (h : encodePixels s = .next t) : KeepsStatusIfStalled s t := by
  unfold encodePixels at h
  split at h
  · dsimp only at h
    split at h
    · cases h
    · cases h
      refine keepsStatus_finish (Io.Ends.bind
        ((writeRows_ends _ _ _ _ s).mono (fun _ _ hu => hu) fun u hu => hu.keepsStatus hr) fun _ u hu => ?_) .done
      exact (writeSome_ends _ u).mono (fun _ _ hv => (hu.trans hv).running hr)
        fun _ hv => (WriteStops.after hu hv).keepsStatus hr
  · cases h

theorem validateList_running : (validateList s).stalled = false := by
  rcases validateList_cases s with ⟨-, h⟩ | ⟨-, c, i, -, -, h⟩ | ⟨-, -, h⟩ <;> rw [h] <;> exact hr

theorem walkStep_running {k : CmdClass} {p : Phase} (h : walkStep k p s = .next t) : t.stalled = false := by
  obtain ⟨-, rfl⟩ | ⟨i, rest, -, -, ⟨-, h⟩ | ⟨-, rfl⟩⟩ := walkStep_cases h
  · exact hr
  · obtain ⟨-, ⟨m, -, rfl⟩ | ⟨c, v, -, rfl⟩⟩ := exec_cases h <;> exact hr
  · exact hr

/-- A step of the core ends in a call that does not return only in a phase that calls a collaborator, and leaves PHASE
and the error registers alone. -/
theorem coreStep_stalls (h : coreStep s = .next t) (ht : t.stalled = true) :
    s.phase.callsOut = true ∧ SameStatus s t := by
  have absent {Q : Prop} (hn : t.stalled = false) : Q := absurd ht (by simp [hn])
  rw [coreStep_running hr] at h
  cases hp : s.phase <;> rw [hp] at h
  case idle | done | error => cases h; exact absent hr
  case validate => cases h; exact absent (validateList_running hr)
  case crop | mirror | rotate | filter => exact absent (walkStep_running hr h)
  case resync => cases h; exact absent hr
  case decHdr => cases h; exact ⟨rfl, decodeHeader_keepsStatus hr ht⟩
  case decPix => exact ⟨rfl, decodePixels_keepsStatus hr h ht⟩
  case encHdr => exact ⟨rfl, encodeHeader_keepsStatus hr h ht⟩
  case encPix => exact ⟨rfl, encodePixels_keepsStatus hr h ht⟩

end

/-! ### A machine that is held -/

/-- A phase that calls a collaborator is one VALIDATE has passed. -/
theorem validated_of_callsOut {p : Phase} (h : p.callsOut = true) : p.validated = true := by
  cases p <;> cases h <;> rfl

/-- What a step keeps while a call has not returned. -/
def Held (s t : State) : Prop :=
  t.stalled = true ∧ t.phase = s.phase ∧ t.busy = true ∧ t.errKind = s.errKind ∧ t.errCause = s.errCause ∧
    t.errInfo = s.errInfo

theorem held_of_coreStep {s t : State} (hr : s.stalled = false) (h : coreStep s = .next t) (ht : t.stalled = true) :
    Held s t := by
  obtain ⟨hcalls, hphase, herr⟩ := coreStep_stalls hr h ht
  exact ⟨ht, hphase, busy_of_validated (validated_of_callsOut (hphase ▸ hcalls)), herr⟩

/-- Neither the core nor a host move but a reset ends it (70_reset_and_hazards.md R320). -/
theorem held_or_reset {s t : State} (hst : s.stalled = true) (hb : s.busy = true) (h : step s = .next t) :
    Held s t ∨ ∃ m rest, s.host = m :: rest ∧ m.resets = true ∧ t = resetCore { s with host := rest } := by
  have held (ms : List HostMove) : Held s { s with host := ms } := ⟨hst, rfl, hb, rfl, rfl, rfl⟩
  obtain ⟨rest, h⟩ | ⟨off, v, rest, hhost, rfl⟩ | ⟨off, rest, -, rfl⟩ | ⟨rest, hhost, rfl⟩ := step_cases h
  · cases (coreStep_stalled (s := { s with host := rest }) hst).symm.trans h
    exact .inl (held rest)
  · cases hm : (HostMove.write off v).resets with
    | true => exact .inr ⟨_, rest, hhost, hm, Host.Outcome.next.inj (hostStep_resets hm { s with host := rest })⟩
    | false =>
      rw [hostWrite_busy (s := { s with host := rest }) hb hm]
      exact .inl (held rest)
  · obtain ⟨v, n, h⟩ := hostRead_eq off { s with host := rest }
    rw [h]
    exact .inl (held rest)
  · exact .inr ⟨_, rest, hhost, rfl, rfl⟩

/-- Settles O45: the three calls differ in kind and position alone; a step that ends in one holds the machine, and so
does every step after it. -/
theorem aCallThatNeverReturnsHoldsTheRunUntilReset :
    Obligations.ACallThatNeverReturnsHoldsTheRunUntilReset := by
  intro s
  exact ⟨⟨fun n h => ioCall_hung h .streamClosed _, fun o h => ioCall_hung h .seekFail _,
      fun bs h => ioCall_hung h .streamClosed _⟩,
    fun t hhost hr h ht => held_of_coreStep hr ((step_nil hhost).symm.trans h) ht,
    fun hst hhost => (step_nil hhost).trans (coreStep_stalled hst),
    fun hst hb t h => held_or_reset hst hb h⟩

end Sys2Proof.Machine
end

section
/-! Errors: the codes of the causes, ERROR until a reset, and what a failed run leaves in `OUT` (60_exceptions.md R282,
R283, R293, R295). -/

namespace Sys2Proof.Machine

/-! ### The codes (60_exceptions.md R283) -/

/-- The twenty causes, in the order of their codes. -/
def causes : List Cause :=
  [.badSignature, .badDibSize, .badBitDepth, .compressed, .badDimensions, .cropOffsetX, .cropOffsetY, .cropWidthNonpos,
    .cropHeightNonpos, .cropXExtent, .cropYExtent, .pixelateNeg, .blurNeg, .shortRead, .seekFail, .shortWrite,
    .streamClosed, .unknownToken, .emptyList, .truncatedCommand]

/-- The cause a code names. -/
def causeOfCode (x : BitVec 8) : Option Cause := causes.find? fun c => c.code = x

@[simp] theorem causeOfCode_code (c : Cause) : causeOfCode c.code = some c := by cases c <;> rfl

/-- No two causes have one code: each is read back from its own. -/
theorem Cause.code_injective {c d : Cause} (h : c.code = d.code) : c = d := by
  have hread : some c = some d := by rw [← causeOfCode_code c, h, causeOfCode_code d]
  exact Option.some.inj hread

/-- "The high nibble of the code repeats the kind." -/
theorem Cause.code_highNibble (c : Cause) : c.code.extractLsb' 4 4 = c.kind.code.setWidth 4 := by
  cases c <;> rfl

/-- Settles O15: the table row by row; a code names its kind and its cause. -/
theorem errorCodesNameKindAndCause : Obligations.ErrorCodesNameKindAndCause :=
  ⟨rfl, rfl, rfl, rfl, fun c => by cases c <;> rfl, Cause.code_highNibble, fun _ _ => Cause.code_injective⟩

/-! ### ERROR until a reset (60_exceptions.md R293) -/

/-- Settles O18: the core rests in ERROR, START is not honoured there, and the move that is left is a reset. -/
theorem errorIsStickyUntilReset : Obligations.ErrorIsStickyUntilReset := by
  intro s t hp h
  obtain ⟨-, -, hrest⟩ := theCoreRestsInIdleDoneAndError s (.inr (.inr hp))
  obtain ⟨hphase, -, -, -, -, -, herr⟩ | ⟨m, rest, hhost, hm | ⟨-, hne⟩⟩ := hrest t h
  · exact .inl ⟨hphase.trans hp, herr⟩
  · rw [step_cons hhost, hostStep_resets hm] at h
    exact .inr ⟨m, rest, hhost, hm, (Host.Outcome.next.inj h).symm⟩
  · exact absurd hp hne

/-! ### Outside the encoder nothing is written (44_pipeline.md R258) -/

theorem ReadStops.out {s t : State} {P : Header → Prop} (h : ReadStops s P t) : t.out = s.out := by
  obtain ⟨hdr, pos, -, -, ⟨-, rfl⟩ | ⟨c, v, -, rfl⟩⟩ := h <;> rfl

theorem validateList_out (s : State) : (validateList s).out = s.out := by
  obtain ⟨-, h⟩ | ⟨-, c, i, -, -, h⟩ | ⟨-, -, h⟩ := validateList_cases s <;> rw [h] <;> rfl

theorem decodeHeader_out {s : State} (hpos : s.ipos ≤ s.inp.length) : (decodeHeader s).out = s.out := by
  obtain ⟨u, ⟨hu, -⟩, h⟩ | h := decodeHeader_cases hpos
  · rw [h, hu]
    rfl
  · exact h.out

theorem decodePixels_out {s t : State} (hpos : s.ipos ≤ s.inp.length) (hhdr : s.HeaderOk)
    (h : decodePixels s = .next t) : t.out = s.out := by
  have ⟨_, _, hbpp, _⟩ := hhdr
  obtain ⟨t', ht', hcases⟩ := decodePixels_cases hpos hhdr.sizes.1 hbpp
  obtain rfl := Host.Outcome.next.inj (ht'.symm.trans h)
  obtain ⟨m, pos, -, -, -, -, rfl⟩ | hstop := hcases
  · rfl
  · exact hstop.out

theorem walkStep_out {k : CmdClass} {p : Phase} {s t : State} (h : walkStep k p s = .next t) : t.out = s.out := by
  obtain ⟨-, rfl⟩ | ⟨i, rest, -, -, ⟨-, h⟩ | ⟨-, rfl⟩⟩ := walkStep_cases h
  · rfl
  · obtain ⟨-, ⟨m, -, rfl⟩ | ⟨c, v, -, rfl⟩⟩ := exec_cases h <;> rfl
  · rfl

theorem coreStep_out {s t : State} (hs : s.Inv) (hr : s.stalled = false) (hhdr : s.phase ≠ .encHdr)
    (hpix : s.phase ≠ .encPix) (h : coreStep s = .next t) : t.out = s.out := by
  rw [coreStep_running hr] at h
  cases hp : s.phase <;> rw [hp] at h
  case encHdr => exact absurd hp hhdr
  case encPix => exact absurd hp hpix
  case idle | done | error | resync => cases h; rfl
  case validate => cases h; exact validateList_out s
  case decHdr => cases h; exact decodeHeader_out hs.position
  case decPix => exact decodePixels_out hs.position (hs.header (by rw [hp]; rfl)) h
  case crop | mirror | rotate | filter => exact walkStep_out h

/-- A run that fails outside the encoder leaves `OUT` empty: in `DONE`, where it is not, no step fails. -/
theorem failed_out_nil {s t : State} (hs : s.Inv) (hr : s.stalled = false) (hne : s.phase ≠ .error)
    (hhdr : s.phase ≠ .encHdr) (hpix : s.phase ≠ .encPix) (h : coreStep s = .next t) (ht : t.phase = .error) :
    t.out = [] := by
  have hdone : s.phase ≠ .done := fun hd => by
    cases (coreStep_resting (.inr (.inl hd))).symm.trans h
    exact hne ht
  have hbefore : s.phase.beforeOutput := by
    cases hp : s.phase
    case encHdr | encPix | done | error => contradiction
    all_goals rfl
  exact (coreStep_out hs hr hhdr hpix h).trans (hs.noOutput hbefore)

/-! ### A failed write leaves a proper prefix (60_exceptions.md R295) -/

/-- The writing of `bs` fails: some of the bytes are written, then an IOError is raised. -/
def WriteFails (s : State) (bs : List Byte) (t : State) : Prop :=
  ∃ (cs : List Byte) (c : Cause) (v : Word), c.kind = .ioError ∧ cs <+: bs ∧ cs.length < bs.length ∧
    t = raise c v { s with out := s.out ++ cs }

/-- What stops in `ERROR` failed: a call that does not return leaves PHASE alone. -/
theorem WriteStops.fails {s t : State} {bs : List Byte} (h : WriteStops s bs t) (hne : s.phase ≠ .error)
    (ht : t.phase = .error) : WriteFails s bs t := by
  obtain ⟨cs, u, hpre, ⟨rfl, -⟩, ⟨-, rfl⟩ | ⟨c, v, hk, hlt, rfl⟩⟩ := h
  · exact absurd ht hne
  · exact ⟨cs, c, v, hk, hpre, hlt, rfl⟩

namespace WriteFails

variable {s t : State} {bs : List Byte} (h : WriteFails s bs t)
include h

/-- Nothing else changes but the error registers and PHASE. -/
theorem frame : t = { s with
    out := t.out, errKind := 3, errCause := t.errCause, errInfo := t.errInfo, phase := .error } := by
  obtain ⟨cs, c, v, hk, -, -, rfl⟩ := h
  simp only [raise, hk]
  rfl

theorem out_extends : s.out <+: t.out := by
  obtain ⟨cs, c, v, -, -, -, rfl⟩ := h
  exact List.prefix_append ..

theorem out_prefix (rest : List Byte) : t.out <+: s.out ++ (bs ++ rest) := by
  obtain ⟨cs, c, v, -, hpre, -, rfl⟩ := h
  exact (List.prefix_append_right_inj s.out).2 (hpre.trans (List.prefix_append ..))

theorem out_ne (rest : List Byte) : t.out ≠ s.out ++ (bs ++ rest) := by
  obtain ⟨cs, c, v, -, -, hlt, rfl⟩ := h
  intro heq
  have hlen := congrArg List.length heq
  simp only [raise_out, List.length_append] at hlen
  omega

end WriteFails

/-- encodeHeader ends in `ERROR` only when its one write fails (40_header_codec.md R162). -/
theorem encodeHeader_fails {s t : State} (hs : s.Inv) (hp : s.phase = .encHdr) (h : encodeHeader s = .next t)
    (ht : t.phase = .error) :
    WriteFails { s with hdr := sizedHeader s.hdr } (headerBytes (sizedHeader s.hdr)) t := by
  obtain ⟨-, -, -, -, hhdr, -⟩ := hs.clauses hp
  obtain ⟨t', ht', hcases⟩ := encodeHeader_cases hhdr.sizes.1
  obtain rfl := Host.Outcome.next.inj (ht'.symm.trans h)
  obtain ⟨u, -, rfl⟩ | ⟨-, rfl⟩ | ⟨bs, u, c, v, hpre, hlt, ⟨rfl, -⟩, hk, rfl⟩ := hcases
  · cases ht
  · cases hp.symm.trans ht
  · exact ⟨bs, c, v, hk, hpre, hlt, rfl⟩

/-- encodePixels ends in `ERROR` only when a write of the rows or of the padding fails (41_pixel_codec.md R184). -/
theorem encodePixels_fails {s t : State} (hs : s.Inv) (hp : s.phase = .encPix) (h : encodePixels s = .next t)
    (ht : t.phase = .error) : WriteFails s (pixelBytes s.hdr s.img) t := by
  obtain ⟨-, -, -, hhdr, ⟨hw, hh⟩, -⟩ := hs.clauses hp
  obtain ⟨hwf, -⟩ := hs.image
  obtain ⟨t', ht', hcases⟩ := encodePixels_cases hhdr.sizes.1 hwf hw hh
  obtain rfl := Host.Outcome.next.inj (ht'.symm.trans h)
  obtain ⟨u, -, rfl⟩ | hstop := hcases
  · cases ht
  · exact hstop.fails (by rw [hp]; nofun) ht

/-- Settles O44: outside the encoder nothing is written. In it the step fails in a write, of the header into an empty
`OUT`, or of the pixels after the header. -/
theorem aFailedRunLeavesAProperPrefixOfTheFile : Obligations.AFailedRunLeavesAProperPrefixOfTheFile := by
  intro s t hs hhost hr hne h ht failed
  rw [step_nil hhost] at h
  refine ⟨fun hhdr hpix => failed_out_nil hs hr hne hhdr hpix h ht, fun hp => ?_, fun hp => ?_⟩
  · rw [coreStep_running hr, hp] at h
    have hfail := encodeHeader_fails hs hp h ht
    have hfile : s.out ++ (headerBytes (sizedHeader s.hdr) ++ pixelBytes (sizedHeader s.hdr) s.img) =
        fileBytes (sizedHeader s.hdr) s.img := by rw [hs.noOutput (by rw [hp]; rfl)]; rfl
    exact ⟨hfail.frame, hfile ▸ hfail.out_prefix _, hfile ▸ hfail.out_ne _⟩
  · rw [coreStep_running hr, hp] at h
    have hfail := encodePixels_fails hs hp h ht
    have hfile : s.out ++ (pixelBytes s.hdr s.img ++ []) = fileBytes s.hdr s.img := by
      rw [List.append_nil, hs.headerWritten hp hr]; rfl
    exact ⟨hfail.frame, hfail.out_extends, hfile ▸ hfail.out_prefix [], hfile ▸ hfail.out_ne []⟩

end Sys2Proof.Machine
end
